-- ==== Sys2Proof/Word.lean ====
section
/-! DEFINITION. The bit-vector types of the ES256 core: what the spec treats as bits (command words,
buffer bytes, the register and point fields of a command word). Field values are not bits; they are
integers below the prime, see `Sys2Proof/Config.lean`. -/
namespace Sys2Proof

/-- A 32-bit word: a command word or a host-window register value (R71, R100). -/
abbrev Word := BitVec 32

/-- A byte: 8 bits everywhere (R60). -/
abbrev Byte := BitVec 8

/-- A 4-bit register field of a command word: an index of the field-register space (R60, R101). -/
abbrev RegIdx := BitVec 4

/-- A 4-bit point field of a command word (R109). -/
abbrev PointIdx := BitVec 4

end Sys2Proof
end

