-- ==== Sys2Proof/Config.lean ====
section
/-! DEFINITION. What is fixed for the machine and is not state (R39): the prime, the curve constants, the
sizes, the reset value of the retry cap, and the one free value of the spec (R66). -/
namespace Sys2Proof

/-- The prime `P = 2^256 - 2^224 + 2^192 + 2^96 - 1` (R6, R7). -/
def fieldP : Nat := 0xFFFFFFFF00000001000000000000000000000000FFFFFFFFFFFFFFFFFFFFFFFF

theorem fieldP_pos : 0 < fieldP := by decide

/-- A field value: an integer in `0 .. P-1` (R8, R21). The architectural value of a field register is
that integer; its internal form is invisible (R21, R37). -/
abbrev Fp := Fin fieldP

/-- The field value of an integer: its remainder on division by `P`. -/
def toFp (n : Nat) : Fp := ⟨n % fieldP, Nat.mod_lt _ fieldP_pos⟩

/-- The curve constant `a = -3 mod P = P - 3` (R7). -/
def curveA : Fp := toFp (fieldP - 3)

/-- The curve constant `b` (R7). -/
def curveB : Fp := toFp 0x5AC635D8AA3A93E7B3EBBD55769886BC651D06B0CC53B0F63BCE3C3E27D2604B

/-- The size in bytes of `IBUF` and of `OBUF` (R6, R34, R35). -/
def bufSize : Nat := 65

/-- The reset value of `NMAX`: the parameter `NMAX_RESET`, default 1000 (R6, R32). -/
def nmaxReset : BitVec 16 := 1000

/-- The unspecified value that the `n`-th host read of `OLEN`, `ITER` or an `OBUF` byte made while the core
is busy returns (R66: "a model draws any value of the register's width"). A free value: nothing constrains
it (assumption log 3). -/
opaque Config.busyRead : Nat → Word

end Sys2Proof
end

