-- ==== Sys2Proof/Machine/State.lean ====
section
/-! DEFINITION. The state of the ES256 core (R20 to R41), the environment it is connected to, the reasons a
step can stop, and the reset state. State is plain data. -/
namespace Sys2Proof.Machine

/-- Why a step of the machine stops. Both constructors stand for a mathematical function evaluated where the
spec gives it no value; R353 and R307 say that no command ever does so. They are SAFE: the model stops where
the hardware has nothing to do. -/
inductive Fault where
  /-- `inv_p(0)` was asked for (R145: "must not give inv_p(0) a value"; R353: never happens). Raised by
  `invP` only. Safe. -/
  | invertZero
  /-- `AffineAdd` or `r_samp` was asked for outside the domain it is defined on (R191, R230). Raised by
  `affineAdd` and `rSamp` only; every command checks the domain first. Safe. -/
  | outsideDomain
deriving DecidableEq, Repr

/-- An instruction without a meaning. No instruction of this model is without one. Safe. -/
inductive Refusal where
  /-- The instruction of that mnemonic has no meaning in the model yet; raised by `exec` alone. Safe. -/
  | notModelled (mnemonic : String)
deriving DecidableEq, Repr

/-- A completion code (R300). Its 4-bit value is `Code.bits` in `Machine/Ops.lean`; the values 7 and 10 to 15
are reserved and never written, so they have no constructor. -/
inductive Code where
  /-- `E_OK` = 0. -/
  | ok
  /-- `E_ENCODING` = 1 (R301). -/
  | encoding
  /-- `E_POINT` = 2 (R302). -/
  | point
  /-- `E_RNG` = 3 (R303). -/
  | rng
  /-- `E_ILLEGAL` = 4 (R304). -/
  | illegal
  /-- `E_RANGE` = 5 (R306). -/
  | range
  /-- `E_DOMAIN` = 6 (R307). -/
  | domain
  /-- `F_RETRY` = 8, fatal (R308). -/
  | retry
  /-- `F_MAPINV` = 9, fatal (R309). -/
  | mapInv
deriving DecidableEq, Repr

/-- The driver state register `FSM` (R25), its values the names of the spec. -/
inductive Fsm where
  /-- No command running, not fatal. -/
  | idle
  /-- A command other than `ENCODE` and `DECODE` is running. -/
  | exec
  | eValidate | eLoop | eDrawU | eCheckU | eMap | eSub | eCheckQ | eDrawJ | eSample | eEmit
  | dValidate | dMapU | dMapV | dAdd | dEmit
  /-- Sticky, left only by reset (R310). -/
  | fatal
deriving DecidableEq, Repr

/-- The answer of the RNG source to one byte request (R80). It does not say which request it answers (assumption
log 16). -/
inductive RngAnswer where
  | ok (b : Byte)
  | err
deriving DecidableEq, Repr

/-- The size of a host access (R63). The window has no legal 16-bit access; one is answered `ERROR`. -/
inductive AccessSize where
  | s8 | s16 | s32
deriving DecidableEq, Repr

/-- One access of the host to its 1024-byte window (R62, R63); a write carries its data, of which an 8-bit
write uses the low 8 bits (assumption log 14). -/
inductive HostAccess where
  | read (off : BitVec 10) (size : AccessSize)
  | write (off : BitVec 10) (size : AccessSize) (data : Word)
deriving DecidableEq, Repr

/-- The answer of the window to a host access: `OKAY` or `ERROR`, and for a read the data (R63). -/
inductive Response where
  /-- `OKAY` to a write. -/
  | ack
  /-- `OKAY` to a read, with the data; a byte stands in the low 8 bits (assumption log 14). -/
  | okay (data : Word)
  /-- `ERROR` to a read or a write. -/
  | error
deriving DecidableEq, Repr

/-- What happens next at the machine: whose turn it is among the three agents of R20, and what the host, the RNG
source or the reset input does in that turn. -/
inductive Event where
  /-- The core takes a step. -/
  | core
  /-- The host makes one access. -/
  | host (a : HostAccess)
  /-- The RNG source gives an answer. -/
  | rng (a : RngAnswer)
  /-- The hardware reset input `rst` is asserted and released (R340). -/
  | rst
deriving DecidableEq, Repr

/-- A byte buffer (`IBUF` or `OBUF`, R34, R35): its non-zero bytes, offsets strictly rising; an offset that is
not listed reads as 0, the reset value of every buffer byte (R40). -/
abbrev Memory := List Host.Cell

/-- A pair of field values: a point of the curve, or the pair `(0, 0)` for the point at infinity, or any other
pair a point register can hold (R8, R23). -/
structure Point where
  x : Fp
  y : Fp
deriving DecidableEq, Repr

/-- The state of the machine. -/
structure State where
  /-- The field registers `r0..r7` (R21); the point registers are views of them (R23). -/
  regs : Vector Fp 8
  /-- The driver state register (R25). -/
  fsm : Fsm
  /-- `CMD`: the last accepted command word (R26). -/
  cmd : Word
  /-- `STATUS.DONE` (R27). -/
  done : Bool
  /-- `STATUS.ERR` (R27, R300). -/
  err : Code
  /-- `STATUS.T` (R28). -/
  flagT : Bool
  /-- `STATUS.N` (R28). -/
  flagN : Bool
  /-- `STATUS.I` (R28). -/
  flagI : Bool
  /-- `CTRL.IE` (R29). -/
  ie : Bool
  /-- `ILEN` bits 7:0 (R30). -/
  ilen : BitVec 8
  /-- `OLEN` bits 6:0 (R31). -/
  olen : BitVec 7
  /-- `NMAX` bits 15:0 (R32). -/
  nmax : BitVec 16
  /-- `ITER` bits 15:0 (R33). -/
  iter : BitVec 16
  /-- `IBUF[0..64]` (R34). -/
  ibuf : Memory
  /-- `OBUF[0..64]` (R35). -/
  obuf : Memory
  /-- Hidden datapath registers of the driver (R36). -/
  px : Fp
  py : Fp
  u : Fp
  v : Fp
  xf : Fp
  yf : Fp
  qx : Fp
  qy : Fp
  /-- The root selector `J` (R36). -/
  j : BitVec 2
  /-- The bytes received so far by a multi-byte RNG read, first answered first; its length is the byte counter
  of R36 (R81). -/
  rngBuf : List Byte
  /-- The answer standing on the RNG port for the pending request, not yet taken by the core (R80). -/
  rngIn : Option RngAnswer
  /-- The model's own: the steps of the three agents still to come, in order (assumption log 1). -/
  events : List Event
  /-- The last answer on the host port (R63): an output of the core, kept so that it can be spoken of (assumption log 10). -/
  resp : Option Response
  /-- The model's own: how many unspecified values have been drawn (assumption log 3). -/
  freeCount : Nat
deriving DecidableEq, Repr

/-- The state after a hardware or soft reset (R40, R340): everything 0 but `NMAX`, nothing pending. -/
def State.reset : State where
  regs := Vector.replicate 8 (toFp 0)
  fsm := .idle
  cmd := 0
  done := false
  err := .ok
  flagT := false
  flagN := false
  flagI := false
  ie := false
  ilen := 0
  olen := 0
  nmax := nmaxReset
  iter := 0
  ibuf := []
  obuf := []
  px := toFp 0
  py := toFp 0
  u := toFp 0
  v := toFp 0
  xf := toFp 0
  yf := toFp 0
  qx := toFp 0
  qy := toFp 0
  j := 0
  rngBuf := []
  rngIn := none
  events := []
  resp := none
  freeCount := 0

/-- What a meaning answers. -/
abbrev Out := Host.Outcome State Fault Refusal

end Sys2Proof.Machine
end

