-- ==== Sys2Proof/Machine/Field.lean ====
section
/-! DEFINITION. The functions of the base field (R140 to R150) and the byte conversions (R170, R171). Each is
computed on exact integers and reduced modulo the prime at the end. -/
namespace Sys2Proof.Machine

/-- Go on with the value of a partial function, or stop where it has none. -/
def withValue {α β : Type} (v : Except Fault α) (k : α → Except Fault β) : Except Fault β :=
  match v with
  | .error e => .error e
  | .ok a => k a

/-- `add_p` (R140). -/
def addP (x y : Fp) : Fp := toFp (x.val + y.val)

/-- `sub_p` (R141): `x - y` if `x ≥ y`, else `x - y + P`. -/
def subP (x y : Fp) : Fp := toFp (x.val + fieldP - y.val)

/-- `mul_p` (R142): the exact product, reduced. -/
def mulP (x y : Fp) : Fp := toFp (x.val * y.val)

/-- `sqr_p` (R143). -/
def sqrP (x : Fp) : Fp := mulP x x

/-- `sqr_p^k`: `k` successive squarings (R143). -/
def sqrN : Nat → Fp → Fp
  | 0, x => x
  | k + 1, x => sqrN k (sqrP x)

/-- `neg_p` (R144). -/
def negP (x : Fp) : Fp := toFp (fieldP - x.val)

/-- Square and multiply over the low `k` bits of the exponent `e`: the product of `acc` and `b^e`. -/
def powGo : Nat → Fp → Nat → Fp → Fp
  | 0, _, _, acc => acc
  | k + 1, b, e, acc => powGo k (mulP b b) (e / 2) (if e % 2 = 1 then mulP acc b else acc)

/-- `x^e mod P` for an exponent below `2^256` (R145, R146). -/
def powP (x : Fp) (e : Nat) : Fp := powGo 256 x e (toFp 1)

/-- `inv_p` (R145): `x^(P-2) mod P`, and no value at 0. -/
def invP (x : Fp) : Except Fault Fp :=
  if x = toFp 0 then .error .invertZero else .ok (powP x (fieldP - 2))

/-- `sqrt_p` (R146): the candidate `c = x^((P+1)/4)` if its square is `x`, else `⊥`. -/
def sqrtP (x : Fp) : Option Fp :=
  let c := powP x ((fieldP + 1) / 4)
  if sqrP c = x then some c else none

/-- `eq_p` (R147): equality of the reduced integers. -/
def eqP (x y : Fp) : Bool := decide (x.val = y.val)

/-- `is_square` (R148). -/
def isSquareP (x : Fp) : Bool := (sqrtP x).isSome

/-- The addition chain by which the hardware computes `x^(P-2)` (R149). -/
def invChain (x : Fp) : Fp :=
  let t10 := sqrP x
  let t11 := mulP x t10
  let t110 := sqrP t11
  let t111 := mulP x t110
  let t111000 := sqrN 3 t111
  let t111111 := mulP t111 t111000
  let x12 := mulP (sqrN 6 t111111) t111111
  let x15 := mulP (sqrN 3 x12) t111
  let x16 := mulP (sqrN 1 x15) x
  let x32 := mulP (sqrN 16 x16) x16
  let i53 := sqrN 15 x32
  let x47 := mulP x15 i53
  let u1 := mulP (sqrN 17 i53) x
  let u2 := mulP (sqrN 143 u1) x47
  let i263 := sqrN 47 u2
  let u3 := mulP x47 i263
  mulP (sqrN 2 u3) x

/-- The addition chain by which the hardware computes the candidate `x^((P+1)/4)` (R150). -/
def sqrtChain (x : Fp) : Fp :=
  let t10 := sqrP x
  let t11 := mulP x t10
  let t1100 := sqrN 2 t11
  let t1111 := mulP t11 t1100
  let t11110000 := sqrN 4 t1111
  let t11111111 := mulP t1111 t11110000
  let x16 := mulP (sqrN 8 t11111111) t11111111
  let x32 := mulP (sqrN 16 x16) x16
  let v1 := mulP (sqrN 32 x32) x
  let v2 := mulP (sqrN 96 v1) x
  sqrN 94 v2

/-- The big-endian integer of a byte string (R170): the first byte is the most significant. -/
def bytesToNat (bs : List Byte) : Nat := bs.foldl (fun n b => n * 256 + b.toNat) 0

/-- `from_bytes` (R170): the big-endian integer, reduced. -/
def fromBytes (bs : List Byte) : Fp := toFp (bytesToNat bs)

/-- Byte `i` of `to_bytes` (R171): `floor(x / 256^(31-i)) mod 256`. -/
def byteOf (x : Fp) (i : Nat) : Byte := BitVec.ofNat 8 (x.val / 256 ^ (31 - i))

/-- `to_bytes` (R171): 32 bytes, most significant first, leading zero bytes kept. -/
def toBytes (x : Fp) : List Byte := (List.range 32).map (byteOf x)

end Sys2Proof.Machine
end

