-- ==== Sys2Proof/Machine/Curve.lean ====
section
/-! DEFINITION. The curve: its right-hand side `g` (R210), validity of a pair (R190), the affine sum (R191), and the
projective datapath by which the hardware computes it (R193 to R195). -/
namespace Sys2Proof.Machine

/-- The point at infinity `O`, represented `(0, 0)` (R8, R23). -/
def infinity : Point := ⟨toFp 0, toFp 0⟩

/-- `g(x) = x^3 - 3x + b` (R210). -/
def curveG (x : Fp) : Fp := addP (subP (mulP (sqrP x) x) (mulP (toFp 3) x)) curveB

/-- `Valid(x, y)`: infinity, or on the curve (R190). -/
def Point.valid (p : Point) : Bool := decide (p = infinity) || decide (sqrP p.y = curveG p.x)

/-- The negative of a point: `(x, neg_p(y))` (R192). -/
def Point.neg (p : Point) : Point := ⟨p.x, negP p.y⟩

/-- The third point of a chord or tangent of slope `lam` (R191, the last three lines). -/
def chordPoint (lam : Fp) (p q : Point) : Point :=
  let x3 := subP (subP (sqrP lam) p.x) q.x
  ⟨x3, subP (mulP lam (subP p.x x3)) p.y⟩

/-- `AffineAdd` (R191): the sum in the group of the curve, for valid arguments only; "for arguments that are not
valid the function is not defined" (R192). -/
def affineAdd (p q : Point) : Except Fault Point :=
  if !(p.valid && q.valid) then .error .outsideDomain
  else if p = infinity then .ok q
  else if q = infinity then .ok p
  else if p.x = q.x ∧ p.y = negP q.y then .ok infinity
  else if p.x = q.x then
    withValue (invP (mulP (toFp 2) p.y)) fun i =>
      .ok (chordPoint (mulP (addP (mulP (toFp 3) (sqrP p.x)) curveA) i) p q)
  else
    withValue (invP (subP q.x p.x)) fun i => .ok (chordPoint (mulP (subP q.y p.y) i) p q)

/-- A projective triple (R193). -/
structure Proj where
  X : Fp
  Y : Fp
  Z : Fp
deriving DecidableEq, Repr

/-- The projective lift (R193): infinity becomes `(0, 1, 0)`, the neutral element of the complete formulas
(the resolution of conflict C1). -/
def lift (p : Point) : Proj :=
  if p = infinity then ⟨toFp 0, toFp 1, toFp 0⟩ else ⟨p.x, p.y, toFp 1⟩

/-- The complete addition sequence, its 43 steps in order (R194). -/
def projAdd (p q : Proj) : Proj :=
  let t0 := mulP p.X q.X
  let t1 := mulP p.Y q.Y
  let t2 := mulP p.Z q.Z
  let t3 := addP p.X p.Y
  let t4 := addP q.X q.Y
  let t3 := mulP t3 t4
  let t4 := addP t0 t1
  let t3 := subP t3 t4
  let t4 := addP p.Y p.Z
  let X3 := addP q.Y q.Z
  let t4 := mulP t4 X3
  let X3 := addP t1 t2
  let t4 := subP t4 X3
  let X3 := addP p.X p.Z
  let Y3 := addP q.X q.Z
  let X3 := mulP X3 Y3
  let Y3 := addP t0 t2
  let Y3 := subP X3 Y3
  let Z3 := mulP curveB t2
  let X3 := subP Y3 Z3
  let Z3 := addP X3 X3
  let X3 := addP X3 Z3
  let Z3 := subP t1 X3
  let X3 := addP t1 X3
  let Y3 := mulP curveB Y3
  let t1 := addP t2 t2
  let t2 := addP t1 t2
  let Y3 := subP Y3 t2
  let Y3 := subP Y3 t0
  let t1 := addP Y3 Y3
  let Y3 := addP t1 Y3
  let t1 := addP t0 t0
  let t0 := addP t1 t0
  let t0 := subP t0 t2
  let t1 := mulP t4 Y3
  let t2 := mulP t0 Y3
  let Y3 := mulP X3 Z3
  let Y3 := addP Y3 t2
  let X3 := mulP t3 X3
  let X3 := subP X3 t1
  let Z3 := mulP t4 Z3
  let t1 := mulP t3 t0
  let Z3 := addP Z3 t1
  ⟨X3, Y3, Z3⟩

/-- Affine recovery (R195): `Z = 0` gives `(0, 0)` and no inversion is attempted (R355). -/
def recover (p : Proj) : Except Fault Point :=
  if p.Z = toFp 0 then .ok infinity
  else withValue (invP p.Z) fun zi => .ok ⟨mulP p.X zi, mulP p.Y zi⟩

/-- The point adder's datapath: lift, complete sequence, recovery (R193 to R195). It is how the hardware computes
`affineAdd` (R196); the meanings use `affineAdd`, which is the normative function. -/
def hardwareAdd (p q : Point) : Except Fault Point := recover (projAdd (lift p) (lift q))

end Sys2Proof.Machine
end

