-- ==== Sys2Proof/Machine/Map.lean ====
section
/-! DEFINITION. The Elligator forward map `f` with its helpers `X0` and `X1` (R211 to R214) and the biquadratic root
sampler `r_samp` (R230, R233). -/
namespace Sys2Proof.Machine

/-- The singular values `0`, `1`, `P-1` of the map (R213, R354). -/
def singular (u : Fp) : Bool :=
  decide (u = toFp 0) || decide (u = toFp 1) || decide (u = toFp (fieldP - 1))

/-- The denominator `t = u^4 - u^2` of `X0` (R211). -/
def mapDenominator (u : Fp) : Fp := subP (sqrP (sqrP u)) (sqrP u)

/-- `X0(u) = -(b/a) * (1 + 1/(u^4 - u^2))` (R211), undefined where the denominator is 0. -/
def x0P (u : Fp) : Except Fault Fp :=
  withValue (invP curveA) fun ia =>
    withValue (invP (mapDenominator u)) fun it =>
      .ok (mulP (negP (mulP curveB ia)) (addP (toFp 1) it))

/-- `X1(u) = -u^2 * X0(u)` (R212), undefined where `X0` is. -/
def x1P (u : Fp) : Except Fault Fp :=
  withValue (x0P u) fun x => .ok (mulP (negP (sqrP u)) x)

/-- The second branch of `f` (R213): `X1` and the negated root; `none` when there is no root (R214). -/
def secondBranch (u : Fp) : Except Fault (Option Point) :=
  withValue (x1P u) fun x => .ok ((sqrtP (curveG x)).map fun s => ⟨x, negP s⟩)

/-- The forward map `f` (R213). `.ok none` is the fatal outcome `F_MAPINV` of R214. -/
def mapF (u : Fp) : Except Fault (Option Point) :=
  if singular u then .ok (some infinity)
  else
    withValue (x0P u) fun x =>
      (sqrtP (curveG x)).elim (secondBranch u) fun s => .ok (some ⟨x, s⟩)

/-- `omega = 1 + (a*x)/b`, step 1 of the sampler (R230). -/
def omegaP (x : Fp) : Except Fault Fp :=
  withValue (invP curveB) fun ib => .ok (addP (toFp 1) (mulP (mulP curveA x) ib))

/-- The factor `k` of step 4 (R230): `(2*omega)^(-1)` when `y` is a square, `2^(-1)` otherwise. `.ok none` is the
guard of R233: the answer is `⊥` when `2*omega = 0`, and 0 is not inverted. -/
def rootFactor (omega y : Fp) : Except Fault (Option Fp) :=
  if isSquareP y then
    if mulP (toFp 2) omega = toFp 0 then .ok none
    else withValue (invP (mulP (toFp 2) omega)) fun k => .ok (some k)
  else withValue (invP (toFp 2)) fun k => .ok (some k)

/-- Steps 5 to 7 (R230): the second root of `(omega + s1) * k` and its sign, bit 0 of `j`. -/
def lastRoot (omega s1 k : Fp) (j : BitVec 2) : Option Fp :=
  (sqrtP (mulP (addP omega s1) k)).map fun c => if j = 1 ∨ j = 3 then negP c else c

/-- `r_samp(x, y, j)` (R230) for a valid point other than infinity; `.ok none` is `⊥`. Bit 1 of `j` negates the first
root, bit 0 the second. -/
def rSamp (p : Point) (j : BitVec 2) : Except Fault (Option Fp) :=
  if !p.valid || decide (p = infinity) then .error .outsideDomain
  else
    withValue (omegaP p.x) fun omega =>
      (sqrtP (subP (sqrP omega) (mulP (toFp 4) omega))).elim (.ok none) fun s =>
        withValue (rootFactor omega p.y) fun factor =>
          .ok (factor.bind fun k => lastRoot omega (if j = 2 ∨ j = 3 then negP s else s) k j)

end Sys2Proof.Machine
end

