-- ==== Sys2Proof/Machine/Ops.lean ====
section
/-! DEFINITION. The named operations over the state: registers and points, buffer bytes, derived status bits and
outputs, the completion step (success, error and fatal alike: this machine's only exception entry, R321), reset
(the only way out of the fatal state, R310, R322), and the RNG port. -/
namespace Sys2Proof.Machine

/-! ### Field registers and point registers (R21, R23) -/

/-- Field register `r[i]` (R21). -/
def State.reg (s : State) (i : Fin 8) : Fp := s.regs[i]

/-- Write field register `r[i]` (R21). -/
def State.setReg (s : State) (i : Fin 8) (x : Fp) : State := { s with regs := s.regs.set i x }

/-- The index of the x-coordinate of point register `pk`: `2k` (R23). -/
def xIndex (k : Fin 4) : Fin 8 := ⟨2 * k.val, by omega⟩

/-- The index of the y-coordinate of point register `pk`: `2k + 1` (R23). -/
def yIndex (k : Fin 4) : Fin 8 := ⟨2 * k.val + 1, by omega⟩

/-- Point register `pk`, the pair `(r[2k], r[2k+1])` (R23). -/
def State.point (s : State) (k : Fin 4) : Point := ⟨s.reg (xIndex k), s.reg (yIndex k)⟩

/-- Writing `pk` writes both field registers (R23). -/
def State.setPoint (s : State) (k : Fin 4) (p : Point) : State :=
  (s.setReg (xIndex k) p.x).setReg (yIndex k) p.y

/-! ### Buffer bytes (R34, R35, R40) -/

/-- The byte at an offset: the listed one, or 0, the reset value of a buffer byte (R40). -/
def Memory.read : Memory → Nat → Byte
  | [], _ => 0
  | (b, w) :: m, a => if a = b then w else Memory.read m a

/-- Write one byte, keeping the canonical form: writing 0 removes the entry. -/
def Memory.write : Memory → Nat → Byte → Memory
  | [], a, x => if x = 0 then [] else [(a, x)]
  | (b, w) :: m, a, x =>
    if a < b then (if x = 0 then (b, w) :: m else (a, x) :: (b, w) :: m)
    else if a = b then (if x = 0 then m else (a, x) :: m)
    else (b, w) :: Memory.write m a x

/-- The canonical form of a buffer: offsets inside the buffer and strictly rising, no listed zero byte. -/
def Memory.wf : Memory → Bool
  | [] => true
  | (a, x) :: m => decide (a < bufSize) && x != 0 && m.all (fun c => decide (a < c.1)) && Memory.wf m

/-- The `n` bytes at offsets `off .. off+n-1`, lowest offset first (R9). -/
def Memory.readBytes (m : Memory) (off n : Nat) : List Byte :=
  (List.range n).map fun i => m.read (off + i)

/-- Write a byte string at `off`, its first byte at the lowest offset (R9). -/
def Memory.writeBytes : Memory → Nat → List Byte → Memory
  | m, _, [] => m
  | m, off, b :: bs => Memory.writeBytes (m.write off b) (off + 1) bs

/-! ### Status and outputs (R25, R27, R41) -/

/-- `STATUS.BUSY`: `FSM` is none of `IDLE`, `FATAL` (R25). -/
def State.busy (s : State) : Bool :=
  match s.fsm with
  | .idle => false
  | .fatal => false
  | _ => true

/-- `STATUS.FATAL`: `FSM = FATAL` (R25). -/
def State.isFatal (s : State) : Bool := decide (s.fsm = .fatal)

/-- The output `irq = IE AND DONE` (R41, R315). -/
def State.irq (s : State) : Bool := s.ie && s.done

/-- The output `rng_req`: `FSM` is `E_DRAW_U` or `E_DRAW_J` and the byte being waited for has not been answered
(R41). -/
def State.rngReq (s : State) : Bool :=
  (decide (s.fsm = .eDrawU) || decide (s.fsm = .eDrawJ)) && s.rngIn.isNone

/-! ### Completion (R27, R300, R305, R310) -/

/-- The 4-bit value of a completion code in `STATUS.ERR` (R300). -/
def Code.bits : Code → BitVec 4
  | .ok => 0 | .encoding => 1 | .point => 2 | .rng => 3 | .illegal => 4 | .range => 5 | .domain => 6
  | .retry => 8 | .mapInv => 9

/-- The codes with bit 3 set are the fatal ones (R300). -/
def Code.fatal (c : Code) : Bool := c.bits.getLsbD 3

/-- The completion step's writes that every command has: `ERR <- code`, `DONE <- 1`, `FSM <- IDLE`, or `FATAL` for
a fatal code (R27, R305, R310). A command's own writes are made to the state it is applied to. -/
def State.complete (s : State) (c : Code) : State :=
  { s with err := c, done := true, fsm := if c.fatal then .fatal else .idle }

/-- An error or fatal completion of `ENCODE` or `DECODE`: also `OLEN <- 0` (R305, R310). -/
def State.completeDriver (s : State) (c : Code) : State := { s.complete c with olen := 0 }

/-- End a command with success; its writes are in `s` (R27). -/
def finish (s : State) : Out := .next (s.complete .ok)

/-- `raise E_x` or `fatal F_x` of a command other than `ENCODE` and `DECODE` (R305, R310). -/
def raise (c : Code) (s : State) : Out := .next (s.complete c)

/-- `raise E_x` or `fatal F_x` of `ENCODE` or `DECODE` (R305, R310). -/
def raiseDriver (c : Code) (s : State) : Out := .next (s.completeDriver c)

/-- Go on with the value of a partial function; where it has none the machine stops. No command of the machine gets
there (R353, R354; `Laws/Domain.lean`). -/
def orFault {α : Type} (v : Except Fault α) (k : α → Out) : Out :=
  match v with
  | .error e => .fault e
  | .ok a => k a

/-- Reset, hardware or soft (R40, R340): every piece of the core's state takes its reset value and a pending RNG
request is withdrawn (R84). What the environment does next, the last answer on the host port and the count
of drawn unspecified values are not the core's and stay. -/
def State.toReset (s : State) : State :=
  { State.reset with events := s.events, resp := s.resp, freeCount := s.freeCount }

/-! ### The RNG port (R80, R81) -/

/-- Raise the first request of a new read: no byte received, no answer standing (R81). -/
def State.startRead (s : State) : State := { s with rngBuf := [], rngIn := none }

/-- How far a multi-byte read `RngRead(n)` has come after the core's step (R81). -/
inductive ReadProgress where
  /-- The request is unanswered: the core waits (R311). -/
  | waiting
  /-- The answer was `Err`; the bytes already received are discarded. -/
  | failed (s : State)
  /-- A byte was received and more are needed. -/
  | more (s : State)
  /-- All `n` bytes are there. -/
  | complete (bytes : List Byte) (s : State)

/-- Take the standing answer of the RNG source into a read of `n` bytes (R81). -/
def State.rngRead (s : State) (n : Nat) : ReadProgress :=
  match s.rngIn with
  | none => .waiting
  | some .err => .failed s.startRead
  | some (.ok b) =>
    if s.rngBuf.length + 1 < n then .more { s with rngBuf := s.rngBuf ++ [b], rngIn := none }
    else .complete (s.rngBuf ++ [b]) s.startRead

end Sys2Proof.Machine
end

