-- ==== Sys2Proof/Machine/Operands.lean ====
section
/-! DEFINITION. The operand forms: register, constant and point fields (R21 to R23, R112) and one combinator per
format that has operands (R103 to R111). A field with an illegal value makes the command illegal (R112, R114):
the combinator then completes with `E_ILLEGAL`. -/
namespace Sys2Proof.Machine

/-- The constant register at an index 8 to 14 (R22). -/
def constReg : RegIdx → Option Fp
  | 8 => some (toFp 0)
  | 9 => some (toFp 1)
  | 10 => some (toFp 2)
  | 11 => some (toFp 4)
  | 12 => some (toFp (fieldP - 1))
  | 13 => some curveA
  | 14 => some curveB
  | _ => none

/-- A destination field: one of `r0..r7` (R112). -/
def dstOf (r : RegIdx) : Option (Fin 8) := if h : r.toNat < 8 then some ⟨r.toNat, h⟩ else none

/-- A point field: one of `p0..p3` (R112). -/
def pointOf (p : PointIdx) : Option (Fin 4) := if h : p.toNat < 4 then some ⟨p.toNat, h⟩ else none

/-- The value of a source field: a field register, a constant, or nothing for the reserved index 15 (R21, R22,
R112). -/
def State.source (s : State) (r : RegIdx) : Option Fp :=
  match dstOf r with
  | some i => some (s.reg i)
  | none => constReg r

/-- Format R3 (R103): destination, two sources. -/
def withR3 (rd ra rb : RegIdx) (s : State) (k : Fin 8 → Fp → Fp → Out) : Out :=
  match dstOf rd, s.source ra, s.source rb with
  | some d, some a, some b => k d a b
  | _, _, _ => raise .illegal s

/-- Format R2 (R104): destination, one source. -/
def withR2 (rd ra : RegIdx) (s : State) (k : Fin 8 → Fp → Out) : Out :=
  match dstOf rd, s.source ra with
  | some d, some a => k d a
  | _, _ => raise .illegal s

/-- Format C (R105): two sources, no destination. -/
def withC (ra rb : RegIdx) (s : State) (k : Fp → Fp → Out) : Out :=
  match s.source ra, s.source rb with
  | some a, some b => k a b
  | _, _ => raise .illegal s

/-- Formats I and BL (R106, R107): a destination; the immediates need no check. -/
def withDst (rd : RegIdx) (s : State) (k : Fin 8 → Out) : Out :=
  match dstOf rd with
  | some d => k d
  | none => raise .illegal s

/-- Format BS (R108): one source; the offset needs no check here. -/
def withSrc (ra : RegIdx) (s : State) (k : Fp → Out) : Out :=
  match s.source ra with
  | some a => k a
  | none => raise .illegal s

/-- Format P3 (R109): point destination, two point sources. -/
def withP3 (pd pa pb : PointIdx) (s : State) (k : Fin 4 → Point → Point → Out) : Out :=
  match pointOf pd, pointOf pa, pointOf pb with
  | some d, some a, some b => k d (s.point a) (s.point b)
  | _, _, _ => raise .illegal s

/-- Format M (R110): point destination, one field source. -/
def withM (pd : PointIdx) (ra : RegIdx) (s : State) (k : Fin 4 → Fp → Out) : Out :=
  match pointOf pd, s.source ra with
  | some d, some a => k d a
  | _, _ => raise .illegal s

/-- Format S (R111): field destination, one point source; the selector needs no check. -/
def withS (rd : RegIdx) (pa : PointIdx) (s : State) (k : Fin 8 → Point → Out) : Out :=
  match dstOf rd, pointOf pa with
  | some d, some a => k d (s.point a)
  | _, _ => raise .illegal s

end Sys2Proof.Machine
end

