-- ==== Sys2Proof/Machine/Flags.lean ====
section
/-! DEFINITION. The three flags of `STATUS` and their writers (R28). No command reads a flag. -/
namespace Sys2Proof.Machine

/-- `T <- 1` if the operands are equal as field values, else 0 (R28, R159). -/
def State.setT (s : State) (equal : Bool) : State := { s with flagT := equal }

/-- `N <- 1` if the result is `⊥`, else 0 (R28, R158, R232). -/
def State.setN (s : State) (bottom : Bool) : State := { s with flagN := bottom }

/-- `I <- 1` if the result point is `(0, 0)`, else 0 (R28, R197, R219, R270). -/
def State.setI (s : State) (p : Point) : State := { s with flagI := decide (p = infinity) }

/-- The nullable result of `FSQRT` and `RSAMP`: a value is written and `N` cleared; `⊥` sets `N` and leaves the
destination (R158, R232). -/
def State.setNullable (s : State) (d : Fin 8) : Option Fp → State
  | some x => (s.setReg d x).setN false
  | none => s.setN true

/-- A point result: the point register and the flag `I` (R197, R219). -/
def State.setPointResult (s : State) (k : Fin 4) (p : Point) : State := (s.setPoint k p).setI p

end Sys2Proof.Machine
end

