-- ==== Sys2Proof/Machine/CurveCmds.lean ====
section
/-! DEFINITION. The curve, map and sampler commands `PADD`, `GX`, `X0`, `X1`, `FMAP`, `RSAMP` (R197, R216 to R219,
R232). `orFault` stands where a partial function is used; the checks before it keep the argument inside the domain
(R353, R354; proved in `Laws/Domain.lean`). -/
namespace Sys2Proof.Machine

/-- `PADD` (R197). -/
def execPadd (pd pa pb : PointIdx) (s : State) : Out :=
  withP3 pd pa pb s fun d p q =>
    if !(p.valid && q.valid) then raise .domain s
    else orFault (affineAdd p q) fun r => finish (s.setPointResult d r)

/-- `GX` (R216). -/
def execGx (rd ra : RegIdx) (s : State) : Out :=
  withR2 rd ra s fun d a => finish (s.setReg d (curveG a))

/-- `X0` (R217). -/
def execX0 (rd ra : RegIdx) (s : State) : Out :=
  withR2 rd ra s fun d a =>
    if singular a then raise .domain s
    else orFault (x0P a) fun x => finish (s.setReg d x)

/-- `X1` (R218). -/
def execX1 (rd ra : RegIdx) (s : State) : Out :=
  withR2 rd ra s fun d a =>
    if singular a then raise .domain s
    else orFault (x1P a) fun x => finish (s.setReg d x)

/-- `FMAP` (R219): a singular source is no error; the failed invariant of `f` is fatal (R214). -/
def execFmap (pd : PointIdx) (ra : RegIdx) (s : State) : Out :=
  withM pd ra s fun d a =>
    orFault (mapF a) fun o => o.elim (raise .mapInv s) fun p => finish (s.setPointResult d p)

/-- `RSAMP` (R232): a `⊥` result is no error. -/
def execRsamp (rd : RegIdx) (pa : PointIdx) (j : BitVec 2) (s : State) : Out :=
  withS rd pa s fun d p =>
    if !p.valid || decide (p = infinity) then raise .domain s
    else orFault (rSamp p j) fun v => finish (s.setNullable d v)

end Sys2Proof.Machine
end

