-- ==== Sys2Proof/Machine/DataCmds.lean ====
section
/-! DEFINITION. `NOP`, field data movement and byte conversion (R172 to R176). -/
namespace Sys2Proof.Machine

/-- `NOP` (R172): accepted and completed like any command, nothing else. -/
def execNop (s : State) : Out := finish s

/-- `FMOV` (R173). -/
def execFmov (rd ra : RegIdx) (s : State) : Out :=
  withR2 rd ra s fun d a => finish (s.setReg d a)

/-- `FLDI` (R174): the immediate, zero-extended. -/
def execFldi (rd : RegIdx) (imm : BitVec 16) (s : State) : Out :=
  withDst rd s fun d => finish (s.setReg d (toFp imm.toNat))

/-- `FLDB` (R175): `ILEN` is not consulted. -/
def execFldb (rd : RegIdx) (off : BitVec 7) (len : BitVec 6) (s : State) : Out :=
  withDst rd s fun d =>
    if 32 < len.toNat ∨ bufSize < off.toNat + len.toNat then raise .range s
    else finish (s.setReg d (fromBytes (s.ibuf.readBytes off.toNat len.toNat)))

/-- `FSTB` (R176): always 32 bytes; `OLEN` is not written. -/
def execFstb (ra : RegIdx) (off : BitVec 7) (s : State) : Out :=
  withSrc ra s fun a =>
    if 33 < off.toNat then raise .range s
    else finish { s with obuf := s.obuf.writeBytes off.toNat (toBytes a) }

end Sys2Proof.Machine
end

