-- ==== Sys2Proof/Machine/Driver.lean ====
section
/-! DEFINITION. The Elligator-Squared driver: `ENCODE` and `DECODE` as walks through the states of `FSM`, one
definition per state (R250 to R270). One step of the core is one step of the walk; the command completes
in the state that says so. -/
namespace Sys2Proof.Machine

/-- The target point `(PX, PY)` (R36). -/
def State.p (s : State) : Point := ⟨s.px, s.py⟩
/-- The value of `f` held in `(XF, YF)` (R36). -/
def State.f (s : State) : Point := ⟨s.xf, s.yf⟩
/-- The point `(QX, QY)` (R36). -/
def State.q (s : State) : Point := ⟨s.qx, s.qy⟩

/-- The point an SEC1 string in `IBUF` denotes: coordinates at offsets 1 and 33, reduced (R252, R269). -/
def State.inputPoint (s : State) : Point :=
  ⟨fromBytes (s.ibuf.readBytes 1 32), fromBytes (s.ibuf.readBytes 33 32)⟩

/-! ### ENCODE -/

/-- `E_VALIDATE` (R252): length, prefix byte, curve equation, in that order; all before any RNG request. -/
def encValidate (s : State) : Out :=
  if s.ilen ≠ 65 then raiseDriver .point s
  else if s.ibuf.read 0 ≠ 0x04 then raiseDriver .point s
  else
    let s' := { s with px := s.inputPoint.x, py := s.inputPoint.y }
    if !s.inputPoint.valid then raiseDriver .point s'
    else .next { s' with iter := 0, fsm := .eLoop }

/-- `E_LOOP` (R253): the head of the loop. -/
def encLoop (s : State) : Out :=
  if s.iter = s.nmax then raiseDriver .retry s
  else .next { s.startRead with iter := s.iter + 1, fsm := .eDrawU }

/-- `E_DRAW_U` (R254): `U` is the reduced value of the 32 bytes. While a request is unanswered the state does not
change (R311). -/
def encDrawU (s : State) : Out :=
  match s.rngRead 32 with
  | .waiting => .next s
  | .failed s' => raiseDriver .rng s'
  | .more s' => .next s'
  | .complete bs s' => .next { s' with u := fromBytes bs, fsm := .eCheckU }

/-- `E_CHECK_U` (R255). -/
def encCheckU (s : State) : Out :=
  .next { s with fsm := if singular s.u then .eLoop else .eMap }

/-- `E_MAP` (R256). -/
def encMap (s : State) : Out :=
  orFault (mapF s.u) fun o =>
    o.elim (raiseDriver .mapInv s) fun p => .next { s with xf := p.x, yf := p.y, fsm := .eSub }

/-- `E_SUB` (R257): `Q = P - f(U)`. -/
def encSub (s : State) : Out :=
  orFault (affineAdd s.p s.f.neg) fun q => .next { s with qx := q.x, qy := q.y, fsm := .eCheckQ }

/-- `E_CHECK_Q` (R258). -/
def encCheckQ (s : State) : Out :=
  if s.q = infinity then .next { s with fsm := .eLoop }
  else .next { s.startRead with fsm := .eDrawJ }

/-- `E_DRAW_J` (R259): `J` is the two least significant bits of the one byte read. (A complete read of one byte
has a first byte; the default of `headD` is never used.) -/
def encDrawJ (s : State) : Out :=
  match s.rngRead 1 with
  | .waiting => .next s
  | .failed s' => raiseDriver .rng s'
  | .more s' => .next s'
  | .complete bs s' => .next { s' with j := (bs.headD 0).setWidth 2, fsm := .eSample }

/-- `E_SAMPLE` (R260): a `⊥` sets no flag and is no error. -/
def encSample (s : State) : Out :=
  orFault (rSamp s.q s.j) fun o =>
    o.elim (.next { s with fsm := .eLoop }) fun x => .next { s with v := x, fsm := .eEmit }

/-- `E_EMIT` (R261): `OBUF[64]` is not written. -/
def encEmit (s : State) : Out :=
  finish { s with
    obuf := (s.obuf.writeBytes 0 (toBytes s.u)).writeBytes 32 (toBytes s.v)
    olen := 64 }

/-- `ENCODE` (R262): the step of the walk that `FSM` is at. Acceptance sets `FSM` to `E_VALIDATE` (R26); from a state
that is none of the walk's the walk begins there (assumption log 6). -/
def execEncode (s : State) : Out :=
  match s.fsm with
  | .eLoop => encLoop s
  | .eDrawU => encDrawU s
  | .eCheckU => encCheckU s
  | .eMap => encMap s
  | .eSub => encSub s
  | .eCheckQ => encCheckQ s
  | .eDrawJ => encDrawJ s
  | .eSample => encSample s
  | .eEmit => encEmit s
  | .eValidate | .idle | .exec | .dValidate | .dMapU | .dMapV | .dAdd | .dEmit | .fatal => encValidate s

/-! ### DECODE -/

/-- `D_VALIDATE` (R264): length is the only check. -/
def decValidate (s : State) : Out :=
  if s.ilen ≠ 64 then raiseDriver .encoding s
  else .next { s with
    u := fromBytes (s.ibuf.readBytes 0 32)
    v := fromBytes (s.ibuf.readBytes 32 32)
    fsm := .dMapU }

/-- `D_MAP_U` (R265). -/
def decMapU (s : State) : Out :=
  orFault (mapF s.u) fun o =>
    o.elim (raiseDriver .mapInv s) fun p => .next { s with xf := p.x, yf := p.y, fsm := .dMapV }

/-- `D_MAP_V` (R266). -/
def decMapV (s : State) : Out :=
  orFault (mapF s.v) fun o =>
    o.elim (raiseDriver .mapInv s) fun p => .next { s with qx := p.x, qy := p.y, fsm := .dAdd }

/-- `D_ADD` (R267). -/
def decAdd (s : State) : Out :=
  orFault (affineAdd s.f s.q) fun p => .next { s with px := p.x, py := p.y, fsm := .dEmit }

/-- The SEC1 uncompressed form of a point: `0x04 ∥ X ∥ Y` (R269). -/
def sec1 (p : Point) : List Byte := 0x04 :: (toBytes p.x ++ toBytes p.y)

/-- `D_EMIT` (R268). -/
def decEmit (s : State) : Out :=
  finish ({ s with obuf := s.obuf.writeBytes 0 (sec1 s.p), olen := 65 }.setI s.p)

/-- `DECODE` (R270): the step of the walk that `FSM` is at; as for `ENCODE`, from a state that is none of the walk's
the walk begins (assumption log 6). -/
def execDecode (s : State) : Out :=
  match s.fsm with
  | .dMapU => decMapU s
  | .dMapV => decMapV s
  | .dAdd => decAdd s
  | .dEmit => decEmit s
  | .dValidate | .idle | .exec | .eValidate | .eLoop | .eDrawU | .eCheckU | .eMap | .eSub | .eCheckQ
  | .eDrawJ | .eSample | .eEmit | .fatal => decValidate s

end Sys2Proof.Machine
end

