-- ==== Sys2Proof/Machine/FieldCmds.lean ====
section
/-! DEFINITION. The field arithmetic commands (R151 to R159). Sources are read before the destination is written
(R350). -/
namespace Sys2Proof.Machine

/-- `FADD` (R152). -/
def execFadd (rd ra rb : RegIdx) (s : State) : Out :=
  withR3 rd ra rb s fun d a b => finish (s.setReg d (addP a b))

/-- `FSUB` (R153): first source minus second. -/
def execFsub (rd ra rb : RegIdx) (s : State) : Out :=
  withR3 rd ra rb s fun d a b => finish (s.setReg d (subP a b))

/-- `FMUL` (R154). -/
def execFmul (rd ra rb : RegIdx) (s : State) : Out :=
  withR3 rd ra rb s fun d a b => finish (s.setReg d (mulP a b))

/-- `FSQR` (R155). -/
def execFsqr (rd ra : RegIdx) (s : State) : Out :=
  withR2 rd ra s fun d a => finish (s.setReg d (sqrP a))

/-- `FNEG` (R156). -/
def execFneg (rd ra : RegIdx) (s : State) : Out :=
  withR2 rd ra s fun d a => finish (s.setReg d (negP a))

/-- `FINV` (R157): `E_DOMAIN` at 0, where `inv_p` has no value. -/
def execFinv (rd ra : RegIdx) (s : State) : Out :=
  withR2 rd ra s fun d a =>
    if a = toFp 0 then raise .domain s
    else orFault (invP a) fun y => finish (s.setReg d y)

/-- `FSQRT` (R158). -/
def execFsqrt (rd ra : RegIdx) (s : State) : Out :=
  withR2 rd ra s fun d a => finish (s.setNullable d (sqrtP a))

/-- `FEQ` (R159). -/
def execFeq (ra rb : RegIdx) (s : State) : Out :=
  withC ra rb s fun a b => finish (s.setT (eqP a b))

end Sys2Proof.Machine
end

