-- ==== Sys2Proof/Syntax.lean ====
section
/-! DEFINITION. The 21 commands of the ES256 command set, one constructor per row of the opcode map (R113),
with the operands of each row's format (R102 to R111). A register or point field is the 4-bit field of the
word; which of its values are legal is `Sys2Proof/WellFormed.lean` (R112). -/
namespace Sys2Proof

/-- A command of the ES256 command set, version 1 (R113). -/
inductive Instr where
  /-- Format Z. -/
  | nop
  /-- Format R3: `rd <- ra + rb`. -/
  | fadd (rd ra rb : RegIdx)
  /-- Format R3: `rd <- ra - rb`. -/
  | fsub (rd ra rb : RegIdx)
  /-- Format R3: `rd <- ra * rb`. -/
  | fmul (rd ra rb : RegIdx)
  /-- Format R2: `rd <- ra^2`. -/
  | fsqr (rd ra : RegIdx)
  /-- Format R2: `rd <- -ra`. -/
  | fneg (rd ra : RegIdx)
  /-- Format R2: `rd <- 1/ra`. -/
  | finv (rd ra : RegIdx)
  /-- Format R2: `rd <- sqrt ra`, or flag `N`. -/
  | fsqrt (rd ra : RegIdx)
  /-- Format C: flag `T` tells whether `ra = rb`. -/
  | feq (ra rb : RegIdx)
  /-- Format R2: `rd <- ra`. -/
  | fmov (rd ra : RegIdx)
  /-- Format I: `rd <- imm16`. -/
  | fldi (rd : RegIdx) (imm : BitVec 16)
  /-- Format BL: `rd <- from_bytes IBUF[off .. off+len-1]`. -/
  | fldb (rd : RegIdx) (off : BitVec 7) (len : BitVec 6)
  /-- Format BS: `OBUF[off .. off+31] <- to_bytes ra`. -/
  | fstb (ra : RegIdx) (off : BitVec 7)
  /-- Format P3: `pd <- pa + pb` on the curve. -/
  | padd (pd pa pb : PointIdx)
  /-- Format R2: `rd <- g(ra)`. -/
  | gx (rd ra : RegIdx)
  /-- Format R2: `rd <- X0(ra)`. -/
  | x0 (rd ra : RegIdx)
  /-- Format R2: `rd <- X1(ra)`. -/
  | x1 (rd ra : RegIdx)
  /-- Format M: `pd <- f(ra)`. -/
  | fmap (pd : PointIdx) (ra : RegIdx)
  /-- Format S: `rd <- r(pa, j)`, or flag `N`. -/
  | rsamp (rd : RegIdx) (pa : PointIdx) (j : BitVec 2)
  /-- Format Z: the Elligator-Squared encoder. -/
  | encode
  /-- Format Z: the Elligator-Squared decoder. -/
  | decode
deriving DecidableEq, Repr

end Sys2Proof
end

