-- ==== Sys2Proof/Machine/Dispatch.lean ====
section
/-! DEFINITION. One arm per command. -/
namespace Sys2Proof.Machine
open Sys2Proof

/-- What a command does in a state in which it is running (R151, R250). -/
def exec (i : Instr) (s : State) : Host.Outcome State Fault Refusal :=
  match i with
  | .nop => Sys2Proof.Machine.execNop s
  | .fadd rd ra rb => Sys2Proof.Machine.execFadd rd ra rb s
  | .fsub rd ra rb => Sys2Proof.Machine.execFsub rd ra rb s
  | .fmul rd ra rb => Sys2Proof.Machine.execFmul rd ra rb s
  | .fsqr rd ra => Sys2Proof.Machine.execFsqr rd ra s
  | .fneg rd ra => Sys2Proof.Machine.execFneg rd ra s
  | .finv rd ra => Sys2Proof.Machine.execFinv rd ra s
  | .fsqrt rd ra => Sys2Proof.Machine.execFsqrt rd ra s
  | .feq ra rb => Sys2Proof.Machine.execFeq ra rb s
  | .fmov rd ra => Sys2Proof.Machine.execFmov rd ra s
  | .fldi rd imm => Sys2Proof.Machine.execFldi rd imm s
  | .fldb rd off len => Sys2Proof.Machine.execFldb rd off len s
  | .fstb ra off => Sys2Proof.Machine.execFstb ra off s
  | .padd pd pa pb => Sys2Proof.Machine.execPadd pd pa pb s
  | .gx rd ra => Sys2Proof.Machine.execGx rd ra s
  | .x0 rd ra => Sys2Proof.Machine.execX0 rd ra s
  | .x1 rd ra => Sys2Proof.Machine.execX1 rd ra s
  | .fmap pd ra => Sys2Proof.Machine.execFmap pd ra s
  | .rsamp rd pa j => Sys2Proof.Machine.execRsamp rd pa j s
  | .encode => Sys2Proof.Machine.execEncode s
  | .decode => Sys2Proof.Machine.execDecode s

end Sys2Proof.Machine
end

