-- ==== Sys2Proof/WellFormed.lean ====
section
/-! DEFINITION. The legal values of the register and point fields (R112): a destination is `r0..r7`, a source
any index but the reserved 15, a point `p0..p3`. Immediates are legal at every value of their field (R119). -/
namespace Sys2Proof

/-- A destination field register field must be 0..7 (R112). -/
def isDst (r : RegIdx) : Bool := decide (r.toNat < 8)

/-- A source field register field must be 0..14 (R112). -/
def isSrc (r : RegIdx) : Bool := decide (r.toNat < 15)

/-- A point field, source or destination, must be 0..3 (R112). -/
def isPoint (p : PointIdx) : Bool := decide (p.toNat < 4)

/-- Every register and point field of the command has a legal value (R112). -/
def Instr.wellFormed : Instr → Bool
  | .nop => true
  | .fadd rd ra rb => isDst rd && isSrc ra && isSrc rb
  | .fsub rd ra rb => isDst rd && isSrc ra && isSrc rb
  | .fmul rd ra rb => isDst rd && isSrc ra && isSrc rb
  | .fsqr rd ra => isDst rd && isSrc ra
  | .fneg rd ra => isDst rd && isSrc ra
  | .finv rd ra => isDst rd && isSrc ra
  | .fsqrt rd ra => isDst rd && isSrc ra
  | .feq ra rb => isSrc ra && isSrc rb
  | .fmov rd ra => isDst rd && isSrc ra
  | .fldi rd _ => isDst rd
  | .fldb rd _ _ => isDst rd
  | .fstb ra _ => isSrc ra
  | .padd pd pa pb => isPoint pd && isPoint pa && isPoint pb
  | .gx rd ra => isDst rd && isSrc ra
  | .x0 rd ra => isDst rd && isSrc ra
  | .x1 rd ra => isDst rd && isSrc ra
  | .fmap pd ra => isPoint pd && isSrc ra
  | .rsamp rd pa _ => isDst rd && isPoint pa
  | .encode => true
  | .decode => true

end Sys2Proof
end

