-- ==== Sys2Proof/Decode.lean ====
section
/-! DEFINITION. The decoder (R113, R114), total on every 32-bit word and rejecting by name, and after it the
encoder (R120), both written from the format pictures R102 to R111 and the opcode map R113. -/
namespace Sys2Proof

/-- Why a word is illegal (R114). All three complete with the same code `E_ILLEGAL`. -/
inductive Illegal where
  /-- The opcode byte is reserved (R115). -/
  | reservedOpcode
  /-- The opcode is defined but the word matches no row: a must-be-zero bit is set (R116), a destination
  field register field is above 7, or a point field is above 3. -/
  | reservedBits
  /-- The word matches a row but a source field register field is 15 (R114 step 2). -/
  | reservedSource
deriving DecidableEq, Repr

/-- The rows of the opcode map (R113). -/
inductive Opcode where
  | nop | fadd | fsub | fmul | fsqr | fneg | finv | fsqrt | feq | fmov | fldi | fldb | fstb
  | padd | gx | x0 | x1 | fmap | rsamp | encode | decode
deriving DecidableEq, Repr

/-- The opcode byte `w[31:24]` of a row (R113, column `op`). -/
def Opcode.byte : Opcode → Byte
  | .nop => 0x00 | .fadd => 0x01 | .fsub => 0x02 | .fmul => 0x03 | .fsqr => 0x04 | .fneg => 0x05
  | .finv => 0x06 | .fsqrt => 0x07 | .feq => 0x08 | .fmov => 0x09 | .fldi => 0x0A
  | .fldb => 0x10 | .fstb => 0x11 | .padd => 0x20 | .gx => 0x30 | .x0 => 0x31 | .x1 => 0x32
  | .fmap => 0x33 | .rsamp => 0x40 | .encode => 0x50 | .decode => 0x51

/-- The column `match` of a row (R113). -/
def Opcode.matchBits : Opcode → Word
  | .nop => 0x00000000 | .fadd => 0x01000000 | .fsub => 0x02000000 | .fmul => 0x03000000
  | .fsqr => 0x04000000 | .fneg => 0x05000000 | .finv => 0x06000000 | .fsqrt => 0x07000000
  | .feq => 0x08000000 | .fmov => 0x09000000 | .fldi => 0x0A000000 | .fldb => 0x10000000
  | .fstb => 0x11000000 | .padd => 0x20000000 | .gx => 0x30000000 | .x0 => 0x31000000
  | .x1 => 0x32000000 | .fmap => 0x33000000 | .rsamp => 0x40000000 | .encode => 0x50000000
  | .decode => 0x51000000

/-- The column `mask` of a row (R113). -/
def Opcode.mask : Opcode → Word
  | .nop => 0xFFFFFFFF | .fadd => 0xFF800FFF | .fsub => 0xFF800FFF | .fmul => 0xFF800FFF
  | .fsqr => 0xFF80FFFF | .fneg => 0xFF80FFFF | .finv => 0xFF80FFFF | .fsqrt => 0xFF80FFFF
  | .feq => 0xFFF00FFF | .fmov => 0xFF80FFFF | .fldi => 0xFF8F0000 | .fldb => 0xFF880FC0
  | .fstb => 0xFF080FFF | .padd => 0xFFCCCFFF | .gx => 0xFF80FFFF | .x0 => 0xFF80FFFF
  | .x1 => 0xFF80FFFF | .fmap => 0xFFC0FFFF | .rsamp => 0xFF8CFFFC | .encode => 0xFFFFFFFF
  | .decode => 0xFFFFFFFF

/-- The rows in the order of R113. -/
def Opcode.all : List Opcode :=
  [.nop, .fadd, .fsub, .fmul, .fsqr, .fneg, .finv, .fsqrt, .feq, .fmov, .fldi, .fldb, .fstb,
   .padd, .gx, .x0, .x1, .fmap, .rsamp, .encode, .decode]

/-- A word selects a row when `(w AND mask) = match` (R113). -/
def Opcode.selects (o : Opcode) (w : Word) : Bool := w &&& o.mask == o.matchBits

/-- The first operand field `w[23:20]` (R101). -/
def field1 (w : Word) : BitVec 4 := w.extractLsb' 20 4
/-- The second operand field `w[19:16]` (R101). -/
def field2 (w : Word) : BitVec 4 := w.extractLsb' 16 4
/-- The third operand field `w[15:12]` (R101). -/
def field3 (w : Word) : BitVec 4 := w.extractLsb' 12 4
/-- `imm16 = w[15:0]` of `FLDI` (R119). -/
def fieldImm (w : Word) : BitVec 16 := w.extractLsb' 0 16
/-- `off = w[18:12]` of `FLDB` and `FSTB` (R119). -/
def fieldOff (w : Word) : BitVec 7 := w.extractLsb' 12 7
/-- `len = w[5:0]` of `FLDB` (R119). -/
def fieldLen (w : Word) : BitVec 6 := w.extractLsb' 0 6
/-- `j = w[1:0]` of `RSAMP` (R119). -/
def fieldJ (w : Word) : BitVec 2 := w.extractLsb' 0 2

/-- The command of a selected row, its fields extracted as its format says (R114 step 3). -/
def Opcode.extract (o : Opcode) (w : Word) : Instr :=
  match o with
  | .nop => .nop
  | .fadd => .fadd (field1 w) (field2 w) (field3 w)
  | .fsub => .fsub (field1 w) (field2 w) (field3 w)
  | .fmul => .fmul (field1 w) (field2 w) (field3 w)
  | .fsqr => .fsqr (field1 w) (field2 w)
  | .fneg => .fneg (field1 w) (field2 w)
  | .finv => .finv (field1 w) (field2 w)
  | .fsqrt => .fsqrt (field1 w) (field2 w)
  | .feq => .feq (field2 w) (field3 w)
  | .fmov => .fmov (field1 w) (field2 w)
  | .fldi => .fldi (field1 w) (fieldImm w)
  | .fldb => .fldb (field1 w) (fieldOff w) (fieldLen w)
  | .fstb => .fstb (field1 w) (fieldOff w)
  | .padd => .padd (field1 w) (field2 w) (field3 w)
  | .gx => .gx (field1 w) (field2 w)
  | .x0 => .x0 (field1 w) (field2 w)
  | .x1 => .x1 (field1 w) (field2 w)
  | .fmap => .fmap (field1 w) (field2 w)
  | .rsamp => .rsamp (field1 w) (field2 w) (fieldJ w)
  | .encode => .encode
  | .decode => .decode

/-- The 4-bit source field register fields of a command: `ra`, `rb` of the formats R3, R2, C and M, and `ra` of
BS (R114 step 2). -/
def Instr.sourceFields : Instr → List RegIdx
  | .nop => []
  | .fadd _ ra rb => [ra, rb]
  | .fsub _ ra rb => [ra, rb]
  | .fmul _ ra rb => [ra, rb]
  | .fsqr _ ra => [ra]
  | .fneg _ ra => [ra]
  | .finv _ ra => [ra]
  | .fsqrt _ ra => [ra]
  | .feq ra rb => [ra, rb]
  | .fmov _ ra => [ra]
  | .fldi _ _ => []
  | .fldb _ _ _ => []
  | .fstb ra _ => [ra]
  | .padd _ _ _ => []
  | .gx _ ra => [ra]
  | .x0 _ ra => [ra]
  | .x1 _ ra => [ra]
  | .fmap _ ra => [ra]
  | .rsamp _ _ _ => []
  | .encode => []
  | .decode => []

/-- The decoding procedure of R114: find the row, refuse the reserved source index 15, extract the fields.
Every one of the `2^32` words selects exactly one command or is illegal (R117). -/
def decode (w : Word) : Except Illegal Instr :=
  match Opcode.all.find? (fun o => o.selects w) with
  | none =>
    if Opcode.all.any (fun o => o.byte == w.extractLsb' 24 8) then .error .reservedBits
    else .error .reservedOpcode
  | some o =>
    if (o.extract w).sourceFields.contains 15 then .error .reservedSource
    else .ok (o.extract w)

/-- The opcode of a command (R113). -/
def Instr.opcode : Instr → Opcode
  | .nop => .nop
  | .fadd _ _ _ => .fadd
  | .fsub _ _ _ => .fsub
  | .fmul _ _ _ => .fmul
  | .fsqr _ _ => .fsqr
  | .fneg _ _ => .fneg
  | .finv _ _ => .finv
  | .fsqrt _ _ => .fsqrt
  | .feq _ _ => .feq
  | .fmov _ _ => .fmov
  | .fldi _ _ => .fldi
  | .fldb _ _ _ => .fldb
  | .fstb _ _ => .fstb
  | .padd _ _ _ => .padd
  | .gx _ _ => .gx
  | .x0 _ _ => .x0
  | .x1 _ _ => .x1
  | .fmap _ _ => .fmap
  | .rsamp _ _ _ => .rsamp
  | .encode => .encode
  | .decode => .decode

/-- `w = (op << 24) | (f1 << 20) | (f2 << 16) | (f3 << 12) | low` (R120). -/
def assemble (op : Byte) (f1 f2 f3 : BitVec 4) (low : Word) : Word :=
  op.setWidth 32 <<< 24 ||| f1.setWidth 32 <<< 20 ||| f2.setWidth 32 <<< 16 ||| f3.setWidth 32 <<< 12 ||| low

/-- The 32-bit word of a command (R120): its fields at the places its format's picture shows (R102 to R111), 0 where the
format has none. -/
def encode (i : Instr) : Word :=
  let op := i.opcode.byte
  match i with
  | .nop => assemble op 0 0 0 0
  | .fadd rd ra rb => assemble op rd ra rb 0
  | .fsub rd ra rb => assemble op rd ra rb 0
  | .fmul rd ra rb => assemble op rd ra rb 0
  | .fsqr rd ra => assemble op rd ra 0 0
  | .fneg rd ra => assemble op rd ra 0 0
  | .finv rd ra => assemble op rd ra 0 0
  | .fsqrt rd ra => assemble op rd ra 0 0
  | .feq ra rb => assemble op 0 ra rb 0
  | .fmov rd ra => assemble op rd ra 0 0
  | .fldi rd imm => assemble op rd 0 0 (imm.setWidth 32)
  | .fldb rd off len => assemble op rd 0 0 (off.setWidth 32 <<< 12 ||| len.setWidth 32)
  | .fstb ra off => assemble op ra 0 0 (off.setWidth 32 <<< 12)
  | .padd pd pa pb => assemble op pd pa pb 0
  | .gx rd ra => assemble op rd ra 0 0
  | .x0 rd ra => assemble op rd ra 0 0
  | .x1 rd ra => assemble op rd ra 0 0
  | .fmap pd ra => assemble op pd ra 0 0
  | .rsamp rd pa j => assemble op rd pa 0 (j.setWidth 32)
  | .encode => assemble op 0 0 0 0
  | .decode => assemble op 0 0 0 0

/-- The command the decoder reads from a command whose bits are `w`, bit 0 the least significant bit of the one
32-bit word (R71, R100). Bits above `nbits` are 0; a row wider than 32 bits does not exist. -/
def decodeTableWord (nbits w : Nat) : Option Instr :=
  if nbits ≤ 32 then
    match decode (BitVec.ofNat 32 (w % 2 ^ nbits)) with
    | .ok i => some i
    | .error _ => none
  else none

end Sys2Proof
end

