-- ==== Sys2Proof/Machine/Window.lean ====
section
/-! DEFINITION. The host window: acceptance of a command word, the register values, and one host access (R26 to R33,
R62 to R69). -/
namespace Sys2Proof.Machine

/-! ### Acceptance (R26) -/

/-- The `FSM` state a command word starts in: `E_VALIDATE` for `ENCODE`, `D_VALIDATE` for `DECODE`, `EXEC` for
every other word, legal or not (R26, R114). -/
def entryState (w : Word) : Fsm :=
  match decode w with
  | .ok .encode => .eValidate
  | .ok .decode => .dValidate
  | _ => .exec

/-- The acceptance step of a command word (R26). -/
def State.accept (s : State) (w : Word) : State :=
  { s with cmd := w, done := false, err := .ok, fsm := entryState w }

/-! ### Register values (R26 to R33) -/

/-- `STATUS` as it reads (R27): `BUSY` 0, `DONE` 1, `FATAL` 2, bit 3 zero, `ERR` 7:4, `T` 8, `N` 9, `I` 10, zeros. -/
def State.statusWord (s : State) : Word :=
  (0 : BitVec 21) ++ BitVec.ofBool s.flagI ++ BitVec.ofBool s.flagN ++ BitVec.ofBool s.flagT ++ s.err.bits ++
    (0 : BitVec 1) ++ BitVec.ofBool s.isFatal ++ BitVec.ofBool s.done ++ BitVec.ofBool s.busy

/-- `CTRL` as it reads: bit 0 `IE`, all else 0 (R29). -/
def State.ctrlWord (s : State) : Word := (BitVec.ofBool s.ie).setWidth 32

/-! ### The map of the window (R62) -/

/-- What stands at an offset of the window (R62). An offset inside a register but not its own is no target of any
access (R63), so it is `reserved` here. -/
inductive Target where
  | cmd | status | ctrl | ilen | olen | nmax | iter
  | ibuf (i : Nat)
  | obuf (i : Nat)
  | reserved
deriving DecidableEq, Repr

/-- The window map (R62). -/
def targetOf (off : BitVec 10) : Target :=
  if off = 0x000 then .cmd
  else if off = 0x004 then .status
  else if off = 0x008 then .ctrl
  else if off = 0x00C then .ilen
  else if off = 0x010 then .olen
  else if off = 0x014 then .nmax
  else if off = 0x018 then .iter
  else if 0x100 ≤ off.toNat ∧ off.toNat ≤ 0x140 then .ibuf (off.toNat - 0x100)
  else if 0x180 ≤ off.toNat ∧ off.toNat ≤ 0x1C0 then .obuf (off.toNat - 0x180)
  else .reserved

/-- The size a target accepts: 32 bits for a register, 8 bits for a buffer byte, none for a reserved offset (R63,
R64). -/
def Target.accepts (t : Target) (z : AccessSize) : Bool :=
  match t, z with
  | .reserved, _ => false
  | .ibuf _, .s8 => true
  | .obuf _, .s8 => true
  | .ibuf _, _ => false
  | .obuf _, _ => false
  | _, .s32 => true
  | _, _ => false

/-- The data a read returns: with `ERROR` it is 0 (R63, R64). The answer `OKAY` to a write has none. -/
def Response.data : Response → Option Word
  | .ack => none
  | .okay d => some d
  | .error => some 0

/-- Answer an access; nothing else changes. -/
def State.respond (s : State) (r : Response) : State := { s with resp := some r }

/-- Answer a read with an unspecified value of the given width, drawn afresh (R66). -/
def State.respondFree (s : State) (width : Nat) : State :=
  { s.respond (.okay (((Config.busyRead s.freeCount).setWidth width).setWidth 32)) with
    freeCount := s.freeCount + 1 }

/-- A host read of a target it may read (R62, R66): while the core is busy `OLEN`, `ITER` and `OBUF` bytes read as
unspecified. No read has another effect (R68). -/
def hostRead (t : Target) (s : State) : State :=
  match t with
  | .cmd => s.respond (.okay s.cmd)
  | .status => s.respond (.okay s.statusWord)
  | .ctrl => s.respond (.okay s.ctrlWord)
  | .ilen => s.respond (.okay (s.ilen.setWidth 32))
  | .olen => if s.busy then s.respondFree 32 else s.respond (.okay (s.olen.setWidth 32))
  | .nmax => s.respond (.okay (s.nmax.setWidth 32))
  | .iter => if s.busy then s.respondFree 32 else s.respond (.okay (s.iter.setWidth 32))
  | .ibuf i => s.respond (.okay ((s.ibuf.read i).setWidth 32))
  | .obuf i => if s.busy then s.respondFree 8 else s.respond (.okay ((s.obuf.read i).setWidth 32))
  | .reserved => s.respond .error

/-- Perform a write unless the core is busy, in which case it is refused (R65). -/
def whenIdle (s : State) (s' : State) : State :=
  if s.busy then s.respond .error else s'.respond .ack

/-- A host write to a target of an accepted size (R26 to R35, R64, R65, R67). -/
def hostWrite (t : Target) (data : Word) (s : State) : State :=
  match t with
  | .cmd => if s.busy || s.isFatal then s.respond .error else (s.accept data).respond .ack
  | .status =>
    (if !s.busy && data.getLsbD 1 then { s with done := false } else s).respond .ack
  | .ctrl =>
    (if data.getLsbD 1 then s.toReset else { s with ie := data.getLsbD 0 }).respond .ack
  | .ilen => whenIdle s { s with ilen := data.setWidth 8 }
  | .olen => s.respond .error
  | .nmax => whenIdle s { s with nmax := data.setWidth 16 }
  | .iter => s.respond .error
  | .ibuf i => whenIdle s { s with ibuf := s.ibuf.write i (data.setWidth 8) }
  | .obuf _ => s.respond .error
  | .reserved => s.respond .error

/-- One host access (R63): a size the target does not accept is answered `ERROR` and changes nothing. -/
def hostStep (a : HostAccess) (s : State) : State :=
  match a with
  | .read off z => if (targetOf off).accepts z then hostRead (targetOf off) s else s.respond .error
  | .write off z data => if (targetOf off).accepts z then hostWrite (targetOf off) data s else s.respond .error

end Sys2Proof.Machine
end

