-- ==== Sys2Proof/Machine/Agents.lean ====
section
/-! DEFINITION. What each of the three agents does in its turn (R20): the core, the host, the RNG source; and the
reset input. `Step.lean` only says whose turn it is. -/
namespace Sys2Proof.Machine

/-- A step of the core: while it is busy it executes the command in `CMD`; an illegal word completes with
`E_ILLEGAL` (R114, R304); an idle or fatal core takes no step (R310, R326). -/
def coreStep (s : State) : Out :=
  if s.busy then
    match decode s.cmd with
    | .ok i => exec i s
    | .error _ => raise .illegal s
  else .next s

/-- A step of the RNG source (R80): its answer stands on the port if a request is pending and is ignored
otherwise. DESIGN CHOICE (assumption log 16), safe: an answer carries no mark of the request it answers, so one to a
request that a reset withdrew (R84), listed when a later request is pending, is the later request's answer; that
it is ignored is the list of events without it. -/
def rngStep (a : RngAnswer) (s : State) : State :=
  if s.rngReq then { s with rngIn := some a } else s

/-- The turn an event stands for. -/
def eventStep (e : Event) (s : State) : Out :=
  match e with
  | .core => coreStep s
  | .host a => .next (hostStep a s)
  | .rng a => .next (rngStep a s)
  | .rst => .next s.toReset

/-- The word of an opcode-table row placed as the accepted command: bit 0 of `w` is bit 0 of the word; bits from
`nbits` up are 0. -/
def placedWord (nbits w : Nat) : Word := BitVec.ofNat 32 (w % 2 ^ nbits)

/-- Make the next turn the core's: it is already when no event is listed. -/
def State.coreNext (s : State) : State :=
  match s.events with
  | [] => s
  | es => { s with events := .core :: es }

end Sys2Proof.Machine
end

