-- ==== Sys2Proof/Machine/Step.lean ====
section
/-! DEFINITION. One step of the machine: the turn of the first listed event, or of the core when none is listed
(R20, assumption log 1); and the placing of a command word where the core runs it next. -/
namespace Sys2Proof.Machine

/-- One step of one agent. -/
def step (s : State) : Host.Outcome State Fault Refusal :=
  match s.events with
  | [] => coreStep s
  | e :: es => eventStep e { s with events := es }

/-- `s` right after the acceptance of the given command word (R26), with the core's turn next, so that the next step
runs exactly that command. There is no program memory and no fetch (R24, R77): the accepted word in `CMD` is all
the core executes. -/
def State.withFetchWord (s : State) (nbits w : Nat) : State := (s.accept (placedWord nbits w)).coreNext

end Sys2Proof.Machine
end

