-- ==== Sys2Proof/Machine/BigStep.lean ====
section
/-! DEFINITION. `ENCODE` and `DECODE` as one big step each, written from R262 and R270: a function of the buffers, the
lengths, the cap and the sequence of RNG answers. The machine takes the small steps of `Machine/Driver.lean`; that the
two agree (R250) is stated in the obligations. -/
namespace Sys2Proof.Machine

/-- What reading `n` bytes from a sequence of answers gives (R81). -/
inductive Drawn where
  /-- All bytes, and the answers left. -/
  | bytes (bs : List Byte) (rest : List RngAnswer)
  /-- An `Err` answer, and the answers left. -/
  | failed (rest : List RngAnswer)
  /-- The sequence ends first: the command would still be waiting (R311). -/
  | starved
deriving DecidableEq, Repr

/-- `RngRead(n)` on a sequence of answers (R81). -/
def drawBytes : Nat → List RngAnswer → Drawn
  | 0, as => .bytes [] as
  | _ + 1, [] => .starved
  | _ + 1, .err :: as => .failed as
  | n + 1, .ok b :: as =>
    match drawBytes n as with
    | .bytes bs rest => .bytes (b :: bs) rest
    | .failed rest => .failed rest
    | .starved => .starved

/-- The outcome of `ENCODE` on a sequence of answers: its end and the answers it did not take, or not finished yet. -/
inductive EncodeRun where
  | ended (o : Out) (rest : List RngAnswer)
  | starved
deriving Repr

/-- The writes of a successful `ENCODE` (R261, R262). -/
def encodeSuccess (u v : Fp) (s : State) : Out :=
  finish { s with obuf := (s.obuf.writeBytes 0 (toBytes u)).writeBytes 32 (toBytes v), olen := 64 }

/-- Go on with the value of a partial function, or end where it has none. -/
def endFault {α : Type} (v : Except Fault α) (rest : List RngAnswer) (k : α → EncodeRun) : EncodeRun :=
  match v with
  | .error e => .ended (.fault e) rest
  | .ok a => k a

/-- The loop of `ENCODE` (R262); its first argument is `NMAX - ITER`, the number of iterations that may still start. -/
def encodeLoop : Nat → Point → State → List RngAnswer → EncodeRun
  | 0, _, s, as => .ended (raiseDriver .retry s) as
  | n + 1, p, s, as =>
    let s := { s with iter := s.iter + 1 }
    match drawBytes 32 as with
    | .starved => .starved
    | .failed as => .ended (raiseDriver .rng s) as
    | .bytes bs as =>
      let u := fromBytes bs
      if singular u then encodeLoop n p s as
      else
        endFault (mapF u) as fun o =>
          o.elim (.ended (raiseDriver .mapInv s) as) fun f =>
            endFault (affineAdd p f.neg) as fun q =>
              if q = infinity then encodeLoop n p s as
              else
                match drawBytes 1 as with
                | .starved => .starved
                | .failed as => .ended (raiseDriver .rng s) as
                | .bytes js as =>
                  endFault (rSamp q ((js.headD 0).setWidth 2)) as fun o =>
                    o.elim (encodeLoop n p s as) fun v => .ended (encodeSuccess u v s) as

/-- `ENCODE` as one big step (R262). -/
def encodeBig (s : State) (as : List RngAnswer) : EncodeRun :=
  if s.ilen ≠ 65 ∨ s.ibuf.read 0 ≠ 0x04 then .ended (raiseDriver .point s) as
  else if !s.inputPoint.valid then .ended (raiseDriver .point s) as
  else encodeLoop s.nmax.toNat s.inputPoint { s with iter := 0 } as

/-- `DECODE` as one big step (R270). -/
def decodeBig (s : State) : Out :=
  if s.ilen ≠ 64 then raiseDriver .encoding s
  else
    orFault (mapF (fromBytes (s.ibuf.readBytes 0 32))) fun o =>
      o.elim (raiseDriver .mapInv s) fun f =>
        orFault (mapF (fromBytes (s.ibuf.readBytes 32 32))) fun o =>
          o.elim (raiseDriver .mapInv s) fun h =>
            orFault (affineAdd f h) fun p =>
              finish ({ s with obuf := s.obuf.writeBytes 0 (sec1 p), olen := 65 }.setI p)

/-- The state without the hidden datapath registers, which no rule reads after a completion (R36). -/
def State.forgetDatapath (s : State) : State :=
  { s with px := toFp 0, py := toFp 0, u := toFp 0, v := toFp 0, xf := toFp 0, yf := toFp 0, qx := toFp 0,
           qy := toFp 0, j := 0, rngBuf := [], rngIn := none }

/-- The RNG answers of a list of events, in order. -/
def rngAnswers : List Event → List RngAnswer
  | [] => []
  | .rng a :: es => a :: rngAnswers es
  | .core :: es => rngAnswers es
  | .host _ :: es => rngAnswers es
  | .rst :: es => rngAnswers es

/-- Only the core and the RNG source take turns. -/
def noHost (es : List Event) : Bool :=
  es.all fun e => match e with
    | .core => true
    | .rng _ => true
    | .host _ => false
    | .rst => false

end Sys2Proof.Machine
end

