-- ==== Sys2Proof/Safety.lean ====
section
/-! DEFINITION. The terms the statements use: a field value as a residue class, and what counts as a safe state: the invariants of the machine that the
spec states in its prose (R25, R27, R31, R33, R36, R38, R65). -/
namespace Sys2Proof.Machine

/-- A field value as an element of the ring of integers modulo `P` (R8, R21, R160). -/
def modP (x : Fp) : ZMod fieldP := (x.val : ZMod fieldP)

/-- The states of the walk of `ENCODE` (R25). -/
def Fsm.inEncode : Fsm → Bool
  | .eValidate | .eLoop | .eDrawU | .eCheckU | .eMap | .eSub | .eCheckQ | .eDrawJ | .eSample | .eEmit => true
  | .idle | .exec | .dValidate | .dMapU | .dMapV | .dAdd | .dEmit | .fatal => false

/-- The states of the walk of `DECODE` (R25). -/
def Fsm.inDecode : Fsm → Bool
  | .dValidate | .dMapU | .dMapV | .dAdd | .dEmit => true
  | .idle | .exec | .fatal => false
  | .eValidate | .eLoop | .eDrawU | .eCheckU | .eMap | .eSub | .eCheckQ | .eDrawJ | .eSample | .eEmit => false

/-- The states of the walk of `ENCODE` after validation (R252). -/
def Fsm.inLoop (f : Fsm) : Bool := f.inEncode && decide (f ≠ .eValidate)

/-- The states inside a started iteration (R253). -/
def Fsm.inIteration (f : Fsm) : Bool := f.inLoop && decide (f ≠ .eLoop)

/-- The state is consistent: what the spec's prose says of the registers at every step. -/
structure State.Consistent (s : State) : Prop where
  /-- The buffers are in canonical form. -/
  ibuf_wf : s.ibuf.wf = true
  obuf_wf : s.obuf.wf = true
  /-- While busy, `DONE` and `ERR` are 0 (R26, R65). -/
  busy_clear : s.busy = true → s.done = false ∧ s.err = .ok
  /-- `FATAL` holds exactly when the last completion code is a fatal one (R27, R300). -/
  fatal_code : s.fsm = .fatal ↔ s.err.fatal = true
  /-- `FSM` walks the command that `CMD` holds (R26, R77). -/
  walk_encode : s.fsm.inEncode = true → decode s.cmd = .ok .encode
  walk_decode : s.fsm.inDecode = true → decode s.cmd = .ok .decode
  walk_exec : s.fsm = .exec → decode s.cmd ≠ .ok .encode ∧ decode s.cmd ≠ .ok .decode
  /-- `ITER ≤ NMAX` during an `ENCODE` (R33), and an iteration counts itself. -/
  iter_le : s.fsm.inLoop = true → s.iter.toNat ≤ s.nmax.toNat
  iter_pos : s.fsm.inIteration = true → 0 < s.iter.toNat
  /-- The values of `OLEN` (R31). -/
  olen_values : s.olen = 0 ∨ s.olen = 64 ∨ s.olen = 65
  /-- An answer stands only while a read is going on (R80). -/
  answer_pending : s.rngIn ≠ none → s.fsm = .eDrawU ∨ s.fsm = .eDrawJ
  /-- The byte counter of a read (R36, R81). -/
  counter : if s.fsm = .eDrawU then s.rngBuf.length < 32 else s.rngBuf = []

/-- The datapath registers hold what the driver's rules say they hold in each state (R252, R255 to R258, R265 to R267). -/
structure State.DatapathValid (s : State) : Prop where
  target : s.fsm.inLoop = true → s.p.valid = true
  mapArg : s.fsm = .eMap → singular s.u = false
  image : s.fsm = .eSub → s.f.valid = true
  difference : s.fsm = .eCheckQ → s.q.valid = true
  sampled : s.fsm = .eDrawJ ∨ s.fsm = .eSample → s.q.valid = true ∧ s.q ≠ infinity
  firstImage : s.fsm = .dMapV → s.f.valid = true
  images : s.fsm = .dAdd → s.f.valid = true ∧ s.q.valid = true
  sum : s.fsm = .dEmit → s.p.valid = true

/-- A state from which the machine never stops. -/
def State.Safe (s : State) : Prop := s.Consistent ∧ s.DatapathValid

end Sys2Proof.Machine
end

