-- ==== Sys2Proof/Certificates/Slice0/Obligations.lean ====
section
/-! DEFINITION. The statements for the provers, from the numbered rules of the spec. `OBLIGATIONS.json` lists them in
this order. A next state is written out as the old state with the fields that change, so each such statement is
its own frame: every field not named keeps its value, the buffers byte for byte. -/
namespace Sys2Proof.Claims
open Sys2Proof Sys2Proof.Machine

/-- The state after a successful completion, apart from the command's own writes (R27). -/
abbrev succeeded (s : State) : State := { s with err := .ok, done := true, fsm := .idle }

/-- The state after an error completion with a code that is not fatal (R305). -/
abbrev failed (c : Code) (s : State) : State := { s with err := c, done := true, fsm := .idle }

/-- A host access is legal when it has the size of what stands at its offset (R62, R63): 32 bits at the seven registers, 8
bits at a buffer byte. -/
def legalAccess (off : BitVec 10) : AccessSize → Bool
  | .s8 => (decide (0x100 ≤ off.toNat) && decide (off.toNat ≤ 0x140)) ||
      (decide (0x180 ≤ off.toNat) && decide (off.toNat ≤ 0x1C0))
  | .s16 => false
  | .s32 => decide (off.toNat ≤ 0x18) && decide (off.toNat % 4 = 0)

/-- The window offset of `IBUF[i]` and of `OBUF[i]` (R62). -/
def ibufOffset (i : Fin 65) : BitVec 10 := BitVec.ofNat 10 (0x100 + i.val)
def obufOffset (i : Fin 65) : BitVec 10 := BitVec.ofNat 10 (0x180 + i.val)

/-- The field registers a command names as destination: one, or the two of a point register (R23, R113). -/
def destinations : Instr → List Nat
  | .nop => []
  | .fadd rd _ _ => [rd.toNat]
  | .fsub rd _ _ => [rd.toNat]
  | .fmul rd _ _ => [rd.toNat]
  | .fsqr rd _ => [rd.toNat]
  | .fneg rd _ => [rd.toNat]
  | .finv rd _ => [rd.toNat]
  | .fsqrt rd _ => [rd.toNat]
  | .feq _ _ => []
  | .fmov rd _ => [rd.toNat]
  | .fldi rd _ => [rd.toNat]
  | .fldb rd _ _ => [rd.toNat]
  | .fstb _ _ => []
  | .padd pd _ _ => [2 * pd.toNat, 2 * pd.toNat + 1]
  | .gx rd _ => [rd.toNat]
  | .x0 rd _ => [rd.toNat]
  | .x1 rd _ => [rd.toNat]
  | .fmap pd _ => [2 * pd.toNat, 2 * pd.toNat + 1]
  | .rsamp rd _ _ => [rd.toNat]
  | .encode => []
  | .decode => []

/-- The error and fatal codes a command with a legal word can complete with (R300, column "raised by"). -/
def codesOf : Instr → List Code
  | .finv _ _ => [.domain]
  | .fldb _ _ _ => [.range]
  | .fstb _ _ => [.range]
  | .padd _ _ _ => [.domain]
  | .x0 _ _ => [.domain]
  | .x1 _ _ => [.domain]
  | .fmap _ _ => [.mapInv]
  | .rsamp _ _ _ => [.domain]
  | .encode => [.point, .rng, .retry, .mapInv]
  | .decode => [.encoding, .mapInv]
  | .nop => []
  | .fadd _ _ _ => []
  | .fsub _ _ _ => []
  | .fmul _ _ _ => []
  | .fsqr _ _ => []
  | .fneg _ _ => []
  | .fsqrt _ _ => []
  | .feq _ _ => []
  | .fmov _ _ => []
  | .fldi _ _ => []
  | .gx _ _ => []

/-- The rows of the transition table that a step of a busy core can take (R251): the next state and the code then in
`ERR`. -/
def transitions : Fsm → List (Fsm × Code)
  | .idle => []
  | .fatal => []
  | .exec => [(.idle, .ok), (.idle, .illegal), (.idle, .range), (.idle, .domain), (.fatal, .mapInv)]
  | .eValidate => [(.eLoop, .ok), (.idle, .point)]
  | .eLoop => [(.eDrawU, .ok), (.fatal, .retry)]
  | .eDrawU => [(.eCheckU, .ok), (.idle, .rng), (.eDrawU, .ok)]
  | .eCheckU => [(.eMap, .ok), (.eLoop, .ok)]
  | .eMap => [(.eSub, .ok), (.fatal, .mapInv)]
  | .eSub => [(.eCheckQ, .ok)]
  | .eCheckQ => [(.eDrawJ, .ok), (.eLoop, .ok)]
  | .eDrawJ => [(.eSample, .ok), (.idle, .rng), (.eDrawJ, .ok)]
  | .eSample => [(.eEmit, .ok), (.eLoop, .ok)]
  | .eEmit => [(.idle, .ok)]
  | .dValidate => [(.dMapU, .ok), (.idle, .encoding)]
  | .dMapU => [(.dMapV, .ok), (.fatal, .mapInv)]
  | .dMapV => [(.dAdd, .ok), (.fatal, .mapInv)]
  | .dAdd => [(.dEmit, .ok)]
  | .dEmit => [(.idle, .ok)]

/-- The three flags of a state replaced (R28). -/
def withFlags (t n i : Bool) (s : State) : State := { s with flagT := t, flagN := n, flagI := i }

/-- An outcome with its next state changed. -/
def mapNext (f : State → State) : Out → Out
  | .next s => .next (f s)
  | .fault e => .fault e
  | .refused r => .refused r

/-- The next turn is the host's, with the given access; `es` are the turns after it. -/
abbrev hostTurn (a : HostAccess) (es : List Event) (s : State) : State := { s with events := .host a :: es }

end Sys2Proof.Claims

section
open Sys2Proof Sys2Proof.Machine Sys2Proof.Claims

/-! ### Reset, the host window, the turns of the agents -/

/-- R40: the value of every piece of state after reset, and the two outputs. -/
def Obligations.ResetState : Prop :=
  (∀ i : Fin 8, (State.reset.reg i).val = 0) ∧ (∀ k : Fin 4, State.reset.point k = infinity) ∧
  State.reset.fsm = .idle ∧ State.reset.busy = false ∧ State.reset.isFatal = false ∧ State.reset.cmd = 0 ∧
  State.reset.done = false ∧ State.reset.err.bits = 0 ∧ State.reset.flagT = false ∧ State.reset.flagN = false ∧
  State.reset.flagI = false ∧ State.reset.ie = false ∧ State.reset.ilen = 0 ∧ State.reset.olen = 0 ∧
  State.reset.nmax.toNat = 1000 ∧ State.reset.iter = 0 ∧ (∀ i : Nat, State.reset.ibuf.read i = 0) ∧
  (∀ i : Nat, State.reset.obuf.read i = 0) ∧
  State.reset.p = infinity ∧ State.reset.f = infinity ∧ State.reset.q = infinity ∧ State.reset.u.val = 0 ∧
  State.reset.v.val = 0 ∧ State.reset.j = 0 ∧ State.reset.rngBuf = [] ∧ State.reset.rngIn = none ∧
  State.reset.rngReq = false ∧ State.reset.irq = false

/-- The reset state is safe, so the invariant `State.Safe` holds somewhere. -/
def Obligations.ResetIsSafe : Prop := State.reset.Safe

/-- R29, R84, R340, R341: in every state the reset input, and the host write of `SRST`, whatever its `IE` bit, leave the reset
state; only the environment's pending turns, its last response and the count of drawn values are not the core's (the model's choice,
assumption logs 1, 3 and 10). -/
def Obligations.ResetFromEveryState : Prop :=
  ∀ (s : State) (es : List Event) (data : Word),
    step { s with events := .rst :: es } =
      .next { State.reset with events := es, resp := s.resp, freeCount := s.freeCount } ∧
    (data.getLsbD 1 = true →
      step (hostTurn (.write 0x008 .s32 data) es s) =
        .next { State.reset with events := es, resp := some .ack, freeCount := s.freeCount })

/-- When the word in `CMD` of a busy core decodes to an instruction, the core's turn executes that instruction; when it is
the next listed turn, it is taken from the list first (the model's choice, assumption logs 1 and 2). -/
def Obligations.StepRunsDecodedCommand : Prop :=
  ∀ (s : State) (i : Instr), s.busy = true → decode s.cmd = .ok i →
    (s.events = [] → step s = exec i s) ∧
    (∀ es, s.events = .core :: es → step s = exec i { s with events := es })

/-- R304: an illegal word in `CMD` of a busy core completes with code 4 and writes nothing else. -/
def Obligations.IllegalWordCompletes : Prop :=
  ∀ (s : State) (e : Illegal), s.busy = true → decode s.cmd = .error e →
    coreStep s = .next { s with err := .illegal, done := true, fsm := .idle } ∧ Code.illegal.bits = 4

/-- R310, R311, R326: in an idle or fatal core, and in one whose RNG request is unanswered, the core's turn changes
nothing (the model's choice of saying that it takes no step, assumption log 1). -/
def Obligations.CoreWaitsUnchanged : Prop :=
  ∀ s : State,
    (s.fsm = .idle ∨ s.fsm = .fatal → coreStep s = .next s) ∧
    (s.fsm = .eDrawU ∨ s.fsm = .eDrawJ → s.rngIn = none → decode s.cmd = .ok .encode → coreStep s = .next s)

/-- R26: the acceptance step; a write while busy or fatal is ignored and answered `ERROR`; a read gives the word. -/
def Obligations.CommandRegister : Prop :=
  ∀ (s : State) (w : Word) (es : List Event),
    (s.busy = false → s.isFatal = false →
      step (hostTurn (.write 0x000 .s32 w) es s) =
        .next { s with
          cmd := w, done := false, err := .ok, resp := some .ack, events := es,
          fsm := if w = 0x50000000 then .eValidate else if w = 0x51000000 then .dValidate else .exec }) ∧
    (s.busy = true ∨ s.isFatal = true →
      step (hostTurn (.write 0x000 .s32 w) es s) = .next { s with resp := some .error, events := es }) ∧
    step (hostTurn (.read 0x000 .s32) es s) = .next { s with resp := some (.okay s.cmd), events := es } ∧
    State.reset.cmd = 0

/-- R27: the layout of `STATUS` as a number, and what a write to it does. -/
def Obligations.StatusRegister : Prop :=
  ∀ (s : State) (data : Word) (es : List Event),
    (∃ w : Word,
      w.toNat = s.busy.toNat + 2 * s.done.toNat + 4 * s.isFatal.toNat + 16 * s.err.bits.toNat + 256 * s.flagT.toNat +
        512 * s.flagN.toNat + 1024 * s.flagI.toNat ∧
      step (hostTurn (.read 0x004 .s32) es s) = .next { s with resp := some (.okay w), events := es }) ∧
    step (hostTurn (.write 0x004 .s32 data) es s) =
      .next { s with
        done := if s.busy = false ∧ data.getLsbD 1 = true then false else s.done
        resp := some .ack, events := es }

/-- R29 apart from `SRST`: bit 0 of `CTRL` is `IE`, written at any time, all other bits read 0. -/
def Obligations.ControlRegister : Prop :=
  ∀ (s : State) (data : Word) (es : List Event),
    (data.getLsbD 1 = false →
      step (hostTurn (.write 0x008 .s32 data) es s) =
        .next { s with ie := data.getLsbD 0, resp := some .ack, events := es }) ∧
    step (hostTurn (.read 0x008 .s32) es s) =
      .next { s with resp := some (.okay (if s.ie = true then 1 else 0)), events := es }

/-- R30, R32, R34, R65, R67: the host writes `ILEN`, `NMAX` and `IBUF` bytes of a core that is not busy, fatal or not. While the core
is busy these writes and a write to `CMD` change nothing and are answered `ERROR`, a write to `CTRL` is performed, and a write to
`STATUS` is answered `OKAY` and changes nothing. That a byte write carries its byte in the low 8 bits of its data is the model's form
(assumption log 14). -/
def Obligations.InputWrites : Prop :=
  ∀ (s : State) (data : Word) (es : List Event),
    (s.busy = false →
      step (hostTurn (.write 0x00C .s32 data) es s) =
        .next { s with ilen := data.setWidth 8, resp := some .ack, events := es } ∧
      step (hostTurn (.write 0x014 .s32 data) es s) =
        .next { s with nmax := data.setWidth 16, resp := some .ack, events := es } ∧
      ∀ i : Fin 65, s.ibuf.wf = true →
        ∃ m : Memory, m.wf = true ∧ m.read i = data.setWidth 8 ∧ (∀ a, a ≠ i.val → m.read a = s.ibuf.read a) ∧
          step (hostTurn (.write (ibufOffset i) .s8 data) es s) =
            .next { s with ibuf := m, resp := some .ack, events := es }) ∧
    (s.busy = true →
      (∀ off : BitVec 10, off = 0x000 ∨ off = 0x00C ∨ off = 0x014 →
        step (hostTurn (.write off .s32 data) es s) = .next { s with resp := some .error, events := es }) ∧
      (∀ i : Fin 65,
        step (hostTurn (.write (ibufOffset i) .s8 data) es s) = .next { s with resp := some .error, events := es }) ∧
      (data.getLsbD 1 = false →
        step (hostTurn (.write 0x008 .s32 data) es s) =
          .next { s with ie := data.getLsbD 0, resp := some .ack, events := es }) ∧
      (data.getLsbD 1 = true →
        step (hostTurn (.write 0x008 .s32 data) es s) =
          .next { State.reset with events := es, resp := some .ack, freeCount := s.freeCount }) ∧
      step (hostTurn (.write 0x004 .s32 data) es s) = .next { s with resp := some .ack, events := es })

/-- R63, R64: an access whose size does not fit its offset, a reserved offset, and a write to a read-only register or to
`OBUF` are answered `ERROR`, with data 0, and change no state. -/
def Obligations.BadAccessesRefused : Prop :=
  Response.error.data = some 0 ∧
  ∀ (s : State) (off : BitVec 10) (z : AccessSize) (data : Word) (es : List Event),
    (legalAccess off z = false →
      step (hostTurn (.read off z) es s) = .next { s with resp := some .error, events := es } ∧
      step (hostTurn (.write off z data) es s) = .next { s with resp := some .error, events := es }) ∧
    (off = 0x010 ∨ off = 0x018 →
      step (hostTurn (.write off .s32 data) es s) = .next { s with resp := some .error, events := es }) ∧
    (∀ i : Fin 65,
      step (hostTurn (.write (obufOffset i) .s8 data) es s) = .next { s with resp := some .error, events := es })

/-- R30 to R35, R66, R68: what a host read returns, and that no read at any offset and size changes the core. `CMD`, `STATUS` and `CTRL` have statements of their own. While the core is busy
`OLEN`, `ITER` and `OBUF` give a value of which nothing is said (the counter of drawn values and the place of a byte in the
answer are the model's, assumption logs 3 and 14). -/
def Obligations.RegisterReads : Prop :=
  ∀ (s : State) (es : List Event) (i : Fin 65),
    (∀ (off : BitVec 10) (z : AccessSize), ∃ (r : Response) (n : Nat),
      step (hostTurn (.read off z) es s) = .next { s with resp := some r, freeCount := n, events := es }) ∧
    step (hostTurn (.read 0x00C .s32) es s) = .next { s with resp := some (.okay (s.ilen.setWidth 32)), events := es } ∧
    step (hostTurn (.read 0x014 .s32) es s) = .next { s with resp := some (.okay (s.nmax.setWidth 32)), events := es } ∧
    step (hostTurn (.read (ibufOffset i) .s8) es s) =
      .next { s with resp := some (.okay ((s.ibuf.read i).setWidth 32)), events := es } ∧
    (s.busy = false →
      step (hostTurn (.read 0x010 .s32) es s) =
        .next { s with resp := some (.okay (s.olen.setWidth 32)), events := es } ∧
      step (hostTurn (.read 0x018 .s32) es s) =
        .next { s with resp := some (.okay (s.iter.setWidth 32)), events := es } ∧
      step (hostTurn (.read (obufOffset i) .s8) es s) =
        .next { s with resp := some (.okay ((s.obuf.read i).setWidth 32)), events := es }) ∧
    (s.busy = true →
      (∃ w, step (hostTurn (.read 0x010 .s32) es s) =
        .next { s with resp := some (.okay w), events := es, freeCount := s.freeCount + 1 }) ∧
      (∃ w, step (hostTurn (.read 0x018 .s32) es s) =
        .next { s with resp := some (.okay w), events := es, freeCount := s.freeCount + 1 }) ∧
      (∃ b : Byte, step (hostTurn (.read (obufOffset i) .s8) es s) =
        .next { s with resp := some (.okay (b.setWidth 32)), events := es, freeCount := s.freeCount + 1 }))

/-- R41, R80: the two outputs, `irq` and `rng_req`, as functions of the state; an answer is taken when a request is pending and
ignored otherwise; where it stands until the core takes it is the model's form (assumption log 8). -/
def Obligations.OutputsAndRngAnswers : Prop :=
  ∀ (s : State) (a : RngAnswer) (es : List Event),
    (s.irq = true ↔ s.ie = true ∧ s.done = true) ∧
    (s.rngReq = true ↔ (s.fsm = .eDrawU ∨ s.fsm = .eDrawJ) ∧ s.rngIn = none) ∧
    (s.rngReq = true → step { s with events := .rng a :: es } = .next { s with rngIn := some a, events := es }) ∧
    (s.rngReq = false → step { s with events := .rng a :: es } = .next { s with events := es })

/-! ### Encoding -/

/-- Words written out in R120, R172 and R270 and in the encoding examples of 95_test_vectors.md, at least one of each of
the ten formats, decode to the commands they stand for. -/
def Obligations.SpecWordsDecode : Prop :=
  decode 0x00000000 = .ok .nop ∧ decode 0x01201000 = .ok (.fadd 2 0 1) ∧ decode 0x0311E000 = .ok (.fmul 1 1 14) ∧
  decode 0x093E0000 = .ok (.fmov 3 14) ∧ decode 0x30390000 = .ok (.gx 3 9) ∧
  decode 0x08013000 = .ok (.feq 1 3) ∧ decode 0x0A600002 = .ok (.fldi 6 2) ∧
  decode 0x10001020 = .ok (.fldb 0 1 32) ∧ decode 0x11420000 = .ok (.fstb 4 32) ∧
  decode 0x20201000 = .ok (.padd 2 0 1) ∧ decode 0x33160000 = .ok (.fmap 1 6) ∧
  decode 0x40610003 = .ok (.rsamp 6 1 3) ∧ decode 0x50000000 = .ok .encode ∧ decode 0x51000000 = .ok .decode

/-- R115, R116 and step 2 of R114: a reserved opcode byte is illegal whatever the other bits; a defined opcode with a bit wrong
under the row's mask is illegal; a row's word with a source field 15 is illegal. -/
def Obligations.IllegalWords : Prop :=
  ∀ w : Word,
    (let op := (w.extractLsb' 24 8).toNat
     (0x0B ≤ op ∧ op ≤ 0x0F) ∨ (0x12 ≤ op ∧ op ≤ 0x1F) ∨ (0x21 ≤ op ∧ op ≤ 0x2F) ∨ (0x34 ≤ op ∧ op ≤ 0x3F) ∨
       (0x41 ≤ op ∧ op ≤ 0x4F) ∨ (0x52 ≤ op ∧ op ≤ 0xFF) →
      decode w = .error .reservedOpcode) ∧
    (∀ o : Opcode, w.extractLsb' 24 8 = o.byte →
      (w &&& o.mask ≠ o.matchBits → decode w = .error .reservedBits) ∧
      (w &&& o.mask = o.matchBits → 15 ∈ (o.extract w).sourceFields → decode w = .error .reservedSource) ∧
      (w &&& o.mask = o.matchBits → 15 ∉ (o.extract w).sourceFields → decode w = .ok (o.extract w)))

/-- Decode and encode agree: every well-formed command, with every operand at every value its field admits. -/
def Obligations.DecodeEncode : Prop := ∀ i : Instr, i.wellFormed = true → decode (encode i) = .ok i

/-- Every word that decodes is the word of a well-formed command: no bit of a legal word is ignored. -/
def Obligations.EncodeDecode : Prop :=
  ∀ (w : Word) (i : Instr), decode w = .ok i → encode i = w ∧ i.wellFormed = true

/-! ### Registers and operands -/

/-- R21, R22: what each of the 16 register indices reads as, and which can be written. -/
def Obligations.RegisterIndexSpace : Prop :=
  ∀ s : State,
    (∀ i : Fin 8, s.source (BitVec.ofNat 4 i.val) = some (s.reg i) ∧ dstOf (BitVec.ofNat 4 i.val) = some i) ∧
    (s.source 8).map Fin.val = some 0 ∧ (s.source 9).map Fin.val = some 1 ∧ (s.source 10).map Fin.val = some 2 ∧
    (s.source 11).map Fin.val = some 4 ∧
    (s.source 12).map Fin.val = some 0xFFFFFFFF00000001000000000000000000000000FFFFFFFFFFFFFFFFFFFFFFFE ∧
    (s.source 13).map Fin.val = some 0xFFFFFFFF00000001000000000000000000000000FFFFFFFFFFFFFFFFFFFFFFFC ∧
    (s.source 14).map Fin.val = some 0x5AC635D8AA3A93E7B3EBBD55769886BC651D06B0CC53B0F63BCE3C3E27D2604B ∧
    s.source 15 = none ∧ (∀ r : RegIdx, 8 ≤ r.toNat → dstOf r = none)

/-- R23: a point register is the pair of field registers `2k` and `2k+1`; writing either view changes the other. -/
def Obligations.PointRegistersArePairs : Prop :=
  ∀ (s : State) (k : Fin 4) (p : Point) (i : Fin 8) (x : Fp),
    s.point k = ⟨s.regs[2 * k.val], s.regs[2 * k.val + 1]⟩ ∧
    ((s.setPoint k p).point k = p ∧
      ∀ n : Fin 8, n.val ≠ 2 * k.val → n.val ≠ 2 * k.val + 1 → (s.setPoint k p).reg n = s.reg n) ∧
    (s.setReg i x).point k =
      ⟨if i.val = 2 * k.val then x else (s.point k).x, if i.val = 2 * k.val + 1 then x else (s.point k).y⟩ ∧
    State.reset.point k = ⟨toFp 0, toFp 0⟩

/-! ### Field arithmetic commands -/

/-- R152 to R156 with R140 to R144: sum, difference, product, square and negative, for every destination and every two
sources, constants among them. -/
def Obligations.FieldArithmeticResults : Prop :=
  ∀ (rd ra rb : RegIdx) (s : State) (d : Fin 8) (a b : Fp),
    dstOf rd = some d → s.source ra = some a → s.source rb = some b →
    (∃ y : Fp, y.val = (a.val + b.val) % fieldP ∧
      exec (.fadd rd ra rb) s = .next (succeeded { s with regs := s.regs.set d y })) ∧
    (∃ y : Fp, y.val = (if b.val ≤ a.val then a.val - b.val else a.val + fieldP - b.val) ∧
      exec (.fsub rd ra rb) s = .next (succeeded { s with regs := s.regs.set d y })) ∧
    (∃ y : Fp, y.val = a.val * b.val % fieldP ∧
      exec (.fmul rd ra rb) s = .next (succeeded { s with regs := s.regs.set d y })) ∧
    (∃ y : Fp, y.val = a.val * a.val % fieldP ∧
      exec (.fsqr rd ra) s = .next (succeeded { s with regs := s.regs.set d y })) ∧
    (∃ y : Fp, y.val = (if a.val = 0 then 0 else fieldP - a.val) ∧
      exec (.fneg rd ra) s = .next (succeeded { s with regs := s.regs.set d y }))

/-- R157 with R145: the inverse of a non-zero source, the only value whose product with it is 1; `E_DOMAIN` at 0. -/
def Obligations.FinvResult : Prop :=
  ∀ (rd ra : RegIdx) (s : State) (d : Fin 8) (a : Fp), dstOf rd = some d → s.source ra = some a →
    (a.val = 0 → exec (.finv rd ra) s = .next (failed .domain s)) ∧
    (a.val ≠ 0 → ∃ y : Fp, a.val * y.val % fieldP = 1 ∧ (∀ z : Fp, a.val * z.val % fieldP = 1 → z = y) ∧
      exec (.finv rd ra) s = .next (succeeded { s with regs := s.regs.set d y }))

/-- R158 with R146: the root `a^((P+1)/4)` with `N` cleared when `a` is a square; otherwise `N` set and no register written. -/
def Obligations.FsqrtResult : Prop :=
  ∀ (rd ra : RegIdx) (s : State) (d : Fin 8) (a : Fp), dstOf rd = some d → s.source ra = some a →
    ((∃ y : Fp, y.val * y.val % fieldP = a.val) →
      ∃ c : Fp, c.val * c.val % fieldP = a.val ∧ modP c = modP a ^ ((fieldP + 1) / 4) ∧
        exec (.fsqrt rd ra) s = .next (succeeded { s with regs := s.regs.set d c, flagN := false })) ∧
    ((¬ ∃ y : Fp, y.val * y.val % fieldP = a.val) →
      exec (.fsqrt rd ra) s = .next (succeeded { s with flagN := true }))

/-- R159 with R147: `T` tells whether the two sources are the same integer; no register is written. -/
def Obligations.FeqResult : Prop :=
  ∀ (ra rb : RegIdx) (s : State) (a b : Fp), s.source ra = some a → s.source rb = some b →
    (a.val = b.val → exec (.feq ra rb) s = .next (succeeded { s with flagT := true })) ∧
    (a.val ≠ b.val → exec (.feq ra rb) s = .next (succeeded { s with flagT := false }))

/-- R146, R148: a value has a root exactly when it is a square; of a non-zero square's two roots the one returned is
itself a square and its negative is not. -/
def Obligations.SquareRoots : Prop :=
  ∀ x : Fp,
    (isSquareP x = true ↔ ∃ y : Fp, sqrP y = x) ∧
    (∀ c : Fp, sqrtP x = some c → sqrP c = x ∧ modP c = modP x ^ ((fieldP + 1) / 4) ∧
      (x.val ≠ 0 → isSquareP c = true ∧ isSquareP (negP c) = false)) ∧
    isSquareP (toFp 0) = true

/-- R149, R150: the two fixed addition chains compute the powers they are for, at 0 too. -/
def Obligations.AdditionChains : Prop :=
  ∀ x : Fp, modP (invChain x) = modP x ^ (fieldP - 2) ∧ modP (sqrtChain x) = modP x ^ ((fieldP + 1) / 4)

/-! ### Data movement and bytes -/

/-- R172 to R174: `NOP` only completes, `FMOV` copies a source, `FLDI` loads the immediate itself. -/
def Obligations.MoveResults : Prop :=
  ∀ (rd ra : RegIdx) (imm : BitVec 16) (s : State) (d : Fin 8) (a : Fp), dstOf rd = some d → s.source ra = some a →
    exec .nop s = .next (succeeded s) ∧
    exec (.fmov rd ra) s = .next (succeeded { s with regs := s.regs.set d a }) ∧
    ∃ y : Fp, y.val = imm.toNat ∧ exec (.fldi rd imm) s = .next (succeeded { s with regs := s.regs.set d y })

/-- R175 with R170: the big-endian integer of the bytes, reduced; `E_RANGE` past 32 bytes or past the buffer. -/
def Obligations.FldbResult : Prop :=
  ∀ (rd : RegIdx) (off : BitVec 7) (len : BitVec 6) (s : State) (d : Fin 8), dstOf rd = some d →
    (32 < len.toNat ∨ 65 < off.toNat + len.toNat → exec (.fldb rd off len) s = .next (failed .range s)) ∧
    (len.toNat ≤ 32 → off.toNat + len.toNat ≤ 65 →
      ∃ y : Fp,
        y.val = (∑ i ∈ Finset.range len.toNat,
          (s.ibuf.read (off.toNat + i)).toNat * 256 ^ (len.toNat - 1 - i)) % fieldP ∧
        exec (.fldb rd off len) s = .next (succeeded { s with regs := s.regs.set d y }))

/-- R176 with R171: the 32 bytes `off .. off+31` of `OBUF` become the value's big-endian bytes, every other byte stays; `E_RANGE` when
they do not fit. -/
def Obligations.FstbResult : Prop :=
  ∀ (ra : RegIdx) (off : BitVec 7) (s : State) (a : Fp), s.source ra = some a → s.obuf.wf = true →
    (33 < off.toNat → exec (.fstb ra off) s = .next (failed .range s)) ∧
    (off.toNat ≤ 33 →
      ∃ m : Memory, m.wf = true ∧
        (∀ i, i < 32 → (m.read (off.toNat + i)).toNat = a.val / 256 ^ (31 - i) % 256) ∧
        (∀ b, b < off.toNat ∨ off.toNat + 32 ≤ b → m.read b = s.obuf.read b) ∧
        exec (.fstb ra off) s = .next (succeeded { s with obuf := m }))

/-- R170, R171: `to_bytes` writes the 32 canonical bytes and `from_bytes` reads them back; a 32-byte string comes back exactly
when it denotes an integer below the prime; leading zero bytes change nothing. -/
def Obligations.BytesRoundTrip : Prop :=
  (∀ x : Fp, (toBytes x).length = 32 ∧ fromBytes (toBytes x) = x ∧
    ∀ i, i < 32 → ((toBytes x).getD i 0).toNat = x.val / 256 ^ (31 - i) % 256) ∧
  (∀ bs : List Byte, (fromBytes bs).val =
    (∑ i ∈ Finset.range bs.length, (bs.getD i 0).toNat * 256 ^ (bs.length - 1 - i)) % fieldP) ∧
  (∀ bs : List Byte, bs.length = 32 → (toBytes (fromBytes bs) = bs ↔ bytesToNat bs < fieldP)) ∧
  (∀ (n : Nat) (bs : List Byte), fromBytes (List.replicate n 0 ++ bs) = fromBytes bs)

/-! ### Curve, map and sampler commands -/

/-- R197 with R190: the sum of two valid points, itself valid, and flag `I`; `E_DOMAIN` when a source is not valid. -/
def Obligations.PaddResult : Prop :=
  ∀ (pd pa pb : PointIdx) (s : State) (d a b : Fin 4),
    pointOf pd = some d → pointOf pa = some a → pointOf pb = some b →
    ((s.point a).valid = false ∨ (s.point b).valid = false →
      exec (.padd pd pa pb) s = .next (failed .domain s)) ∧
    ((s.point a).valid = true → (s.point b).valid = true →
      ∃ r : Point, affineAdd (s.point a) (s.point b) = .ok r ∧ r.valid = true ∧
        exec (.padd pd pa pb) s =
          .next (succeeded { s with
            regs := (s.regs.set (2 * d.val) r.x).set (2 * d.val + 1) r.y
            flagI := decide (r = ⟨toFp 0, toFp 0⟩) }))

/-- R216 with R210: `x^3 - 3x + b`. -/
def Obligations.GxResult : Prop :=
  ∀ (rd ra : RegIdx) (s : State) (d : Fin 8) (a : Fp), dstOf rd = some d → s.source ra = some a →
    ∃ y : Fp,
      modP y = modP a ^ 3 - 3 * modP a + 0x5AC635D8AA3A93E7B3EBBD55769886BC651D06B0CC53B0F63BCE3C3E27D2604B ∧
      exec (.gx rd ra) s = .next (succeeded { s with regs := s.regs.set d y })

/-- R217, R218 with R211, R212: off the singular values, `X0` is the solution `x` of `-3 x t = -b (t + 1)` with
`t = u^4 - u^2 ≠ 0`, and `X1` is `-u^2` times it; at the singular values both give `E_DOMAIN`. -/
def Obligations.MapHelperResults : Prop :=
  ∀ (rd ra : RegIdx) (s : State) (d : Fin 8) (u : Fp), dstOf rd = some d → s.source ra = some u →
    (u.val = 0 ∨ u.val = 1 ∨ u.val = fieldP - 1 →
      exec (.x0 rd ra) s = .next (failed .domain s) ∧ exec (.x1 rd ra) s = .next (failed .domain s)) ∧
    (u.val ≠ 0 → u.val ≠ 1 → u.val ≠ fieldP - 1 →
      ∃ x x' : Fp,
        modP u ^ 4 - modP u ^ 2 ≠ 0 ∧
        -3 * modP x * (modP u ^ 4 - modP u ^ 2) = -modP curveB * (modP u ^ 4 - modP u ^ 2 + 1) ∧
        modP x' = -modP u ^ 2 * modP x ∧
        exec (.x0 rd ra) s = .next (succeeded { s with regs := s.regs.set d x }) ∧
        exec (.x1 rd ra) s = .next (succeeded { s with regs := s.regs.set d x' }))

/-- R219 with R213 to R215: `FMAP` always succeeds: its result is `f` of the source, a valid point, and `I` is set exactly for the
three singular sources. -/
def Obligations.FmapResult : Prop :=
  ∀ (pd : PointIdx) (ra : RegIdx) (s : State) (d : Fin 4) (u : Fp), pointOf pd = some d → s.source ra = some u →
    ∃ p : Point, mapF u = .ok (some p) ∧ p.valid = true ∧
      exec (.fmap pd ra) s =
        .next (succeeded { s with
          regs := (s.regs.set (2 * d.val) p.x).set (2 * d.val + 1) p.y
          flagI := decide (u.val = 0 ∨ u.val = 1 ∨ u.val = fieldP - 1) })

/-- R232 with R230: the sampler's answer on a valid point other than infinity; `⊥` sets `N` and writes no register; `E_DOMAIN`
elsewhere. -/
def Obligations.RsampResult : Prop :=
  ∀ (rd : RegIdx) (pa : PointIdx) (j : BitVec 2) (s : State) (d : Fin 8) (a : Fin 4),
    dstOf rd = some d → pointOf pa = some a →
    ((s.point a).valid = false ∨ s.point a = ⟨toFp 0, toFp 0⟩ →
      exec (.rsamp rd pa j) s = .next (failed .domain s)) ∧
    ((s.point a).valid = true → s.point a ≠ ⟨toFp 0, toFp 0⟩ →
      (rSamp (s.point a) j = .ok none ∧ exec (.rsamp rd pa j) s = .next (succeeded { s with flagN := true })) ∨
      ∃ v : Fp, rSamp (s.point a) j = .ok (some v) ∧
        exec (.rsamp rd pa j) s = .next (succeeded { s with regs := s.regs.set d v, flagN := false }))

/-! ### The functions of the curve, the map and the sampler -/

/-- R192: on valid points the sum is valid, `O` is neutral on both sides, `P + (-P) = O`, and addition commutes. -/
def Obligations.AffineAddLaws : Prop :=
  ∀ p q : Point, p.valid = true → q.valid = true →
    (∃ r, affineAdd p q = .ok r ∧ r.valid = true) ∧
    affineAdd p infinity = .ok p ∧ affineAdd infinity p = .ok p ∧
    p.neg.valid = true ∧ affineAdd p p.neg = .ok infinity ∧ infinity.neg = infinity ∧
    affineAdd p q = affineAdd q p

/-- R192: on valid points the sum is associative, so they form a group. -/
def Obligations.AffineAddAssociative : Prop :=
  ∀ p q r pq qr : Point, p.valid = true → q.valid = true → r.valid = true →
    affineAdd p q = .ok pq → affineAdd q r = .ok qr → affineAdd pq r = affineAdd p qr

/-- R196: the point adder's datapath (lift, the 43 steps, recovery) returns `AffineAdd` of every two valid points. -/
def Obligations.HardwareAddIsAffineAdd : Prop :=
  ∀ p q : Point, p.valid = true → q.valid = true → hardwareAdd p q = affineAdd p q

/-- R214, R215: off the singular values exactly one of `g(X0(u))`, `g(X1(u))` is a square, so `f` never meets its fatal outcome;
its value is a valid point other than infinity, and its `y` is a square exactly in the first branch. -/
def Obligations.MapAlwaysHasValue : Prop :=
  ∀ u : Fp, singular u = false →
    ∃ (x x' : Fp) (p : Point), x0P u = .ok x ∧ x1P u = .ok x' ∧
      (isSquareP (curveG x) = !isSquareP (curveG x')) ∧
      mapF u = .ok (some p) ∧ p.valid = true ∧ p ≠ infinity ∧ isSquareP p.y = isSquareP (curveG x)

/-- R215 (c), R211, R212: `X0`, `X1` and `f` depend on `u` only up to sign. -/
def Obligations.MapIsEven : Prop :=
  ∀ u : Fp, x0P (negP u) = x0P u ∧ x1P (negP u) = x1P u ∧ mapF (negP u) = mapF u

/-- R231 (a): a value of the sampler is a non-singular preimage of its point under `f`. -/
def Obligations.SamplerGivesPreimages : Prop :=
  ∀ (p : Point) (j : BitVec 2) (v : Fp), rSamp p j = .ok (some v) → mapF v = .ok (some p) ∧ singular v = false

/-- R231 (b): every non-singular `u` is found again, up to sign, from `f(u)` by some selector. -/
def Obligations.SamplerFindsPreimage : Prop :=
  ∀ (u : Fp) (p : Point), singular u = false → mapF u = .ok (some p) →
    ∃ j : BitVec 2, rSamp p j = .ok (some u) ∨ rSamp p j = .ok (some (negP u))

/-- R231 (c): flipping bit 0 of the selector negates the answer; the two are `⊥` together. -/
def Obligations.SamplerPairs : Prop :=
  ∀ (p : Point) (j : BitVec 2), p.valid = true → p ≠ infinity →
    ∃ v : Option Fp, rSamp p j = .ok v ∧ rSamp p (j ^^^ 1) = .ok (v.map negP)

/-! ### The driver, state by state -/

/-- R252, R253: `E_VALIDATE` and `E_LOOP`; how a new read is started is the model's form (assumption log 8). -/
def Obligations.EncodeValidateAndLoop : Prop :=
  ∀ (s : State) (x y : Fp),
    x = fromBytes (s.ibuf.readBytes 1 32) → y = fromBytes (s.ibuf.readBytes 33 32) →
    (s.fsm = .eValidate → s.ilen.toNat ≠ 65 ∨ s.ibuf.read 0 ≠ 0x04 →
      exec .encode s = .next { failed .point s with olen := 0 }) ∧
    (s.fsm = .eValidate → s.ilen.toNat = 65 → s.ibuf.read 0 = 0x04 → Point.valid ⟨x, y⟩ = false →
      exec .encode s = .next { failed .point s with olen := 0, px := x, py := y }) ∧
    (s.fsm = .eValidate → s.ilen.toNat = 65 → s.ibuf.read 0 = 0x04 → Point.valid ⟨x, y⟩ = true →
      exec .encode s = .next { s with px := x, py := y, iter := 0, fsm := .eLoop }) ∧
    (s.fsm = .eLoop → s.iter = s.nmax →
      exec .encode s = .next { s with err := .retry, done := true, fsm := .fatal, olen := 0 }) ∧
    (s.fsm = .eLoop → s.iter ≠ s.nmax →
      exec .encode s = .next { s with iter := s.iter + 1, fsm := .eDrawU, rngBuf := [], rngIn := none })

/-- R81, R82, R254, R259, R311: `E_DRAW_U` and `E_DRAW_J` wait, take one byte, fail with `E_RNG`, or end the read
(one core step for each answered byte is the model's choice, assumption log 7; the fields that hold the bytes are its form,
assumption log 8). -/
def Obligations.EncodeDraws : Prop :=
  ∀ s : State, s.fsm = .eDrawU ∨ s.fsm = .eDrawJ →
    (s.rngIn = none → exec .encode s = .next s) ∧
    (s.rngIn = some .err →
      exec .encode s = .next { failed .rng s with olen := 0, rngBuf := [], rngIn := none }) ∧
    (∀ b, s.fsm = .eDrawU → s.rngIn = some (.ok b) → s.rngBuf.length < 31 →
      exec .encode s = .next { s with rngBuf := s.rngBuf ++ [b], rngIn := none }) ∧
    (∀ b, s.fsm = .eDrawU → s.rngIn = some (.ok b) → s.rngBuf.length = 31 →
      exec .encode s =
        .next { s with rngBuf := [], rngIn := none, u := fromBytes (s.rngBuf ++ [b]), fsm := .eCheckU }) ∧
    (∀ b, s.fsm = .eDrawJ → s.rngIn = some (.ok b) → s.rngBuf = [] →
      exec .encode s =
        .next { s with rngBuf := [], rngIn := none, j := BitVec.ofNat 2 (b.toNat % 4), fsm := .eSample })

/-- R255 to R258: `E_CHECK_U`, `E_MAP`, `E_SUB`, `E_CHECK_Q`. The map and the subtraction have their arguments in the domain, as they
have in every safe state. -/
def Obligations.EncodeMapAndSubtract : Prop :=
  ∀ s : State,
    (s.fsm = .eCheckU → s.u.val = 0 ∨ s.u.val = 1 ∨ s.u.val = fieldP - 1 →
      exec .encode s = .next { s with fsm := .eLoop }) ∧
    (s.fsm = .eCheckU → s.u.val ≠ 0 → s.u.val ≠ 1 → s.u.val ≠ fieldP - 1 →
      exec .encode s = .next { s with fsm := .eMap }) ∧
    (s.fsm = .eMap → ∃ p, mapF s.u = .ok (some p) ∧
      exec .encode s = .next { s with xf := p.x, yf := p.y, fsm := .eSub }) ∧
    (s.fsm = .eSub → s.p.valid = true → s.f.valid = true →
      ∃ q, affineAdd ⟨s.px, s.py⟩ ⟨s.xf, negP s.yf⟩ = .ok q ∧
        exec .encode s = .next { s with qx := q.x, qy := q.y, fsm := .eCheckQ }) ∧
    (s.fsm = .eCheckQ → s.qx.val = 0 ∧ s.qy.val = 0 → exec .encode s = .next { s with fsm := .eLoop }) ∧
    (s.fsm = .eCheckQ → s.qx.val ≠ 0 ∨ s.qy.val ≠ 0 →
      exec .encode s = .next { s with fsm := .eDrawJ, rngBuf := [], rngIn := none })

/-- R260, R261: `E_SAMPLE` goes on with the sampler's answer; `E_EMIT` writes the 64 bytes and completes, `OBUF[64]` unwritten. -/
def Obligations.EncodeSampleAndEmit : Prop :=
  ∀ s : State,
    (s.fsm = .eSample → s.q.valid = true → s.q ≠ infinity →
      (rSamp s.q s.j = .ok none ∧ exec .encode s = .next { s with fsm := .eLoop }) ∨
      ∃ v, rSamp s.q s.j = .ok (some v) ∧ exec .encode s = .next { s with v := v, fsm := .eEmit }) ∧
    (s.fsm = .eEmit → s.obuf.wf = true →
      ∃ m : Memory, m.wf = true ∧ m.readBytes 0 64 = toBytes s.u ++ toBytes s.v ∧
        (∀ a, 64 ≤ a → m.read a = s.obuf.read a) ∧
        exec .encode s = .next (succeeded { s with obuf := m, olen := 64 }))

/-- R264 to R268: the five states of `DECODE`; that the map always has a value is the inference of R214. -/
def Obligations.DecodeStates : Prop :=
  ∀ s : State,
    (s.fsm = .dValidate → s.ilen.toNat ≠ 64 → exec .decode s = .next { failed .encoding s with olen := 0 }) ∧
    (s.fsm = .dValidate → s.ilen.toNat = 64 →
      exec .decode s = .next { s with
        u := fromBytes (s.ibuf.readBytes 0 32), v := fromBytes (s.ibuf.readBytes 32 32), fsm := .dMapU }) ∧
    (s.fsm = .dMapU → ∃ p, mapF s.u = .ok (some p) ∧
      exec .decode s = .next { s with xf := p.x, yf := p.y, fsm := .dMapV }) ∧
    (s.fsm = .dMapV → ∃ p, mapF s.v = .ok (some p) ∧
      exec .decode s = .next { s with qx := p.x, qy := p.y, fsm := .dAdd }) ∧
    (s.fsm = .dAdd → s.f.valid = true → s.q.valid = true →
      ∃ p, affineAdd ⟨s.xf, s.yf⟩ ⟨s.qx, s.qy⟩ = .ok p ∧
        exec .decode s = .next { s with px := p.x, py := p.y, fsm := .dEmit }) ∧
    (s.fsm = .dEmit → s.obuf.wf = true →
      ∃ m : Memory, m.wf = true ∧ m.readBytes 0 65 = 0x04 :: (toBytes s.px ++ toBytes s.py) ∧
        (∀ a, 65 ≤ a → m.read a = s.obuf.read a) ∧
        exec .decode s = .next (succeeded { s with
          obuf := m, olen := 65, flagI := decide (s.px.val = 0 ∧ s.py.val = 0) }))

/-! ### The driver as a whole -/

/-- R250, R270, R272: from acceptance `DECODE` completes in five core steps, or in one when `ILEN` is not 64, in the state that its
big step gives, hidden registers apart. -/
def Obligations.DecodeRefinesBigStep : Prop :=
  ∀ s : State, s.fsm = .dValidate → s.events = [] → s.err = .ok → decode s.cmd = .ok .decode →
    ∃ t t' : State, decodeBig s = .next t ∧
      Host.Core.run Sys2Proof.core (if s.ilen.toNat = 64 then 5 else 1) s = .next t' ∧
      t'.forgetDatapath = t.forgetDatapath ∧ t'.done = true ∧ t'.busy = false

/-- R250, R262: whatever the RNG source answers, when the big step of `ENCODE` ends, the small steps reach the same state, hidden
registers apart, with the answers arriving one at a time, and take exactly the answers the big step takes. -/
def Obligations.EncodeRefinesBigStep : Prop :=
  ∀ (s t : State) (as rest : List RngAnswer),
    s.fsm = .eValidate → s.events = [] → decode s.cmd = .ok .encode → s.rngIn = none → s.rngBuf = [] →
    encodeBig s as = .ended (.next t) rest →
    ∃ (sched : List Event) (t' : State), noHost sched = true ∧ rngAnswers sched ++ rest = as ∧
      Host.Core.run Sys2Proof.core sched.length { s with events := sched } = .next t' ∧
      t'.forgetDatapath = t.forgetDatapath

/-- R263, R272, R359: with `33 * NMAX` answers at hand the big step of `ENCODE` ends in a next state with the core not busy, having
taken at most that many. -/
def Obligations.EncodeTerminates : Prop :=
  ∀ (s : State) (as : List RngAnswer), 33 * s.nmax.toNat ≤ as.length →
    ∃ (t : State) (rest : List RngAnswer), encodeBig s as = .ended (.next t) rest ∧ t.done = true ∧ t.busy = false ∧
      as.length ≤ rest.length + 33 * s.nmax.toNat ∧
      (t.err = .point → rest = as ∧ t.iter = s.iter) ∧ (t.err ≠ .point → t.iter.toNat ≤ s.nmax.toNat) ∧
      (t.err = .retry → t.iter = s.nmax)

/-- R271 (P1): decoding the 64 bytes of a successful `ENCODE` gives the point that was encoded, as its 65 SEC1 bytes; they are the
input bytes when both coordinates were below the prime. -/
def Obligations.RoundTrip : Prop :=
  ∀ (s t c : State) (as rest : List RngAnswer),
    s.obuf.wf = true → encodeBig s as = .ended (.next t) rest → t.err = .ok →
    c.obuf.wf = true → c.ilen.toNat = 64 → c.ibuf.readBytes 0 64 = t.obuf.readBytes 0 64 →
    ∃ e : State, decodeBig c = .next e ∧ e.err = .ok ∧ e.olen.toNat = 65 ∧
      e.obuf.readBytes 0 65 =
        0x04 :: (toBytes (fromBytes (s.ibuf.readBytes 1 32)) ++ toBytes (fromBytes (s.ibuf.readBytes 33 32))) ∧
      (bytesToNat (s.ibuf.readBytes 1 32) < fieldP → bytesToNat (s.ibuf.readBytes 33 32) < fieldP →
        e.obuf.readBytes 0 65 = s.ibuf.readBytes 0 65)

/-! ### The whole machine -/

/-- The invariant `State.Safe` (R25, R27, R31, R33, R38, R65, R80, R252, R257, R260, R267) is kept by every step of every agent. -/
def Obligations.StepKeepsSafe : Prop := ∀ s t : State, s.Safe → step s = .next t → t.Safe

/-- R307, R353, R354: from a safe state no step stops: no zero is inverted, no function is asked for outside its domain; and a
fatal stop of the map (R309) is never met. -/
def Obligations.SafeStatesStep : Prop :=
  ∀ s : State, s.Safe → ∃ t, step s = .next t ∧ (t.err = .mapInv → s.err = .mapInv)

/-- R310: the fatal state is left by reset only; otherwise a step keeps the code, the command word, the registers, the flags, the
buffers' output side, `OLEN` and `ITER`. -/
def Obligations.FatalIsSticky : Prop :=
  ∀ (s t : State), s.fsm = .fatal → step s = .next t →
    (∀ es, s.events ≠ .rst :: es) →
    (∀ es data, s.events = .host (.write 0x008 .s32 data) :: es → data.getLsbD 1 = false) →
    t.fsm = .fatal ∧ t.err = s.err ∧ t.cmd = s.cmd ∧ t.regs = s.regs ∧ t.flagT = s.flagT ∧ t.flagN = s.flagN ∧
      t.flagI = s.flagI ∧ t.obuf = s.obuf ∧ t.olen = s.olen ∧ t.iter = s.iter ∧
      (t.done = true → s.done = true)

/-- R251: every step of a busy core in a consistent state is an arrow of the transition table, with the code it names. -/
def Obligations.TransitionTable : Prop :=
  ∀ s t : State, s.Consistent → s.busy = true → coreStep s = .next t → (t.fsm, t.err) ∈ transitions s.fsm

/-- R300, R306 to R309: the codes each command with a legal word can complete with; the numbers of the codes. -/
def Obligations.CodesByCommand : Prop :=
  (∀ (i : Instr) (s t : State), i.wellFormed = true → s.err = .ok → exec i s = .next t →
    t.err = .ok ∨ t.err ∈ codesOf i) ∧
  Code.ok.bits.toNat = 0 ∧ Code.encoding.bits.toNat = 1 ∧ Code.point.bits.toNat = 2 ∧ Code.rng.bits.toNat = 3 ∧
  Code.illegal.bits.toNat = 4 ∧ Code.range.bits.toNat = 5 ∧ Code.domain.bits.toNat = 6 ∧ Code.retry.bits.toNat = 8 ∧
  Code.mapInv.bits.toNat = 9 ∧ (∀ c : Code, c.fatal = true ↔ c = .retry ∨ c = .mapInv)

/-- R305, R310, of the one core step in which a command fails: it writes the code, `DONE`, the state, and for `ENCODE` and `DECODE`
`OLEN`, and nothing else; the hidden registers apart. That `ENCODE` and `DECODE` take several steps is the model's choice
(assumption log 7); `FailedCommandWritesNothing` speaks of the whole command. -/
def Obligations.FailureWritesNothing : Prop :=
  ∀ (i : Instr) (s t : State), s.err = .ok → exec i s = .next t → t.err ≠ .ok →
    t.forgetDatapath =
      ({ s with
        err := t.err, done := true, fsm := if t.err.fatal = true then .fatal else .idle,
        olen := if i = .encode ∨ i = .decode then 0 else s.olen } : State).forgetDatapath

/-- R28: each flag is written by its own commands only, and only when a command completes with success; no command reads a
flag: two states that differ in the flags only have outcomes that differ in the flags only. -/
def Obligations.FlagUse : Prop :=
  (∀ (i : Instr) (s t : State), s.err = .ok → exec i s = .next t →
    (t.flagT ≠ s.flagT → ∃ ra rb, i = .feq ra rb) ∧
    (t.flagN ≠ s.flagN → (∃ rd ra, i = .fsqrt rd ra) ∨ ∃ rd pa j, i = .rsamp rd pa j) ∧
    (t.flagI ≠ s.flagI → (∃ pd pa pb, i = .padd pd pa pb) ∨ (∃ pd ra, i = .fmap pd ra) ∨ i = .decode) ∧
    (t.flagT ≠ s.flagT ∨ t.flagN ≠ s.flagN ∨ t.flagI ≠ s.flagI → t.err = .ok ∧ t.done = true ∧ t.fsm = .idle)) ∧
  (∀ (i : Instr) (s : State) (a b c : Bool),
    mapNext (withFlags false false false) (exec i (withFlags a b c s)) =
      mapNext (withFlags false false false) (exec i s))

/-- R34, R37, R72: what the core's turn never writes (`IBUF`, `ILEN`, `NMAX`, `CMD`, `IE`), and which commands write a field register,
`OBUF`, `OLEN`, `ITER`. -/
def Obligations.CoreWritesOnlyItsOwn : Prop :=
  (∀ s t : State, coreStep s = .next t →
    t.ibuf = s.ibuf ∧ t.ilen = s.ilen ∧ t.nmax = s.nmax ∧ t.cmd = s.cmd ∧ t.ie = s.ie ∧ t.events = s.events ∧
      t.resp = s.resp ∧ t.freeCount = s.freeCount) ∧
  (∀ (i : Instr) (s t : State), exec i s = .next t →
    (∀ n : Fin 8, n.val ∉ destinations i → t.reg n = s.reg n) ∧
    (t.obuf ≠ s.obuf → (∃ ra off, i = .fstb ra off) ∨ i = .encode ∨ i = .decode) ∧
    (t.olen ≠ s.olen → i = .encode ∨ i = .decode) ∧ (t.iter ≠ s.iter → i = .encode))

/-- R305, R310, of a whole command: after any number of turns of the core and the RNG source, from a state with `ERR` clear, if
the command in `CMD` has failed, the state is the one it started from but for the code, `DONE`, `FSM`, `OLEN` of `ENCODE` and
`DECODE`, `ITER` of `ENCODE`, the answers taken, and the hidden registers. (Turns and their list are the model's, assumption
logs 1 and 7.) -/
def Obligations.FailedCommandWritesNothing : Prop :=
  ∀ (n : Nat) (s t : State), s.err = .ok → noHost s.events = true →
    Host.Core.run Sys2Proof.core n s = .next t → t.err ≠ .ok →
    t.forgetDatapath =
      ({ s with
        err := t.err, done := true, fsm := if t.err.fatal = true then .fatal else .idle,
        olen := if decode s.cmd = .ok .encode ∨ decode s.cmd = .ok .decode then 0 else s.olen,
        iter := t.iter, events := t.events } : State).forgetDatapath ∧
    (decode s.cmd ≠ .ok .encode → t.iter = s.iter) ∧
    (∃ es, s.events = es ++ t.events)

end
end

