-- ==== Sys2Proof/Laws/Field.lean ====
section
/-! SUPPORT. The field functions seen in `ZMod P`: each is the ring operation it is named for (R140 to R146, R160). -/
namespace Sys2Proof.Laws
open Sys2Proof.Machine

@[simp] theorem toFp_val (n : Nat) : (toFp n).val = n % fieldP := rfl

@[simp] theorem modP_toFp (n : Nat) : modP (toFp n) = (n : ZMod fieldP) := by
  simp [modP, ZMod.natCast_mod]

theorem modP_injective : Function.Injective modP := by
  intro x y h
  have h' := (ZMod.natCast_eq_natCast_iff' _ _ _).1 h
  rw [Nat.mod_eq_of_lt x.isLt, Nat.mod_eq_of_lt y.isLt] at h'
  exact Fin.ext h'

theorem modP_inj {x y : Fp} : modP x = modP y ↔ x = y := modP_injective.eq_iff

theorem toFp_val_self (x : Fp) : toFp x.val = x := Fin.ext (Nat.mod_eq_of_lt x.isLt)

theorem modP_surjective : Function.Surjective modP := by
  have : NeZero fieldP := ⟨fieldP_pos.ne'⟩
  intro z
  exact ⟨toFp z.val, by simp⟩

@[simp] theorem modP_addP (x y : Fp) : modP (addP x y) = modP x + modP y := by
  simp [addP, modP]

@[simp] theorem modP_mulP (x y : Fp) : modP (mulP x y) = modP x * modP y := by
  simp [mulP, modP]

@[simp] theorem modP_sqrP (x : Fp) : modP (sqrP x) = modP x ^ 2 := by
  simp [sqrP, sq]

@[simp] theorem modP_subP (x y : Fp) : modP (subP x y) = modP x - modP y := by
  have h : y.val ≤ x.val + fieldP := by have := y.isLt; omega
  simp [subP, modP, Nat.cast_sub h]

@[simp] theorem modP_negP (x : Fp) : modP (negP x) = -modP x := by
  simp [negP, modP, Nat.cast_sub x.isLt.le]

@[simp] theorem modP_sqrN (k : Nat) (x : Fp) : modP (sqrN k x) = modP x ^ 2 ^ k := by
  induction k generalizing x with
  | zero => simp [sqrN]
  | succ k ih => rw [sqrN, ih, modP_sqrP, ← pow_mul, pow_succ, mul_comm]

theorem modP_powGo (k : Nat) (b : Fp) (e : Nat) (acc : Fp) (h : e < 2 ^ k) :
    modP (powGo k b e acc) = modP acc * modP b ^ e := by
  induction k generalizing b e acc with
  | zero => obtain rfl : e = 0 := by simpa using h
            simp [powGo]
  | succ k ih =>
    have hb : modP (mulP b b) ^ (e / 2) = modP b ^ (2 * (e / 2)) := by
      rw [modP_mulP, ← sq, ← pow_mul]
    rw [powGo, ih _ _ _ (by omega), hb]
    rcases Nat.mod_two_eq_zero_or_one e with h0 | h1
    · rw [if_neg (by omega), Nat.two_mul_div_two_of_even (Nat.even_iff.2 h0)]
    · rw [if_pos h1, modP_mulP, mul_assoc, ← pow_succ', Nat.two_mul_div_two_add_one_of_odd (Nat.odd_iff.2 h1)]

/-- `powP` is exponentiation for the exponents it is used with. -/
theorem modP_powP (x : Fp) (e : Nat) (h : e < 2 ^ 256) : modP (powP x e) = modP x ^ e := by
  simp [powP, modP_powGo 256 _ _ _ h]

theorem eqP_eq_true (x y : Fp) : eqP x y = true ↔ x = y := by
  simp [eqP, Fin.ext_iff]

end Sys2Proof.Laws
end

