-- ==== Sys2Proof/Laws/Prime.lean ====
section
/-! SUPPORT. The prime of the spec is prime (R160 (d), general knowledge G1): a chain of Pocklington certificates. -/
namespace Sys2Proof.Laws
open Sys2Proof.Machine

/-- `acc * b^e mod n` over the low `k` bits of `e`. -/
def powMod (n : Nat) : Nat → Nat → Nat → Nat → Nat
  | 0, _, _, acc => acc
  | k + 1, b, e, acc => powMod n k (b * b % n) (e / 2) (if e % 2 = 1 then acc * b % n else acc)

theorem powMod_cast {n q : Nat} (hq : q ∣ n) (k b e acc : Nat) (h : e < 2 ^ k) :
    ((powMod n k b e acc : Nat) : ZMod q) = acc * (b : ZMod q) ^ e := by
  have hm : ∀ m : Nat, ((m % n : Nat) : ZMod q) = m := by
    intro m
    rw [ZMod.natCast_eq_natCast_iff]
    exact (Nat.mod_modEq m n).of_dvd hq
  induction k generalizing b e acc with
  | zero => obtain rfl : e = 0 := by simpa using h
            simp [powMod]
  | succ k ih =>
    rw [powMod, ih _ _ _ (by omega), hm]
    push_cast
    rw [← sq, ← pow_mul]
    rcases Nat.mod_two_eq_zero_or_one e with h0 | h1
    · rw [if_neg (by omega), Nat.two_mul_div_two_of_even (Nat.even_iff.2 h0)]
    · rw [if_pos h1, hm, Nat.cast_mul, mul_assoc, ← pow_succ',
        Nat.two_mul_div_two_add_one_of_odd (Nat.odd_iff.2 h1)]

/-- One prime factor `r` of `n - 1` divides `q - 1` for every prime `q` dividing `n`, if `a^(n-1) = 1` and
`a^((n-1)/r) - 1` has the inverse `i` modulo `n`. -/
theorem dvd_pred_of_witness {n q r a i : Nat} (hq : q.Prime) (hqn : q ∣ n) (hr : r.Prime)
    (hrn : r * ((n - 1) / r) = n - 1) (hn : 1 < n) (hlt : n < 2 ^ 256)
    (h1 : powMod n 256 a (n - 1) 1 = 1) (h2 : (powMod n 256 a ((n - 1) / r) 1 + (n - 1)) * i % n = 1) :
    r ∣ q - 1 := by
  have := Fact.mk hq
  have e1 : (a : ZMod q) ^ (n - 1) = 1 := by
    have := powMod_cast hqn 256 a (n - 1) 1 (by omega)
    rw [h1] at this
    simpa using this.symm
  have e2 : (a : ZMod q) ^ ((n - 1) / r) ≠ 1 := by
    intro he
    have hle : (n - 1) / r ≤ n - 1 := Nat.div_le_self _ _
    have hc := powMod_cast hqn 256 a ((n - 1) / r) 1 (by omega)
    rw [he] at hc
    have hz : ((n : Nat) : ZMod q) = 0 := (ZMod.natCast_eq_zero_iff _ _).2 hqn
    have : (((powMod n 256 a ((n - 1) / r) 1 + (n - 1)) * i % n : Nat) : ZMod q) = 1 := by rw [h2]; simp
    rw [(ZMod.natCast_eq_natCast_iff _ _ _).2 ((Nat.mod_modEq _ n).of_dvd hqn)] at this
    push_cast [Nat.cast_sub hn.le] at this
    rw [hc, hz] at this
    simp at this
  have ha : (a : ZMod q) ≠ 0 := by
    intro h0
    rw [h0, zero_pow (by omega)] at e1
    exact zero_ne_one e1
  have hq1 : orderOf (a : ZMod q) ∣ q - 1 := orderOf_dvd_of_pow_eq_one (ZMod.pow_card_sub_one_eq_one ha)
  refine dvd_trans ?_ hq1
  obtain ⟨m, hm⟩ := orderOf_dvd_of_pow_eq_one e1
  have hrm : ¬ r ∣ m := by
    rintro ⟨c, rfl⟩
    have : (n - 1) / r = orderOf (a : ZMod q) * c := by
      rw [hm, show orderOf (a : ZMod q) * (r * c) = r * (orderOf (a : ZMod q) * c) by ring,
        Nat.mul_div_cancel_left _ hr.pos]
    exact e2 (by rw [this, pow_mul, pow_orderOf_eq_one, one_pow])
  have hd : r ∣ orderOf (a : ZMod q) * m := hm ▸ ⟨_, hrn.symm⟩
  exact (hr.dvd_mul.1 hd).resolve_right hrm

/-- Pocklington: if a factor `F` above the square root of `n` divides `q - 1` for every prime `q` dividing `n`, then `n`
is prime. -/
theorem prime_of_factor {n F : Nat} (hn : 1 < n) (hF : n < F * F)
    (h : ∀ q, q.Prime → q ∣ n → F ∣ q - 1) : n.Prime := by
  by_contra hc
  have hq := Nat.minFac_prime hn.ne'
  have h1 := Nat.le_of_dvd (by have := hq.two_le; omega) (h _ hq (Nat.minFac_dvd n))
  have h2 := Nat.minFac_sq_le_self (by omega) hc
  have h3 : F * F ≤ n.minFac ^ 2 := by
    rw [sq]
    exact Nat.mul_le_mul (by omega) (by omega)
  omega

theorem prime_p11 : Nat.Prime 66417393611 :=
  prime_of_factor (F := 3677 * 197) (by norm_num) (by norm_num) fun _ hq hd =>
    Nat.Coprime.mul_dvd_of_dvd_of_dvd (by norm_num)
      (dvd_pred_of_witness (a := 2) (i := 49445954925) hq hd (by norm_num) (by norm_num) (by norm_num) (by norm_num)
        (by decide +kernel) (by decide +kernel))
      (dvd_pred_of_witness (a := 2) (i := 51215684949) hq hd (by norm_num) (by norm_num) (by norm_num) (by norm_num)
        (by decide +kernel) (by decide +kernel))

theorem prime_p14 : Nat.Prime 11290956913871 :=
  prime_of_factor (F := 66417393611) (by norm_num) (by norm_num) fun _ hq hd =>
    dvd_pred_of_witness (a := 2) (i := 4247528171144) hq hd prime_p11 (by norm_num) (by norm_num) (by norm_num)
      (by decide +kernel) (by decide +kernel)

theorem prime_p17 : Nat.Prime 46076956964474543 :=
  prime_of_factor (F := 704251 * 78283) (by norm_num) (by norm_num) fun _ hq hd =>
    Nat.Coprime.mul_dvd_of_dvd_of_dvd (by norm_num)
      (dvd_pred_of_witness (a := 2) (i := 14499061334772664) hq hd (by norm_num) (by norm_num) (by norm_num) (by norm_num)
        (by decide +kernel) (by decide +kernel))
      (dvd_pred_of_witness (a := 2) (i := 41560644167870315) hq hd (by norm_num) (by norm_num) (by norm_num) (by norm_num)
        (by decide +kernel) (by decide +kernel))

theorem prime_p45 : Nat.Prime 774023187263532362759620327192479577272145303 :=
  prime_of_factor (F := 46076956964474543 * 11290956913871) (by norm_num) (by norm_num) fun _ hq hd =>
    Nat.Coprime.mul_dvd_of_dvd_of_dvd (by norm_num)
      (dvd_pred_of_witness (a := 2) (i := 632032488684931311808149900400938671518447982) hq hd prime_p17 (by norm_num) (by norm_num) (by norm_num)
        (by decide +kernel) (by decide +kernel))
      (dvd_pred_of_witness (a := 2) (i := 320823578353898442153005187681585320549721256) hq hd prime_p14 (by norm_num) (by norm_num) (by norm_num)
        (by decide +kernel) (by decide +kernel))

theorem prime_p48 : Nat.Prime 835945042244614951780389953367877943453916927241 :=
  prime_of_factor (F := 774023187263532362759620327192479577272145303) (by norm_num) (by norm_num)
    fun _ hq hd =>
    dvd_pred_of_witness (a := 2) (i := 829816007257442285709994915664332448456883264405) hq hd prime_p45 (by norm_num) (by norm_num) (by norm_num)
      (by decide +kernel) (by decide +kernel)

/-- `P` is prime (R160 (d)). -/
theorem fieldP_prime : Nat.Prime fieldP :=
  prime_of_factor (F := 835945042244614951780389953367877943453916927241) (by norm_num [fieldP])
    (by norm_num [fieldP]) fun _ hq hd =>
    dvd_pred_of_witness (a := 2) (i := 35893950584104763925847036954507472337811148100266109799856099637894785463246) hq hd prime_p48 (by norm_num [fieldP]) (by norm_num [fieldP])
      (by norm_num [fieldP]) (by decide +kernel) (by decide +kernel)

end Sys2Proof.Laws
end

