-- ==== Sys2Proof/Laws/Domain.lean ====
section
/-! SUPPORT. Where the partial functions have a value: an inverse of every non-zero value, a sum of any two valid points,
`X0`, `X1` and `f` off the singular values, the sampler on valid points (R145, R191, R211 to R213, R230, R353, R354). So no
command ever takes a `.fault` arm. -/
namespace Sys2Proof.Laws
open Sys2Proof.Machine

@[simp] theorem withValue_ok {α β : Type} (a : α) (k : α → Except Fault β) : withValue (.ok a) k = k a := rfl
@[simp] theorem withValue_error {α β : Type} (e : Fault) (k : α → Except Fault β) :
    withValue (.error e) k = .error e := rfl

/-- A value computed from the value of a partial function. -/
theorem withValue_eq_ok {α β : Type} {v : Except Fault α} {k : α → Except Fault β} {b : β}
    (h : withValue v k = .ok b) : ∃ a, v = .ok a ∧ k a = .ok b := by
  cases v with
  | error e => cases h
  | ok a => exact ⟨a, rfl, h⟩

/-- Fermat: `x^(P-2)` is the inverse. -/
theorem pow_eq_inv (z : ZMod fieldP) (h : z ≠ 0) : z ^ (fieldP - 2) = z⁻¹ := by
  have := Fact.mk fieldP_prime
  have h1 : z ^ (fieldP - 1) = 1 := ZMod.pow_card_sub_one_eq_one h
  have h2 : z ^ (fieldP - 2) * z = 1 := by
    rw [← pow_succ, ← h1]
    congr 1
  exact eq_inv_of_mul_eq_one_left h2

theorem ne_zero_iff {x : Fp} : x ≠ toFp 0 ↔ modP x ≠ 0 := by
  rw [ne_eq, ← modP_inj]
  simp

/-- `inv_p` of a non-zero value is its inverse. -/
theorem invP_ok {x : Fp} (h : x ≠ toFp 0) : ∃ y, invP x = .ok y ∧ modP y = (modP x)⁻¹ := by
  refine ⟨powP x (fieldP - 2), by simp only [invP, if_neg h], ?_⟩
  rw [modP_powP _ _ (by decide), pow_eq_inv _ (ne_zero_iff.1 h)]

/-- A value of `inv_p` is the inverse of a non-zero argument. -/
theorem invP_eq_ok {x y : Fp} (h : invP x = .ok y) : modP x ≠ 0 ∧ modP y = (modP x)⁻¹ := by
  by_cases h0 : x = toFp 0
  · simp [invP, h0] at h
  · obtain ⟨z, hz, hz'⟩ := invP_ok h0
    rw [hz] at h
    obtain rfl : z = y := by simpa using h
    exact ⟨ne_zero_iff.1 h0, hz'⟩

/-- A value of `sqrt_p` squares to the argument. -/
theorem sqrtP_sq {x c : Fp} (h : sqrtP x = some c) : modP c ^ 2 = modP x := by
  simp only [sqrtP] at h
  split at h
  · next hc =>
    obtain rfl : _ = c := by simpa using h
    rw [← modP_sqrP, hc]
  · cases h

theorem modP_curveG (x : Fp) : modP (curveG x) = modP x ^ 3 - 3 * modP x + modP curveB := by
  simp [curveG]
  ring

@[simp] theorem modP_curveA : modP curveA = -3 := by
  have : ((fieldP - 3 : ℕ) : ZMod fieldP) + 3 = 0 := by
    rw [show (3 : ZMod fieldP) = ((3 : ℕ) : ZMod fieldP) by simp, ← Nat.cast_add,
      Nat.sub_add_cancel (by decide), ZMod.natCast_self]
  rw [curveA, modP_toFp]
  exact eq_neg_of_add_eq_zero_left this

theorem infinity_valid : infinity.valid = true := rfl

/-- Validity in the field: infinity, or the curve equation (R190). -/
theorem valid_iff (p : Point) :
    p.valid = true ↔ p = infinity ∨ modP p.y ^ 2 = modP p.x ^ 3 - 3 * modP p.x + modP curveB := by
  rw [← modP_curveG, ← modP_sqrP, modP_inj]
  simp [Point.valid]

theorem curveB_ne_zero : curveB ≠ toFp 0 := by decide

/-- The two cases of validity exclude each other (R190): a valid point other than infinity is on the curve. -/
theorem valid_onCurve {p : Point} (h : p.valid = true) (h0 : p ≠ infinity) :
    modP p.y ^ 2 = modP p.x ^ 3 - 3 * modP p.x + modP curveB :=
  ((valid_iff p).1 h).resolve_left h0

theorem neg_valid {p : Point} (h : p.valid = true) : p.neg.valid = true := by
  rw [valid_iff] at *
  rcases h with rfl | h
  · exact .inl (by decide)
  · exact .inr (by simpa [Point.neg] using h)

theorem two_ne_zero : (2 : ZMod fieldP) ≠ 0 := by
  have := (ne_zero_iff (x := toFp 2)).1 (by decide)
  simpa using this

/-- Two valid points have a sum (R191): neither inversion meets 0. -/
theorem affineAdd_ok {p q : Point} (hp : p.valid = true) (hq : q.valid = true) : ∃ r, affineAdd p q = .ok r := by
  have := Fact.mk fieldP_prime
  rw [affineAdd, if_neg (by simp [hp, hq])]
  split_ifs with h1 h2 h3 h4
  · exact ⟨q, rfl⟩
  · exact ⟨p, rfl⟩
  · exact ⟨infinity, rfl⟩
  · have e1 := valid_onCurve hp h1
    have e2 := valid_onCurve hq h2
    have hy : p.y ≠ negP q.y := fun h => h3 ⟨h4, h⟩
    have hy' : modP p.y ≠ -modP q.y := by rwa [← modP_negP, ne_eq, modP_inj]
    have hsum : modP p.y = modP q.y := by
      have : (modP p.y - modP q.y) * (modP p.y + modP q.y) = 0 := by
        rw [h4] at e1
        linear_combination e1 - e2
      rcases mul_eq_zero.1 this with h | h
      · exact sub_eq_zero.1 h
      · exact absurd (eq_neg_of_add_eq_zero_left h) hy'
    have hne : mulP (toFp 2) p.y ≠ toFp 0 := by
      rw [ne_zero_iff, modP_mulP]
      refine mul_ne_zero (by simpa using two_ne_zero) fun h => hy' ?_
      rw [← hsum, h, neg_zero]
    obtain ⟨i, hi, -⟩ := invP_ok hne
    rw [hi]
    exact ⟨_, withValue_ok _ _⟩
  · have hne : subP q.x p.x ≠ toFp 0 := by
      rw [ne_zero_iff, modP_subP, sub_ne_zero, ne_eq, modP_inj]
      exact fun h => h4 h.symm
    obtain ⟨i, hi, -⟩ := invP_ok hne
    rw [hi]
    exact ⟨_, withValue_ok _ _⟩

theorem affineAdd_not_fault {p q : Point} (hp : p.valid = true) (hq : q.valid = true) (e : Fault) :
    affineAdd p q ≠ .error e := by
  obtain ⟨r, h⟩ := affineAdd_ok hp hq
  simp [h]

/-- The singular values in the field. -/
theorem singular_iff (u : Fp) : singular u = true ↔ modP u = 0 ∨ modP u = 1 ∨ modP u = -1 := by
  have h0 : u = toFp 0 ↔ modP u = 0 := by rw [← modP_inj]; simp
  have h1 : u = toFp 1 ↔ modP u = 1 := by rw [← modP_inj]; simp
  have h2 : u = toFp (fieldP - 1) ↔ modP u = -1 := by
    rw [← modP_inj, modP_toFp, Nat.cast_sub fieldP_pos]
    simp
  simp [singular, h0, h1, h2, or_assoc]

/-- The denominator of `X0` vanishes at the singular values only (R211). -/
theorem mapDenominator_ne_zero {u : Fp} (h : singular u = false) : modP (mapDenominator u) ≠ 0 := by
  have := Fact.mk fieldP_prime
  have h' : ¬ (modP u = 0 ∨ modP u = 1 ∨ modP u = -1) := by rw [← singular_iff, h]; simp
  simp only [not_or] at h'
  obtain ⟨h0, h1, h2⟩ := h'
  have : modP (mapDenominator u) = modP u ^ 2 * (modP u - 1) * (modP u + 1) := by
    simp [mapDenominator]
    ring
  rw [this]
  refine mul_ne_zero (mul_ne_zero (pow_ne_zero _ h0) (sub_ne_zero.2 h1)) fun h => h2 ?_
  exact eq_neg_of_add_eq_zero_left h

theorem curveA_ne_zero : curveA ≠ toFp 0 := by decide

/-- `X0` off the singular values (R211). -/
theorem x0P_ok {u : Fp} (h : singular u = false) :
    ∃ x, x0P u = .ok x ∧ modP x = -(modP curveB * (modP curveA)⁻¹) * (1 + (modP (mapDenominator u))⁻¹) := by
  obtain ⟨ia, hia, ea⟩ := invP_ok curveA_ne_zero
  obtain ⟨it, hit, et⟩ := invP_ok (ne_zero_iff.2 (mapDenominator_ne_zero h))
  refine ⟨_, by rw [x0P, hia, withValue_ok, hit, withValue_ok], ?_⟩
  simp only [modP_mulP, modP_negP, modP_addP, ea, et, modP_toFp, Nat.cast_one]

/-- `X1` off the singular values (R212). -/
theorem x1P_ok {u : Fp} (h : singular u = false) :
    ∃ x x', x0P u = .ok x ∧ x1P u = .ok x' ∧ modP x' = -modP u ^ 2 * modP x := by
  obtain ⟨x, hx, -⟩ := x0P_ok h
  refine ⟨x, mulP (negP (sqrP u)) x, hx, by rw [x1P, hx, withValue_ok], ?_⟩
  simp

/-- `f` has a value or its fatal outcome everywhere (R213). -/
theorem mapF_ok (u : Fp) : ∃ o, mapF u = .ok o := by
  by_cases h : singular u = true
  · exact ⟨_, by rw [mapF, if_pos h]⟩
  · obtain ⟨x, x', hx, hx', -⟩ := x1P_ok (u := u) (by simpa using h)
    rw [mapF, if_neg h, hx, withValue_ok]
    cases sqrtP (curveG x) with
    | some c => exact ⟨_, rfl⟩
    | none => exact ⟨_, by rw [Option.elim_none, secondBranch, hx', withValue_ok]⟩

theorem mapF_not_fault (u : Fp) (e : Fault) : mapF u ≠ .error e := by
  obtain ⟨o, h⟩ := mapF_ok u
  simp [h]

/-- The sampler has an answer for every valid point other than infinity and every selector (R230). -/
theorem rSamp_ok {p : Point} (h : p.valid = true) (h0 : p ≠ infinity) (j : BitVec 2) : ∃ o, rSamp p j = .ok o := by
  obtain ⟨ib, hib, -⟩ := invP_ok curveB_ne_zero
  obtain ⟨i2, hi2, -⟩ := invP_ok (x := toFp 2) (by decide)
  have hf : ∀ w y, ∃ o, rootFactor w y = .ok o := by
    intro w y
    rw [rootFactor]
    split_ifs with h1 h2
    · exact ⟨_, rfl⟩
    · obtain ⟨k, hk, -⟩ := invP_ok h2
      exact ⟨_, by rw [hk, withValue_ok]⟩
    · exact ⟨_, by rw [hi2, withValue_ok]⟩
  rw [rSamp, if_neg (by simp [h, h0]), omegaP, hib, withValue_ok, withValue_ok]
  cases sqrtP _ with
  | none => exact ⟨_, rfl⟩
  | some c =>
    obtain ⟨o, ho⟩ := hf (addP (toFp 1) (mulP (mulP curveA p.x) ib)) p.y
    exact ⟨_, by rw [Option.elim_some, ho, withValue_ok]⟩

theorem rSamp_not_fault {p : Point} (h : p.valid = true) (h0 : p ≠ infinity) (j : BitVec 2) (e : Fault) :
    rSamp p j ≠ .error e := by
  obtain ⟨o, ho⟩ := rSamp_ok h h0 j
  simp [ho]

end Sys2Proof.Laws
end

