-- ==== Sys2Proof/Laws/Memory.lean ====
section
/-! SUPPORT. The buffers: reading after writing, byte strings, and the canonical form, which every operation keeps. -/
namespace Sys2Proof.Laws
open Sys2Proof.Machine

/-- The parts of the canonical form of a non-empty buffer. -/
theorem wf_cons {a : Nat} {x : Byte} {m : Memory} (h : Memory.wf ((a, x) :: m) = true) :
    a < bufSize ∧ x ≠ 0 ∧ (∀ c ∈ m, a < c.1) ∧ m.wf = true := by
  simp only [Memory.wf, Bool.and_eq_true, List.all_eq_true, decide_eq_true_eq, bne_iff_ne] at h
  exact ⟨h.1.1.1, h.1.1.2, h.1.2, h.2⟩

theorem wf_cons_intro {a : Nat} {x : Byte} {m : Memory} (h1 : a < bufSize) (h2 : x ≠ 0)
    (h3 : ∀ c ∈ m, a < c.1) (h4 : m.wf = true) : Memory.wf ((a, x) :: m) = true := by
  simp only [Memory.wf, Bool.and_eq_true, List.all_eq_true, decide_eq_true_eq, bne_iff_ne]
  exact ⟨⟨⟨h1, h2⟩, h3⟩, h4⟩

/-- An offset below every listed one reads as 0. -/
theorem read_below (m : Memory) (a : Nat) (h : ∀ c ∈ m, a < c.1) : m.read a = 0 := by
  induction m with
  | nil => rfl
  | cons c m ih =>
    have := h c (by simp)
    rw [Memory.read, if_neg (by omega)]
    exact ih fun d hd => h d (by simp [hd])

/-- Reading after a write: the written byte there, the old byte elsewhere. -/
theorem read_write (m : Memory) (a b : Nat) (x : Byte) (h : m.wf = true) :
    (m.write a x).read b = if b = a then x else m.read b := by
  induction m with
  | nil =>
    rw [Memory.write]
    split_ifs with hx hb <;> simp_all [Memory.read]
  | cons c m ih =>
    obtain ⟨c, w⟩ := c
    obtain ⟨-, -, hlt, hwf⟩ := wf_cons h
    specialize ih hwf
    rw [Memory.write]
    rcases Nat.lt_trichotomy a c with hac | rfl | hac
    · rw [if_pos hac]
      have hb : b = a → Memory.read ((c, w) :: m) b = 0 := by
        rintro rfl
        exact read_below _ _ fun d hd => by
          rcases List.mem_cons.1 hd with rfl | hd
          · exact hac
          · exact hac.trans (hlt d hd)
      split_ifs with hx hba hba
      · rw [hb hba, hx]
      · rfl
      · rw [Memory.read, if_pos hba]
      · rw [Memory.read, if_neg hba]
    · rw [if_neg (lt_irrefl a), if_pos rfl]
      split_ifs with hx hba hba
      · subst hba
        rw [hx]
        exact read_below m b hlt
      · rw [Memory.read, if_neg hba]
      · rw [Memory.read, if_pos hba]
      · rw [Memory.read, if_neg hba, Memory.read, if_neg hba]
    · rw [if_neg (by omega), if_neg (by omega), Memory.read, ih, Memory.read]
      split_ifs <;> first | rfl | omega

theorem mem_write {m : Memory} {a : Nat} {x : Byte} {c : Host.Cell} (h : c ∈ m.write a x) : c.1 = a ∨ c ∈ m := by
  induction m with
  | nil =>
    rw [Memory.write] at h
    split_ifs at h <;> simp_all
  | cons d m ih =>
    obtain ⟨d, w⟩ := d
    rw [Memory.write] at h
    split_ifs at h with h1 h2 h3 h4
    · exact .inr h
    · rcases List.mem_cons.1 h with rfl | h
      · exact .inl rfl
      · exact .inr h
    · exact .inr (by simp [h])
    · rcases List.mem_cons.1 h with rfl | h
      · exact .inl rfl
      · exact .inr (by simp [h])
    · rcases List.mem_cons.1 h with rfl | h
      · exact .inr (by simp)
      · exact (ih h).imp id fun h => by simp [h]

/-- A write inside the buffer keeps the canonical form. -/
theorem write_wf (m : Memory) (a : Nat) (x : Byte) (ha : a < bufSize) (h : m.wf = true) :
    (m.write a x).wf = true := by
  induction m with
  | nil =>
    rw [Memory.write]
    split_ifs with hx
    · rfl
    · exact wf_cons_intro ha hx (by simp) rfl
  | cons c m ih =>
    obtain ⟨c, w⟩ := c
    obtain ⟨hc, hw, hlt, hwf⟩ := wf_cons h
    rw [Memory.write]
    split_ifs with h1 h2 h3 h4
    · exact h
    · refine wf_cons_intro ha h2 (fun d hd => ?_) h
      rcases List.mem_cons.1 hd with rfl | hd
      · exact h1
      · exact h1.trans (hlt d hd)
    · exact hwf
    · exact wf_cons_intro ha h4 (h3 ▸ hlt) hwf
    · refine wf_cons_intro hc hw (fun d hd => ?_) (ih hwf)
      rcases mem_write hd with hd | hd
      · omega
      · exact hlt d hd

/-- Reading after writing a byte string: its bytes at its offsets, the old bytes elsewhere. -/
theorem read_writeBytes (m : Memory) (off : Nat) (bs : List Byte) (b : Nat) (h : m.wf = true)
    (hb : off + bs.length ≤ bufSize) :
    (m.writeBytes off bs).read b =
      if off ≤ b ∧ b < off + bs.length then bs.getD (b - off) 0 else m.read b := by
  induction bs generalizing m off with
  | nil => rw [Memory.writeBytes, if_neg (by simp)]
  | cons x bs ih =>
    simp only [List.length_cons] at hb ⊢
    rw [Memory.writeBytes, ih _ _ (write_wf m off x (by omega) h) (by omega), read_write _ _ _ _ h]
    by_cases h1 : b = off
    · subst h1
      rw [if_neg (by omega), if_pos rfl, if_pos (by omega), Nat.sub_self]
      rfl
    · rw [if_neg h1]
      by_cases h2 : off + 1 ≤ b ∧ b < off + 1 + bs.length
      · rw [if_pos h2, if_pos (by omega), show b - off = (b - (off + 1)) + 1 by omega, List.getD_cons_succ]
      · rw [if_neg h2, if_neg (by omega)]

/-- Writing a byte string inside the buffer keeps the canonical form. -/
theorem writeBytes_wf (m : Memory) (off : Nat) (bs : List Byte) (h : m.wf = true)
    (hb : off + bs.length ≤ bufSize) : (m.writeBytes off bs).wf = true := by
  induction bs generalizing m off with
  | nil => exact h
  | cons x bs ih =>
    simp only [List.length_cons] at hb
    exact ih _ _ (write_wf m off x (by omega) h) (by omega)

/-- The reset buffers have the canonical form. -/
theorem reset_wf : State.reset.ibuf.wf = true ∧ State.reset.obuf.wf = true := ⟨rfl, rfl⟩

/-- Canonical buffers that read the same everywhere are the same data. -/
theorem eq_of_read (m n : Memory) (hm : m.wf = true) (hn : n.wf = true) (h : ∀ a, m.read a = n.read a) :
    m = n := by
  induction m generalizing n with
  | nil =>
    cases n with
    | nil => rfl
    | cons c n =>
      obtain ⟨c, w⟩ := c
      obtain ⟨-, hw, -, -⟩ := wf_cons hn
      have := h c
      simp [Memory.read] at this
      exact absurd this.symm hw
  | cons c m ih =>
    obtain ⟨c, w⟩ := c
    obtain ⟨-, hw, hlt, hwf⟩ := wf_cons hm
    cases n with
    | nil =>
      have := h c
      simp [Memory.read] at this
      exact absurd this hw
    | cons d n =>
      obtain ⟨d, y⟩ := d
      obtain ⟨-, hy, hlt', hwf'⟩ := wf_cons hn
      have hcd : c = d := by
        rcases Nat.lt_trichotomy c d with hcd | hcd | hcd
        · have h1 := h c
          rw [Memory.read, if_pos rfl, read_below _ _ fun e he => ?_] at h1
          · exact absurd h1 hw
          · rcases List.mem_cons.1 he with rfl | he
            · exact hcd
            · exact hcd.trans (hlt' e he)
        · exact hcd
        · have h1 := h d
          rw [Memory.read.eq_2 d d, if_pos rfl, read_below _ _ fun e he => ?_] at h1
          · exact absurd h1.symm hy
          · rcases List.mem_cons.1 he with rfl | he
            · exact hcd
            · exact hcd.trans (hlt e he)
      subst hcd
      have hwy : w = y := by simpa [Memory.read] using h c
      subst hwy
      rw [ih n hwf hwf' fun a => ?_]
      by_cases ha : a = c
      · subst ha
        rw [read_below _ _ hlt, read_below _ _ hlt']
      · simpa [Memory.read, ha] using h a

@[simp] theorem length_readBytes (m : Memory) (off n : Nat) : (m.readBytes off n).length = n := by
  simp [Memory.readBytes]

@[simp] theorem length_toBytes (x : Fp) : (toBytes x).length = 32 := by simp [toBytes]

theorem getElem_toBytes (x : Fp) (i : Nat) (h : i < 32) : (toBytes x)[i]'(by simpa using h) = byteOf x i := by
  simp [toBytes]

end Sys2Proof.Laws
end

