-- ==== Sys2Proof/Laws/NoRoot.lean ====
section
/-! SUPPORT. The curve polynomial `g` has no root in the field (R190, R210): `x^P - x` is invertible modulo `g`, while a root
of `g` would make it 0 (Fermat). So no point of the curve has `y = 0`, and the complete addition has no exceptional
case (R196). -/
namespace Sys2Proof.Laws
open Sys2Proof.Machine

/-- A residue modulo `g`: `c0 + c1 X + c2 X^2`. -/
structure Residue where
  c0 : Fp
  c1 : Fp
  c2 : Fp
deriving DecidableEq, Repr

/-- The product modulo `g`, that is with `X^3 = 3X - b`. -/
def Residue.mul (s t : Residue) : Residue :=
  let c3 := addP (mulP s.c1 t.c2) (mulP s.c2 t.c1)
  let c4 := mulP s.c2 t.c2
  ⟨subP (mulP s.c0 t.c0) (mulP curveB c3),
   subP (addP (addP (mulP s.c0 t.c1) (mulP s.c1 t.c0)) (mulP (toFp 3) c3)) (mulP curveB c4),
   addP (addP (addP (mulP s.c0 t.c2) (mulP s.c1 t.c1)) (mulP s.c2 t.c0)) (mulP (toFp 3) c4)⟩

/-- The value at `z`. -/
def Residue.eval (s : Residue) (z : ZMod fieldP) : ZMod fieldP := modP s.c0 + modP s.c1 * z + modP s.c2 * z ^ 2

/-- Square and multiply over the low `k` bits of `e`. -/
def Residue.powGo : Nat → Residue → Nat → Residue → Residue
  | 0, _, _, acc => acc
  | k + 1, b, e, acc => Residue.powGo k (b.mul b) (e / 2) (if e % 2 = 1 then acc.mul b else acc)

/-- `X` and `1` modulo `g`. -/
def Residue.var : Residue := ⟨toFp 0, toFp 1, toFp 0⟩
def Residue.unit : Residue := ⟨toFp 1, toFp 0, toFp 0⟩

/-- `X^P - X` modulo `g`. -/
def Residue.frobenius : Residue :=
  let h := Residue.powGo 256 Residue.var fieldP Residue.unit
  ⟨h.c0, subP h.c1 (toFp 1), h.c2⟩

/-- Its inverse modulo `g`. -/
def Residue.frobeniusInverse : Residue :=
  ⟨toFp 0xA969487079F1744798BF0DE6FDED091B66E9D328EB0645FE5D979D1339B7F47F,
   toFp 0xA4A08891884100C13323460107A8D28EEDE4387FA3E6E9BFEBEC9F6D72D0B5CC,
   toFp 0x4CDE11CF86CB876CD59CF0115813C55AF0ECD3CDA667D98BB9A347A56AA74A6D⟩

theorem frobenius_mul_inverse : Residue.frobenius.mul Residue.frobeniusInverse = Residue.unit := by decide +kernel

theorem eval_mul (s t : Residue) (z : ZMod fieldP) (h : z ^ 3 = 3 * z - modP curveB) :
    (s.mul t).eval z = s.eval z * t.eval z := by
  simp only [Residue.mul, Residue.eval, modP_addP, modP_subP, modP_mulP, modP_toFp]
  push_cast
  linear_combination (-(modP s.c1 * modP t.c2 + modP s.c2 * modP t.c1) - modP s.c2 * modP t.c2 * z) * h

theorem eval_powGo (k : Nat) (b : Residue) (e : Nat) (acc : Residue) (z : ZMod fieldP)
    (h : z ^ 3 = 3 * z - modP curveB) (he : e < 2 ^ k) :
    (Residue.powGo k b e acc).eval z = acc.eval z * b.eval z ^ e := by
  induction k generalizing b e acc with
  | zero =>
    obtain rfl : e = 0 := by simpa using he
    simp [Residue.powGo]
  | succ k ih =>
    have hb : (b.mul b).eval z ^ (e / 2) = b.eval z ^ (2 * (e / 2)) := by
      rw [eval_mul _ _ _ h, ← sq, ← pow_mul]
    rw [Residue.powGo, ih _ _ _ (by omega), hb]
    rcases Nat.mod_two_eq_zero_or_one e with h0 | h1
    · rw [if_neg (by omega), Nat.two_mul_div_two_of_even (Nat.even_iff.2 h0)]
    · rw [if_pos h1, eval_mul _ _ _ h, mul_assoc, ← pow_succ', Nat.two_mul_div_two_add_one_of_odd (Nat.odd_iff.2 h1)]

theorem eval_frobenius (z : ZMod fieldP) (h : z ^ 3 = 3 * z - modP curveB) : Residue.frobenius.eval z = 0 := by
  have := Fact.mk fieldP_prime
  have h1 := eval_powGo 256 Residue.var fieldP Residue.unit z h (by decide)
  have hv : Residue.var.eval z = z := by simp [Residue.var, Residue.eval]
  have hu : Residue.unit.eval z = 1 := by simp [Residue.unit, Residue.eval]
  rw [hv, hu, ZMod.pow_card, one_mul] at h1
  simp only [Residue.eval] at h1
  simp only [Residue.frobenius, Residue.eval, modP_subP, modP_toFp]
  push_cast
  linear_combination h1

/-- `g` has no root. -/
theorem curveG_ne_zero (x : Fp) : modP (curveG x) ≠ 0 := by
  have := Fact.mk fieldP_prime
  intro h0
  rw [modP_curveG] at h0
  have h : modP x ^ 3 = 3 * modP x - modP curveB := by linear_combination h0
  have h1 := eval_mul Residue.frobenius Residue.frobeniusInverse _ h
  rw [frobenius_mul_inverse, eval_frobenius _ h, zero_mul] at h1
  simp [Residue.unit, Residue.eval] at h1

/-- No valid point but infinity has `y = 0` (R190). -/
theorem valid_y_ne_zero {p : Point} (h : p.valid = true) (h0 : p ≠ infinity) : modP p.y ≠ 0 := by
  intro hy
  have := valid_onCurve h h0
  rw [← modP_curveG, hy] at this
  exact curveG_ne_zero p.x (by simpa using this.symm)

end Sys2Proof.Laws
end

