-- ==== Sys2Proof/Laws/Operands.lean ====
section
/-! SUPPORT. The operand forms: which fields name something, and once for each format everything it can do (R112, R103 to
R111). -/
namespace Sys2Proof.Laws
open Sys2Proof.Machine

theorem dstOf_eq_some {r : RegIdx} {d : Fin 8} : dstOf r = some d ↔ r.toNat = d.val := by
  rw [dstOf]
  split_ifs with h
  · simp [Fin.ext_iff]
  · simp only [false_iff]
    omega

theorem pointOf_eq_some {p : PointIdx} {k : Fin 4} : pointOf p = some k ↔ p.toNat = k.val := by
  rw [pointOf]
  split_ifs with h
  · simp [Fin.ext_iff]
  · simp only [false_iff]
    omega

theorem isDst_iff (r : RegIdx) : isDst r = true ↔ ∃ d, dstOf r = some d := by
  simp only [isDst, decide_eq_true_eq, dstOf_eq_some]
  exact ⟨fun h => ⟨⟨r.toNat, h⟩, rfl⟩, fun ⟨d, h⟩ => h ▸ d.isLt⟩

theorem isPoint_iff (p : PointIdx) : isPoint p = true ↔ ∃ k, pointOf p = some k := by
  simp only [isPoint, decide_eq_true_eq, pointOf_eq_some]
  exact ⟨fun h => ⟨⟨p.toNat, h⟩, rfl⟩, fun ⟨d, h⟩ => h ▸ d.isLt⟩

/-- A source field has a value exactly when it is not the reserved index 15 (R112). -/
theorem isSrc_iff (s : State) (r : RegIdx) : isSrc r = true ↔ ∃ x, s.source r = some x := by
  have h : ∀ r : RegIdx, isSrc r = true ↔ ((dstOf r).isSome = true ∨ (constReg r).isSome = true) := by decide
  rw [h, State.source]
  cases dstOf r with
  | some i => simp
  | none => simp [Option.isSome_iff_exists]

/-- A source that is a field register does not depend on anything but that register. -/
theorem source_congr {s t : State} (r : RegIdx) (h : t.regs = s.regs) : t.source r = s.source r := by
  simp only [State.source, State.reg, h]

theorem point_congr {s t : State} (k : Fin 4) (h : t.regs = s.regs) : t.point k = s.point k := by
  simp only [State.point, State.reg, h]

variable {s : State}

theorem withR3_ok {rd ra rb : RegIdx} {k : Fin 8 → Fp → Fp → Out} {d : Fin 8} {a b : Fp}
    (hd : dstOf rd = some d) (ha : s.source ra = some a) (hb : s.source rb = some b) :
    withR3 rd ra rb s k = k d a b := by simp only [withR3, hd, ha, hb]

theorem withR3_cases (rd ra rb : RegIdx) (s : State) (k : Fin 8 → Fp → Fp → Out) :
    (∃ d a b, dstOf rd = some d ∧ s.source ra = some a ∧ s.source rb = some b ∧ withR3 rd ra rb s k = k d a b) ∨
      withR3 rd ra rb s k = raise .illegal s := by
  rw [withR3]
  split
  · next hd ha hb => exact .inl ⟨_, _, _, hd, ha, hb, rfl⟩
  · exact .inr rfl

theorem withR2_ok {rd ra : RegIdx} {k : Fin 8 → Fp → Out} {d : Fin 8} {a : Fp}
    (hd : dstOf rd = some d) (ha : s.source ra = some a) : withR2 rd ra s k = k d a := by
  simp only [withR2, hd, ha]

theorem withR2_cases (rd ra : RegIdx) (s : State) (k : Fin 8 → Fp → Out) :
    (∃ d a, dstOf rd = some d ∧ s.source ra = some a ∧ withR2 rd ra s k = k d a) ∨
      withR2 rd ra s k = raise .illegal s := by
  rw [withR2]
  split
  · next hd ha => exact .inl ⟨_, _, hd, ha, rfl⟩
  · exact .inr rfl

theorem withC_ok {ra rb : RegIdx} {k : Fp → Fp → Out} {a b : Fp}
    (ha : s.source ra = some a) (hb : s.source rb = some b) : withC ra rb s k = k a b := by
  simp only [withC, ha, hb]

theorem withC_cases (ra rb : RegIdx) (s : State) (k : Fp → Fp → Out) :
    (∃ a b, s.source ra = some a ∧ s.source rb = some b ∧ withC ra rb s k = k a b) ∨
      withC ra rb s k = raise .illegal s := by
  rw [withC]
  split
  · next ha hb => exact .inl ⟨_, _, ha, hb, rfl⟩
  · exact .inr rfl

theorem withDst_ok {rd : RegIdx} {k : Fin 8 → Out} {d : Fin 8} (hd : dstOf rd = some d) :
    withDst rd s k = k d := by simp only [withDst, hd]

theorem withDst_cases (rd : RegIdx) (s : State) (k : Fin 8 → Out) :
    (∃ d, dstOf rd = some d ∧ withDst rd s k = k d) ∨ withDst rd s k = raise .illegal s := by
  rw [withDst]
  split
  · next hd => exact .inl ⟨_, hd, rfl⟩
  · exact .inr rfl

theorem withSrc_ok {ra : RegIdx} {k : Fp → Out} {a : Fp} (ha : s.source ra = some a) :
    withSrc ra s k = k a := by simp only [withSrc, ha]

theorem withSrc_cases (ra : RegIdx) (s : State) (k : Fp → Out) :
    (∃ a, s.source ra = some a ∧ withSrc ra s k = k a) ∨ withSrc ra s k = raise .illegal s := by
  rw [withSrc]
  split
  · next ha => exact .inl ⟨_, ha, rfl⟩
  · exact .inr rfl

theorem withP3_ok {pd pa pb : PointIdx} {k : Fin 4 → Point → Point → Out} {d a b : Fin 4}
    (hd : pointOf pd = some d) (ha : pointOf pa = some a) (hb : pointOf pb = some b) :
    withP3 pd pa pb s k = k d (s.point a) (s.point b) := by simp only [withP3, hd, ha, hb]

theorem withP3_cases (pd pa pb : PointIdx) (s : State) (k : Fin 4 → Point → Point → Out) :
    (∃ d a b, pointOf pd = some d ∧ pointOf pa = some a ∧ pointOf pb = some b ∧
      withP3 pd pa pb s k = k d (s.point a) (s.point b)) ∨ withP3 pd pa pb s k = raise .illegal s := by
  rw [withP3]
  split
  · next hd ha hb => exact .inl ⟨_, _, _, hd, ha, hb, rfl⟩
  · exact .inr rfl

theorem withM_ok {pd : PointIdx} {ra : RegIdx} {k : Fin 4 → Fp → Out} {d : Fin 4} {a : Fp}
    (hd : pointOf pd = some d) (ha : s.source ra = some a) : withM pd ra s k = k d a := by
  simp only [withM, hd, ha]

theorem withM_cases (pd : PointIdx) (ra : RegIdx) (s : State) (k : Fin 4 → Fp → Out) :
    (∃ d a, pointOf pd = some d ∧ s.source ra = some a ∧ withM pd ra s k = k d a) ∨
      withM pd ra s k = raise .illegal s := by
  rw [withM]
  split
  · next hd ha => exact .inl ⟨_, _, hd, ha, rfl⟩
  · exact .inr rfl

theorem withS_ok {rd : RegIdx} {pa : PointIdx} {k : Fin 8 → Point → Out} {d : Fin 8} {a : Fin 4}
    (hd : dstOf rd = some d) (ha : pointOf pa = some a) : withS rd pa s k = k d (s.point a) := by
  simp only [withS, hd, ha]

theorem withS_cases (rd : RegIdx) (pa : PointIdx) (s : State) (k : Fin 8 → Point → Out) :
    (∃ d a, dstOf rd = some d ∧ pointOf pa = some a ∧ withS rd pa s k = k d (s.point a)) ∨
      withS rd pa s k = raise .illegal s := by
  rw [withS]
  split
  · next hd ha => exact .inl ⟨_, _, hd, ha, rfl⟩
  · exact .inr rfl

end Sys2Proof.Laws
end

