-- ==== Sys2Proof/Laws/PerInstr.lean ====
section
/-! SUPPORT. The family `EncodeRow`: the word of a well-formed command selects that command's row of the opcode map and
carries no reserved source index (R113, R114). -/
namespace Sys2Proof.Laws.EncodeRow
open Sys2Proof

/-- The word of a well-formed command satisfies `(w AND mask) = match` of its row, and no source field is 15. -/
def Statement (i : Instr) : Prop :=
  i.wellFormed = true → i.opcode.selects (encode i) = true ∧ i.sourceFields.contains 15 = false

theorem destination_high {r : RegIdx} (h : isDst r = true) : r[3] = false := by
  revert r; decide

theorem point_high {p : PointIdx} (h : isPoint p = true) : p[2] = false ∧ p[3] = false := by
  revert p; decide

theorem source_not_reserved {r : RegIdx} (h : isSrc r = true) : ((15 : BitVec 4) == r) = false := by
  revert r; decide

/-- A word selects a row when it has the row's `match` bits under the row's `mask`. -/
theorem selects_of_bits {o : Opcode} {w : Word}
    (h : ∀ k (hk : k < 32), (w[k] && o.mask[k]) = o.matchBits[k]) : o.selects w = true := by
  rw [Opcode.selects, beq_iff_eq]
  exact BitVec.eq_of_getElem_eq fun k hk => by rw [BitVec.getElem_and, h k hk]

theorem nop : Statement .nop := by
  intro _
  decide

theorem fadd (rd : RegIdx) (ra : RegIdx) (rb : RegIdx) : Statement (.fadd rd ra rb) := by
  intro h
  simp only [Instr.wellFormed, Bool.and_eq_true] at h
  obtain ⟨⟨hrd, hra⟩, hrb⟩ := h
  have erd := destination_high hrd
  refine ⟨selects_of_bits fun k hk => ?_, by simp only [Instr.sourceFields, List.contains_cons, List.contains_nil, source_not_reserved hra, source_not_reserved hrb, Bool.or_false]⟩
  interval_cases k <;>
    simp [encode, Instr.opcode, Opcode.byte, Opcode.mask, Opcode.matchBits, assemble, erd]

theorem fsub (rd : RegIdx) (ra : RegIdx) (rb : RegIdx) : Statement (.fsub rd ra rb) := by
  intro h
  simp only [Instr.wellFormed, Bool.and_eq_true] at h
  obtain ⟨⟨hrd, hra⟩, hrb⟩ := h
  have erd := destination_high hrd
  refine ⟨selects_of_bits fun k hk => ?_, by simp only [Instr.sourceFields, List.contains_cons, List.contains_nil, source_not_reserved hra, source_not_reserved hrb, Bool.or_false]⟩
  interval_cases k <;>
    simp [encode, Instr.opcode, Opcode.byte, Opcode.mask, Opcode.matchBits, assemble, erd]

theorem fmul (rd : RegIdx) (ra : RegIdx) (rb : RegIdx) : Statement (.fmul rd ra rb) := by
  intro h
  simp only [Instr.wellFormed, Bool.and_eq_true] at h
  obtain ⟨⟨hrd, hra⟩, hrb⟩ := h
  have erd := destination_high hrd
  refine ⟨selects_of_bits fun k hk => ?_, by simp only [Instr.sourceFields, List.contains_cons, List.contains_nil, source_not_reserved hra, source_not_reserved hrb, Bool.or_false]⟩
  interval_cases k <;>
    simp [encode, Instr.opcode, Opcode.byte, Opcode.mask, Opcode.matchBits, assemble, erd]

theorem fsqr (rd : RegIdx) (ra : RegIdx) : Statement (.fsqr rd ra) := by
  intro h
  simp only [Instr.wellFormed, Bool.and_eq_true] at h
  obtain ⟨hrd, hra⟩ := h
  have erd := destination_high hrd
  refine ⟨selects_of_bits fun k hk => ?_, by simp only [Instr.sourceFields, List.contains_cons, List.contains_nil, source_not_reserved hra, Bool.or_false]⟩
  interval_cases k <;>
    simp [encode, Instr.opcode, Opcode.byte, Opcode.mask, Opcode.matchBits, assemble, erd]

theorem fneg (rd : RegIdx) (ra : RegIdx) : Statement (.fneg rd ra) := by
  intro h
  simp only [Instr.wellFormed, Bool.and_eq_true] at h
  obtain ⟨hrd, hra⟩ := h
  have erd := destination_high hrd
  refine ⟨selects_of_bits fun k hk => ?_, by simp only [Instr.sourceFields, List.contains_cons, List.contains_nil, source_not_reserved hra, Bool.or_false]⟩
  interval_cases k <;>
    simp [encode, Instr.opcode, Opcode.byte, Opcode.mask, Opcode.matchBits, assemble, erd]

theorem finv (rd : RegIdx) (ra : RegIdx) : Statement (.finv rd ra) := by
  intro h
  simp only [Instr.wellFormed, Bool.and_eq_true] at h
  obtain ⟨hrd, hra⟩ := h
  have erd := destination_high hrd
  refine ⟨selects_of_bits fun k hk => ?_, by simp only [Instr.sourceFields, List.contains_cons, List.contains_nil, source_not_reserved hra, Bool.or_false]⟩
  interval_cases k <;>
    simp [encode, Instr.opcode, Opcode.byte, Opcode.mask, Opcode.matchBits, assemble, erd]

theorem fsqrt (rd : RegIdx) (ra : RegIdx) : Statement (.fsqrt rd ra) := by
  intro h
  simp only [Instr.wellFormed, Bool.and_eq_true] at h
  obtain ⟨hrd, hra⟩ := h
  have erd := destination_high hrd
  refine ⟨selects_of_bits fun k hk => ?_, by simp only [Instr.sourceFields, List.contains_cons, List.contains_nil, source_not_reserved hra, Bool.or_false]⟩
  interval_cases k <;>
    simp [encode, Instr.opcode, Opcode.byte, Opcode.mask, Opcode.matchBits, assemble, erd]

theorem feq (ra : RegIdx) (rb : RegIdx) : Statement (.feq ra rb) := by
  intro h
  simp only [Instr.wellFormed, Bool.and_eq_true] at h
  obtain ⟨hra, hrb⟩ := h
  refine ⟨selects_of_bits fun k hk => ?_, by simp only [Instr.sourceFields, List.contains_cons, List.contains_nil, source_not_reserved hra, source_not_reserved hrb, Bool.or_false]⟩
  interval_cases k <;>
    simp [encode, Instr.opcode, Opcode.byte, Opcode.mask, Opcode.matchBits, assemble]

theorem fmov (rd : RegIdx) (ra : RegIdx) : Statement (.fmov rd ra) := by
  intro h
  simp only [Instr.wellFormed, Bool.and_eq_true] at h
  obtain ⟨hrd, hra⟩ := h
  have erd := destination_high hrd
  refine ⟨selects_of_bits fun k hk => ?_, by simp only [Instr.sourceFields, List.contains_cons, List.contains_nil, source_not_reserved hra, Bool.or_false]⟩
  interval_cases k <;>
    simp [encode, Instr.opcode, Opcode.byte, Opcode.mask, Opcode.matchBits, assemble, erd]

theorem fldi (rd : RegIdx) (imm : BitVec 16) : Statement (.fldi rd imm) := by
  intro h
  simp only [Instr.wellFormed] at h
  have hrd := h
  have erd := destination_high hrd
  refine ⟨selects_of_bits fun k hk => ?_, rfl⟩
  interval_cases k <;>
    simp [encode, Instr.opcode, Opcode.byte, Opcode.mask, Opcode.matchBits, assemble, erd]

theorem fldb (rd : RegIdx) (off : BitVec 7) (len : BitVec 6) : Statement (.fldb rd off len) := by
  intro h
  simp only [Instr.wellFormed] at h
  have hrd := h
  have erd := destination_high hrd
  refine ⟨selects_of_bits fun k hk => ?_, rfl⟩
  interval_cases k <;>
    simp [encode, Instr.opcode, Opcode.byte, Opcode.mask, Opcode.matchBits, assemble, erd]

theorem fstb (ra : RegIdx) (off : BitVec 7) : Statement (.fstb ra off) := by
  intro h
  simp only [Instr.wellFormed] at h
  have hra := h
  refine ⟨selects_of_bits fun k hk => ?_, by simp only [Instr.sourceFields, List.contains_cons, List.contains_nil, source_not_reserved hra, Bool.or_false]⟩
  interval_cases k <;>
    simp [encode, Instr.opcode, Opcode.byte, Opcode.mask, Opcode.matchBits, assemble]

theorem padd (pd : PointIdx) (pa : PointIdx) (pb : PointIdx) : Statement (.padd pd pa pb) := by
  intro h
  simp only [Instr.wellFormed, Bool.and_eq_true] at h
  obtain ⟨⟨hpd, hpa⟩, hpb⟩ := h
  obtain ⟨epd, fpd⟩ := point_high hpd
  obtain ⟨epa, fpa⟩ := point_high hpa
  obtain ⟨epb, fpb⟩ := point_high hpb
  refine ⟨selects_of_bits fun k hk => ?_, rfl⟩
  interval_cases k <;>
    simp [encode, Instr.opcode, Opcode.byte, Opcode.mask, Opcode.matchBits, assemble, epd, fpd, epa, fpa, epb, fpb]

theorem gx (rd : RegIdx) (ra : RegIdx) : Statement (.gx rd ra) := by
  intro h
  simp only [Instr.wellFormed, Bool.and_eq_true] at h
  obtain ⟨hrd, hra⟩ := h
  have erd := destination_high hrd
  refine ⟨selects_of_bits fun k hk => ?_, by simp only [Instr.sourceFields, List.contains_cons, List.contains_nil, source_not_reserved hra, Bool.or_false]⟩
  interval_cases k <;>
    simp [encode, Instr.opcode, Opcode.byte, Opcode.mask, Opcode.matchBits, assemble, erd]

theorem x0 (rd : RegIdx) (ra : RegIdx) : Statement (.x0 rd ra) := by
  intro h
  simp only [Instr.wellFormed, Bool.and_eq_true] at h
  obtain ⟨hrd, hra⟩ := h
  have erd := destination_high hrd
  refine ⟨selects_of_bits fun k hk => ?_, by simp only [Instr.sourceFields, List.contains_cons, List.contains_nil, source_not_reserved hra, Bool.or_false]⟩
  interval_cases k <;>
    simp [encode, Instr.opcode, Opcode.byte, Opcode.mask, Opcode.matchBits, assemble, erd]

theorem x1 (rd : RegIdx) (ra : RegIdx) : Statement (.x1 rd ra) := by
  intro h
  simp only [Instr.wellFormed, Bool.and_eq_true] at h
  obtain ⟨hrd, hra⟩ := h
  have erd := destination_high hrd
  refine ⟨selects_of_bits fun k hk => ?_, by simp only [Instr.sourceFields, List.contains_cons, List.contains_nil, source_not_reserved hra, Bool.or_false]⟩
  interval_cases k <;>
    simp [encode, Instr.opcode, Opcode.byte, Opcode.mask, Opcode.matchBits, assemble, erd]

theorem fmap (pd : PointIdx) (ra : RegIdx) : Statement (.fmap pd ra) := by
  intro h
  simp only [Instr.wellFormed, Bool.and_eq_true] at h
  obtain ⟨hpd, hra⟩ := h
  obtain ⟨epd, fpd⟩ := point_high hpd
  refine ⟨selects_of_bits fun k hk => ?_, by simp only [Instr.sourceFields, List.contains_cons, List.contains_nil, source_not_reserved hra, Bool.or_false]⟩
  interval_cases k <;>
    simp [encode, Instr.opcode, Opcode.byte, Opcode.mask, Opcode.matchBits, assemble, epd, fpd]

theorem rsamp (rd : RegIdx) (pa : PointIdx) (j : BitVec 2) : Statement (.rsamp rd pa j) := by
  intro h
  simp only [Instr.wellFormed, Bool.and_eq_true] at h
  obtain ⟨hrd, hpa⟩ := h
  have erd := destination_high hrd
  obtain ⟨epa, fpa⟩ := point_high hpa
  refine ⟨selects_of_bits fun k hk => ?_, rfl⟩
  interval_cases k <;>
    simp [encode, Instr.opcode, Opcode.byte, Opcode.mask, Opcode.matchBits, assemble, erd, epa, fpa]

theorem encode : Statement .encode := by
  intro _
  decide

theorem decode : Statement .decode := by
  intro _
  decide

end Sys2Proof.Laws.EncodeRow
end

