-- ==== Sys2Proof/Laws/State.lean ====
section
/-! SUPPORT. What each named update of the state does to each field: one lemma per field per update, each true by
unfolding the update once, so that no later proof unfolds a record update. -/
namespace Sys2Proof.Laws
open Sys2Proof.Machine

variable (s : State)

/-! ### setReg -/

@[simp] theorem setReg_regs (i : Fin 8) (x : Fp) : (s.setReg i x).regs = s.regs.set i x := rfl
@[simp] theorem setReg_fsm (i : Fin 8) (x : Fp) : (s.setReg i x).fsm = s.fsm := rfl
@[simp] theorem setReg_cmd (i : Fin 8) (x : Fp) : (s.setReg i x).cmd = s.cmd := rfl
@[simp] theorem setReg_done (i : Fin 8) (x : Fp) : (s.setReg i x).done = s.done := rfl
@[simp] theorem setReg_err (i : Fin 8) (x : Fp) : (s.setReg i x).err = s.err := rfl
@[simp] theorem setReg_flagT (i : Fin 8) (x : Fp) : (s.setReg i x).flagT = s.flagT := rfl
@[simp] theorem setReg_flagN (i : Fin 8) (x : Fp) : (s.setReg i x).flagN = s.flagN := rfl
@[simp] theorem setReg_flagI (i : Fin 8) (x : Fp) : (s.setReg i x).flagI = s.flagI := rfl
@[simp] theorem setReg_ie (i : Fin 8) (x : Fp) : (s.setReg i x).ie = s.ie := rfl
@[simp] theorem setReg_ilen (i : Fin 8) (x : Fp) : (s.setReg i x).ilen = s.ilen := rfl
@[simp] theorem setReg_olen (i : Fin 8) (x : Fp) : (s.setReg i x).olen = s.olen := rfl
@[simp] theorem setReg_nmax (i : Fin 8) (x : Fp) : (s.setReg i x).nmax = s.nmax := rfl
@[simp] theorem setReg_iter (i : Fin 8) (x : Fp) : (s.setReg i x).iter = s.iter := rfl
@[simp] theorem setReg_ibuf (i : Fin 8) (x : Fp) : (s.setReg i x).ibuf = s.ibuf := rfl
@[simp] theorem setReg_obuf (i : Fin 8) (x : Fp) : (s.setReg i x).obuf = s.obuf := rfl
@[simp] theorem setReg_px (i : Fin 8) (x : Fp) : (s.setReg i x).px = s.px := rfl
@[simp] theorem setReg_py (i : Fin 8) (x : Fp) : (s.setReg i x).py = s.py := rfl
@[simp] theorem setReg_u (i : Fin 8) (x : Fp) : (s.setReg i x).u = s.u := rfl
@[simp] theorem setReg_v (i : Fin 8) (x : Fp) : (s.setReg i x).v = s.v := rfl
@[simp] theorem setReg_xf (i : Fin 8) (x : Fp) : (s.setReg i x).xf = s.xf := rfl
@[simp] theorem setReg_yf (i : Fin 8) (x : Fp) : (s.setReg i x).yf = s.yf := rfl
@[simp] theorem setReg_qx (i : Fin 8) (x : Fp) : (s.setReg i x).qx = s.qx := rfl
@[simp] theorem setReg_qy (i : Fin 8) (x : Fp) : (s.setReg i x).qy = s.qy := rfl
@[simp] theorem setReg_j (i : Fin 8) (x : Fp) : (s.setReg i x).j = s.j := rfl
@[simp] theorem setReg_rngBuf (i : Fin 8) (x : Fp) : (s.setReg i x).rngBuf = s.rngBuf := rfl
@[simp] theorem setReg_rngIn (i : Fin 8) (x : Fp) : (s.setReg i x).rngIn = s.rngIn := rfl
@[simp] theorem setReg_events (i : Fin 8) (x : Fp) : (s.setReg i x).events = s.events := rfl
@[simp] theorem setReg_resp (i : Fin 8) (x : Fp) : (s.setReg i x).resp = s.resp := rfl
@[simp] theorem setReg_freeCount (i : Fin 8) (x : Fp) : (s.setReg i x).freeCount = s.freeCount := rfl

/-! ### setPoint -/

@[simp] theorem setPoint_regs (k : Fin 4) (p : Point) : (s.setPoint k p).regs = (s.regs.set (xIndex k) p.x).set (yIndex k) p.y := rfl
@[simp] theorem setPoint_fsm (k : Fin 4) (p : Point) : (s.setPoint k p).fsm = s.fsm := rfl
@[simp] theorem setPoint_cmd (k : Fin 4) (p : Point) : (s.setPoint k p).cmd = s.cmd := rfl
@[simp] theorem setPoint_done (k : Fin 4) (p : Point) : (s.setPoint k p).done = s.done := rfl
@[simp] theorem setPoint_err (k : Fin 4) (p : Point) : (s.setPoint k p).err = s.err := rfl
@[simp] theorem setPoint_flagT (k : Fin 4) (p : Point) : (s.setPoint k p).flagT = s.flagT := rfl
@[simp] theorem setPoint_flagN (k : Fin 4) (p : Point) : (s.setPoint k p).flagN = s.flagN := rfl
@[simp] theorem setPoint_flagI (k : Fin 4) (p : Point) : (s.setPoint k p).flagI = s.flagI := rfl
@[simp] theorem setPoint_ie (k : Fin 4) (p : Point) : (s.setPoint k p).ie = s.ie := rfl
@[simp] theorem setPoint_ilen (k : Fin 4) (p : Point) : (s.setPoint k p).ilen = s.ilen := rfl
@[simp] theorem setPoint_olen (k : Fin 4) (p : Point) : (s.setPoint k p).olen = s.olen := rfl
@[simp] theorem setPoint_nmax (k : Fin 4) (p : Point) : (s.setPoint k p).nmax = s.nmax := rfl
@[simp] theorem setPoint_iter (k : Fin 4) (p : Point) : (s.setPoint k p).iter = s.iter := rfl
@[simp] theorem setPoint_ibuf (k : Fin 4) (p : Point) : (s.setPoint k p).ibuf = s.ibuf := rfl
@[simp] theorem setPoint_obuf (k : Fin 4) (p : Point) : (s.setPoint k p).obuf = s.obuf := rfl
@[simp] theorem setPoint_px (k : Fin 4) (p : Point) : (s.setPoint k p).px = s.px := rfl
@[simp] theorem setPoint_py (k : Fin 4) (p : Point) : (s.setPoint k p).py = s.py := rfl
@[simp] theorem setPoint_u (k : Fin 4) (p : Point) : (s.setPoint k p).u = s.u := rfl
@[simp] theorem setPoint_v (k : Fin 4) (p : Point) : (s.setPoint k p).v = s.v := rfl
@[simp] theorem setPoint_xf (k : Fin 4) (p : Point) : (s.setPoint k p).xf = s.xf := rfl
@[simp] theorem setPoint_yf (k : Fin 4) (p : Point) : (s.setPoint k p).yf = s.yf := rfl
@[simp] theorem setPoint_qx (k : Fin 4) (p : Point) : (s.setPoint k p).qx = s.qx := rfl
@[simp] theorem setPoint_qy (k : Fin 4) (p : Point) : (s.setPoint k p).qy = s.qy := rfl
@[simp] theorem setPoint_j (k : Fin 4) (p : Point) : (s.setPoint k p).j = s.j := rfl
@[simp] theorem setPoint_rngBuf (k : Fin 4) (p : Point) : (s.setPoint k p).rngBuf = s.rngBuf := rfl
@[simp] theorem setPoint_rngIn (k : Fin 4) (p : Point) : (s.setPoint k p).rngIn = s.rngIn := rfl
@[simp] theorem setPoint_events (k : Fin 4) (p : Point) : (s.setPoint k p).events = s.events := rfl
@[simp] theorem setPoint_resp (k : Fin 4) (p : Point) : (s.setPoint k p).resp = s.resp := rfl
@[simp] theorem setPoint_freeCount (k : Fin 4) (p : Point) : (s.setPoint k p).freeCount = s.freeCount := rfl

/-! ### setT -/

@[simp] theorem setT_regs (b : Bool) : (s.setT b).regs = s.regs := rfl
@[simp] theorem setT_fsm (b : Bool) : (s.setT b).fsm = s.fsm := rfl
@[simp] theorem setT_cmd (b : Bool) : (s.setT b).cmd = s.cmd := rfl
@[simp] theorem setT_done (b : Bool) : (s.setT b).done = s.done := rfl
@[simp] theorem setT_err (b : Bool) : (s.setT b).err = s.err := rfl
@[simp] theorem setT_flagT (b : Bool) : (s.setT b).flagT = b := rfl
@[simp] theorem setT_flagN (b : Bool) : (s.setT b).flagN = s.flagN := rfl
@[simp] theorem setT_flagI (b : Bool) : (s.setT b).flagI = s.flagI := rfl
@[simp] theorem setT_ie (b : Bool) : (s.setT b).ie = s.ie := rfl
@[simp] theorem setT_ilen (b : Bool) : (s.setT b).ilen = s.ilen := rfl
@[simp] theorem setT_olen (b : Bool) : (s.setT b).olen = s.olen := rfl
@[simp] theorem setT_nmax (b : Bool) : (s.setT b).nmax = s.nmax := rfl
@[simp] theorem setT_iter (b : Bool) : (s.setT b).iter = s.iter := rfl
@[simp] theorem setT_ibuf (b : Bool) : (s.setT b).ibuf = s.ibuf := rfl
@[simp] theorem setT_obuf (b : Bool) : (s.setT b).obuf = s.obuf := rfl
@[simp] theorem setT_px (b : Bool) : (s.setT b).px = s.px := rfl
@[simp] theorem setT_py (b : Bool) : (s.setT b).py = s.py := rfl
@[simp] theorem setT_u (b : Bool) : (s.setT b).u = s.u := rfl
@[simp] theorem setT_v (b : Bool) : (s.setT b).v = s.v := rfl
@[simp] theorem setT_xf (b : Bool) : (s.setT b).xf = s.xf := rfl
@[simp] theorem setT_yf (b : Bool) : (s.setT b).yf = s.yf := rfl
@[simp] theorem setT_qx (b : Bool) : (s.setT b).qx = s.qx := rfl
@[simp] theorem setT_qy (b : Bool) : (s.setT b).qy = s.qy := rfl
@[simp] theorem setT_j (b : Bool) : (s.setT b).j = s.j := rfl
@[simp] theorem setT_rngBuf (b : Bool) : (s.setT b).rngBuf = s.rngBuf := rfl
@[simp] theorem setT_rngIn (b : Bool) : (s.setT b).rngIn = s.rngIn := rfl
@[simp] theorem setT_events (b : Bool) : (s.setT b).events = s.events := rfl
@[simp] theorem setT_resp (b : Bool) : (s.setT b).resp = s.resp := rfl
@[simp] theorem setT_freeCount (b : Bool) : (s.setT b).freeCount = s.freeCount := rfl

/-! ### setN -/

@[simp] theorem setN_regs (b : Bool) : (s.setN b).regs = s.regs := rfl
@[simp] theorem setN_fsm (b : Bool) : (s.setN b).fsm = s.fsm := rfl
@[simp] theorem setN_cmd (b : Bool) : (s.setN b).cmd = s.cmd := rfl
@[simp] theorem setN_done (b : Bool) : (s.setN b).done = s.done := rfl
@[simp] theorem setN_err (b : Bool) : (s.setN b).err = s.err := rfl
@[simp] theorem setN_flagT (b : Bool) : (s.setN b).flagT = s.flagT := rfl
@[simp] theorem setN_flagN (b : Bool) : (s.setN b).flagN = b := rfl
@[simp] theorem setN_flagI (b : Bool) : (s.setN b).flagI = s.flagI := rfl
@[simp] theorem setN_ie (b : Bool) : (s.setN b).ie = s.ie := rfl
@[simp] theorem setN_ilen (b : Bool) : (s.setN b).ilen = s.ilen := rfl
@[simp] theorem setN_olen (b : Bool) : (s.setN b).olen = s.olen := rfl
@[simp] theorem setN_nmax (b : Bool) : (s.setN b).nmax = s.nmax := rfl
@[simp] theorem setN_iter (b : Bool) : (s.setN b).iter = s.iter := rfl
@[simp] theorem setN_ibuf (b : Bool) : (s.setN b).ibuf = s.ibuf := rfl
@[simp] theorem setN_obuf (b : Bool) : (s.setN b).obuf = s.obuf := rfl
@[simp] theorem setN_px (b : Bool) : (s.setN b).px = s.px := rfl
@[simp] theorem setN_py (b : Bool) : (s.setN b).py = s.py := rfl
@[simp] theorem setN_u (b : Bool) : (s.setN b).u = s.u := rfl
@[simp] theorem setN_v (b : Bool) : (s.setN b).v = s.v := rfl
@[simp] theorem setN_xf (b : Bool) : (s.setN b).xf = s.xf := rfl
@[simp] theorem setN_yf (b : Bool) : (s.setN b).yf = s.yf := rfl
@[simp] theorem setN_qx (b : Bool) : (s.setN b).qx = s.qx := rfl
@[simp] theorem setN_qy (b : Bool) : (s.setN b).qy = s.qy := rfl
@[simp] theorem setN_j (b : Bool) : (s.setN b).j = s.j := rfl
@[simp] theorem setN_rngBuf (b : Bool) : (s.setN b).rngBuf = s.rngBuf := rfl
@[simp] theorem setN_rngIn (b : Bool) : (s.setN b).rngIn = s.rngIn := rfl
@[simp] theorem setN_events (b : Bool) : (s.setN b).events = s.events := rfl
@[simp] theorem setN_resp (b : Bool) : (s.setN b).resp = s.resp := rfl
@[simp] theorem setN_freeCount (b : Bool) : (s.setN b).freeCount = s.freeCount := rfl

/-! ### setI -/

@[simp] theorem setI_regs (p : Point) : (s.setI p).regs = s.regs := rfl
@[simp] theorem setI_fsm (p : Point) : (s.setI p).fsm = s.fsm := rfl
@[simp] theorem setI_cmd (p : Point) : (s.setI p).cmd = s.cmd := rfl
@[simp] theorem setI_done (p : Point) : (s.setI p).done = s.done := rfl
@[simp] theorem setI_err (p : Point) : (s.setI p).err = s.err := rfl
@[simp] theorem setI_flagT (p : Point) : (s.setI p).flagT = s.flagT := rfl
@[simp] theorem setI_flagN (p : Point) : (s.setI p).flagN = s.flagN := rfl
@[simp] theorem setI_flagI (p : Point) : (s.setI p).flagI = decide (p = infinity) := rfl
@[simp] theorem setI_ie (p : Point) : (s.setI p).ie = s.ie := rfl
@[simp] theorem setI_ilen (p : Point) : (s.setI p).ilen = s.ilen := rfl
@[simp] theorem setI_olen (p : Point) : (s.setI p).olen = s.olen := rfl
@[simp] theorem setI_nmax (p : Point) : (s.setI p).nmax = s.nmax := rfl
@[simp] theorem setI_iter (p : Point) : (s.setI p).iter = s.iter := rfl
@[simp] theorem setI_ibuf (p : Point) : (s.setI p).ibuf = s.ibuf := rfl
@[simp] theorem setI_obuf (p : Point) : (s.setI p).obuf = s.obuf := rfl
@[simp] theorem setI_px (p : Point) : (s.setI p).px = s.px := rfl
@[simp] theorem setI_py (p : Point) : (s.setI p).py = s.py := rfl
@[simp] theorem setI_u (p : Point) : (s.setI p).u = s.u := rfl
@[simp] theorem setI_v (p : Point) : (s.setI p).v = s.v := rfl
@[simp] theorem setI_xf (p : Point) : (s.setI p).xf = s.xf := rfl
@[simp] theorem setI_yf (p : Point) : (s.setI p).yf = s.yf := rfl
@[simp] theorem setI_qx (p : Point) : (s.setI p).qx = s.qx := rfl
@[simp] theorem setI_qy (p : Point) : (s.setI p).qy = s.qy := rfl
@[simp] theorem setI_j (p : Point) : (s.setI p).j = s.j := rfl
@[simp] theorem setI_rngBuf (p : Point) : (s.setI p).rngBuf = s.rngBuf := rfl
@[simp] theorem setI_rngIn (p : Point) : (s.setI p).rngIn = s.rngIn := rfl
@[simp] theorem setI_events (p : Point) : (s.setI p).events = s.events := rfl
@[simp] theorem setI_resp (p : Point) : (s.setI p).resp = s.resp := rfl
@[simp] theorem setI_freeCount (p : Point) : (s.setI p).freeCount = s.freeCount := rfl

/-! ### complete -/

@[simp] theorem complete_regs (c : Code) : (s.complete c).regs = s.regs := rfl
@[simp] theorem complete_fsm (c : Code) : (s.complete c).fsm = if c.fatal then .fatal else .idle := rfl
@[simp] theorem complete_cmd (c : Code) : (s.complete c).cmd = s.cmd := rfl
@[simp] theorem complete_done (c : Code) : (s.complete c).done = true := rfl
@[simp] theorem complete_err (c : Code) : (s.complete c).err = c := rfl
@[simp] theorem complete_flagT (c : Code) : (s.complete c).flagT = s.flagT := rfl
@[simp] theorem complete_flagN (c : Code) : (s.complete c).flagN = s.flagN := rfl
@[simp] theorem complete_flagI (c : Code) : (s.complete c).flagI = s.flagI := rfl
@[simp] theorem complete_ie (c : Code) : (s.complete c).ie = s.ie := rfl
@[simp] theorem complete_ilen (c : Code) : (s.complete c).ilen = s.ilen := rfl
@[simp] theorem complete_olen (c : Code) : (s.complete c).olen = s.olen := rfl
@[simp] theorem complete_nmax (c : Code) : (s.complete c).nmax = s.nmax := rfl
@[simp] theorem complete_iter (c : Code) : (s.complete c).iter = s.iter := rfl
@[simp] theorem complete_ibuf (c : Code) : (s.complete c).ibuf = s.ibuf := rfl
@[simp] theorem complete_obuf (c : Code) : (s.complete c).obuf = s.obuf := rfl
@[simp] theorem complete_px (c : Code) : (s.complete c).px = s.px := rfl
@[simp] theorem complete_py (c : Code) : (s.complete c).py = s.py := rfl
@[simp] theorem complete_u (c : Code) : (s.complete c).u = s.u := rfl
@[simp] theorem complete_v (c : Code) : (s.complete c).v = s.v := rfl
@[simp] theorem complete_xf (c : Code) : (s.complete c).xf = s.xf := rfl
@[simp] theorem complete_yf (c : Code) : (s.complete c).yf = s.yf := rfl
@[simp] theorem complete_qx (c : Code) : (s.complete c).qx = s.qx := rfl
@[simp] theorem complete_qy (c : Code) : (s.complete c).qy = s.qy := rfl
@[simp] theorem complete_j (c : Code) : (s.complete c).j = s.j := rfl
@[simp] theorem complete_rngBuf (c : Code) : (s.complete c).rngBuf = s.rngBuf := rfl
@[simp] theorem complete_rngIn (c : Code) : (s.complete c).rngIn = s.rngIn := rfl
@[simp] theorem complete_events (c : Code) : (s.complete c).events = s.events := rfl
@[simp] theorem complete_resp (c : Code) : (s.complete c).resp = s.resp := rfl
@[simp] theorem complete_freeCount (c : Code) : (s.complete c).freeCount = s.freeCount := rfl

/-! ### completeDriver -/

@[simp] theorem completeDriver_regs (c : Code) : (s.completeDriver c).regs = s.regs := rfl
@[simp] theorem completeDriver_fsm (c : Code) : (s.completeDriver c).fsm = if c.fatal then .fatal else .idle := rfl
@[simp] theorem completeDriver_cmd (c : Code) : (s.completeDriver c).cmd = s.cmd := rfl
@[simp] theorem completeDriver_done (c : Code) : (s.completeDriver c).done = true := rfl
@[simp] theorem completeDriver_err (c : Code) : (s.completeDriver c).err = c := rfl
@[simp] theorem completeDriver_flagT (c : Code) : (s.completeDriver c).flagT = s.flagT := rfl
@[simp] theorem completeDriver_flagN (c : Code) : (s.completeDriver c).flagN = s.flagN := rfl
@[simp] theorem completeDriver_flagI (c : Code) : (s.completeDriver c).flagI = s.flagI := rfl
@[simp] theorem completeDriver_ie (c : Code) : (s.completeDriver c).ie = s.ie := rfl
@[simp] theorem completeDriver_ilen (c : Code) : (s.completeDriver c).ilen = s.ilen := rfl
@[simp] theorem completeDriver_olen (c : Code) : (s.completeDriver c).olen = 0 := rfl
@[simp] theorem completeDriver_nmax (c : Code) : (s.completeDriver c).nmax = s.nmax := rfl
@[simp] theorem completeDriver_iter (c : Code) : (s.completeDriver c).iter = s.iter := rfl
@[simp] theorem completeDriver_ibuf (c : Code) : (s.completeDriver c).ibuf = s.ibuf := rfl
@[simp] theorem completeDriver_obuf (c : Code) : (s.completeDriver c).obuf = s.obuf := rfl
@[simp] theorem completeDriver_px (c : Code) : (s.completeDriver c).px = s.px := rfl
@[simp] theorem completeDriver_py (c : Code) : (s.completeDriver c).py = s.py := rfl
@[simp] theorem completeDriver_u (c : Code) : (s.completeDriver c).u = s.u := rfl
@[simp] theorem completeDriver_v (c : Code) : (s.completeDriver c).v = s.v := rfl
@[simp] theorem completeDriver_xf (c : Code) : (s.completeDriver c).xf = s.xf := rfl
@[simp] theorem completeDriver_yf (c : Code) : (s.completeDriver c).yf = s.yf := rfl
@[simp] theorem completeDriver_qx (c : Code) : (s.completeDriver c).qx = s.qx := rfl
@[simp] theorem completeDriver_qy (c : Code) : (s.completeDriver c).qy = s.qy := rfl
@[simp] theorem completeDriver_j (c : Code) : (s.completeDriver c).j = s.j := rfl
@[simp] theorem completeDriver_rngBuf (c : Code) : (s.completeDriver c).rngBuf = s.rngBuf := rfl
@[simp] theorem completeDriver_rngIn (c : Code) : (s.completeDriver c).rngIn = s.rngIn := rfl
@[simp] theorem completeDriver_events (c : Code) : (s.completeDriver c).events = s.events := rfl
@[simp] theorem completeDriver_resp (c : Code) : (s.completeDriver c).resp = s.resp := rfl
@[simp] theorem completeDriver_freeCount (c : Code) : (s.completeDriver c).freeCount = s.freeCount := rfl

/-! ### startRead -/

@[simp] theorem startRead_regs : (s.startRead).regs = s.regs := rfl
@[simp] theorem startRead_fsm : (s.startRead).fsm = s.fsm := rfl
@[simp] theorem startRead_cmd : (s.startRead).cmd = s.cmd := rfl
@[simp] theorem startRead_done : (s.startRead).done = s.done := rfl
@[simp] theorem startRead_err : (s.startRead).err = s.err := rfl
@[simp] theorem startRead_flagT : (s.startRead).flagT = s.flagT := rfl
@[simp] theorem startRead_flagN : (s.startRead).flagN = s.flagN := rfl
@[simp] theorem startRead_flagI : (s.startRead).flagI = s.flagI := rfl
@[simp] theorem startRead_ie : (s.startRead).ie = s.ie := rfl
@[simp] theorem startRead_ilen : (s.startRead).ilen = s.ilen := rfl
@[simp] theorem startRead_olen : (s.startRead).olen = s.olen := rfl
@[simp] theorem startRead_nmax : (s.startRead).nmax = s.nmax := rfl
@[simp] theorem startRead_iter : (s.startRead).iter = s.iter := rfl
@[simp] theorem startRead_ibuf : (s.startRead).ibuf = s.ibuf := rfl
@[simp] theorem startRead_obuf : (s.startRead).obuf = s.obuf := rfl
@[simp] theorem startRead_px : (s.startRead).px = s.px := rfl
@[simp] theorem startRead_py : (s.startRead).py = s.py := rfl
@[simp] theorem startRead_u : (s.startRead).u = s.u := rfl
@[simp] theorem startRead_v : (s.startRead).v = s.v := rfl
@[simp] theorem startRead_xf : (s.startRead).xf = s.xf := rfl
@[simp] theorem startRead_yf : (s.startRead).yf = s.yf := rfl
@[simp] theorem startRead_qx : (s.startRead).qx = s.qx := rfl
@[simp] theorem startRead_qy : (s.startRead).qy = s.qy := rfl
@[simp] theorem startRead_j : (s.startRead).j = s.j := rfl
@[simp] theorem startRead_rngBuf : (s.startRead).rngBuf = [] := rfl
@[simp] theorem startRead_rngIn : (s.startRead).rngIn = none := rfl
@[simp] theorem startRead_events : (s.startRead).events = s.events := rfl
@[simp] theorem startRead_resp : (s.startRead).resp = s.resp := rfl
@[simp] theorem startRead_freeCount : (s.startRead).freeCount = s.freeCount := rfl

/-! ### accept -/

@[simp] theorem accept_regs (w : Word) : (s.accept w).regs = s.regs := rfl
@[simp] theorem accept_fsm (w : Word) : (s.accept w).fsm = entryState w := rfl
@[simp] theorem accept_cmd (w : Word) : (s.accept w).cmd = w := rfl
@[simp] theorem accept_done (w : Word) : (s.accept w).done = false := rfl
@[simp] theorem accept_err (w : Word) : (s.accept w).err = .ok := rfl
@[simp] theorem accept_flagT (w : Word) : (s.accept w).flagT = s.flagT := rfl
@[simp] theorem accept_flagN (w : Word) : (s.accept w).flagN = s.flagN := rfl
@[simp] theorem accept_flagI (w : Word) : (s.accept w).flagI = s.flagI := rfl
@[simp] theorem accept_ie (w : Word) : (s.accept w).ie = s.ie := rfl
@[simp] theorem accept_ilen (w : Word) : (s.accept w).ilen = s.ilen := rfl
@[simp] theorem accept_olen (w : Word) : (s.accept w).olen = s.olen := rfl
@[simp] theorem accept_nmax (w : Word) : (s.accept w).nmax = s.nmax := rfl
@[simp] theorem accept_iter (w : Word) : (s.accept w).iter = s.iter := rfl
@[simp] theorem accept_ibuf (w : Word) : (s.accept w).ibuf = s.ibuf := rfl
@[simp] theorem accept_obuf (w : Word) : (s.accept w).obuf = s.obuf := rfl
@[simp] theorem accept_px (w : Word) : (s.accept w).px = s.px := rfl
@[simp] theorem accept_py (w : Word) : (s.accept w).py = s.py := rfl
@[simp] theorem accept_u (w : Word) : (s.accept w).u = s.u := rfl
@[simp] theorem accept_v (w : Word) : (s.accept w).v = s.v := rfl
@[simp] theorem accept_xf (w : Word) : (s.accept w).xf = s.xf := rfl
@[simp] theorem accept_yf (w : Word) : (s.accept w).yf = s.yf := rfl
@[simp] theorem accept_qx (w : Word) : (s.accept w).qx = s.qx := rfl
@[simp] theorem accept_qy (w : Word) : (s.accept w).qy = s.qy := rfl
@[simp] theorem accept_j (w : Word) : (s.accept w).j = s.j := rfl
@[simp] theorem accept_rngBuf (w : Word) : (s.accept w).rngBuf = s.rngBuf := rfl
@[simp] theorem accept_rngIn (w : Word) : (s.accept w).rngIn = s.rngIn := rfl
@[simp] theorem accept_events (w : Word) : (s.accept w).events = s.events := rfl
@[simp] theorem accept_resp (w : Word) : (s.accept w).resp = s.resp := rfl
@[simp] theorem accept_freeCount (w : Word) : (s.accept w).freeCount = s.freeCount := rfl

/-! ### respond -/

@[simp] theorem respond_regs (r : Response) : (s.respond r).regs = s.regs := rfl
@[simp] theorem respond_fsm (r : Response) : (s.respond r).fsm = s.fsm := rfl
@[simp] theorem respond_cmd (r : Response) : (s.respond r).cmd = s.cmd := rfl
@[simp] theorem respond_done (r : Response) : (s.respond r).done = s.done := rfl
@[simp] theorem respond_err (r : Response) : (s.respond r).err = s.err := rfl
@[simp] theorem respond_flagT (r : Response) : (s.respond r).flagT = s.flagT := rfl
@[simp] theorem respond_flagN (r : Response) : (s.respond r).flagN = s.flagN := rfl
@[simp] theorem respond_flagI (r : Response) : (s.respond r).flagI = s.flagI := rfl
@[simp] theorem respond_ie (r : Response) : (s.respond r).ie = s.ie := rfl
@[simp] theorem respond_ilen (r : Response) : (s.respond r).ilen = s.ilen := rfl
@[simp] theorem respond_olen (r : Response) : (s.respond r).olen = s.olen := rfl
@[simp] theorem respond_nmax (r : Response) : (s.respond r).nmax = s.nmax := rfl
@[simp] theorem respond_iter (r : Response) : (s.respond r).iter = s.iter := rfl
@[simp] theorem respond_ibuf (r : Response) : (s.respond r).ibuf = s.ibuf := rfl
@[simp] theorem respond_obuf (r : Response) : (s.respond r).obuf = s.obuf := rfl
@[simp] theorem respond_px (r : Response) : (s.respond r).px = s.px := rfl
@[simp] theorem respond_py (r : Response) : (s.respond r).py = s.py := rfl
@[simp] theorem respond_u (r : Response) : (s.respond r).u = s.u := rfl
@[simp] theorem respond_v (r : Response) : (s.respond r).v = s.v := rfl
@[simp] theorem respond_xf (r : Response) : (s.respond r).xf = s.xf := rfl
@[simp] theorem respond_yf (r : Response) : (s.respond r).yf = s.yf := rfl
@[simp] theorem respond_qx (r : Response) : (s.respond r).qx = s.qx := rfl
@[simp] theorem respond_qy (r : Response) : (s.respond r).qy = s.qy := rfl
@[simp] theorem respond_j (r : Response) : (s.respond r).j = s.j := rfl
@[simp] theorem respond_rngBuf (r : Response) : (s.respond r).rngBuf = s.rngBuf := rfl
@[simp] theorem respond_rngIn (r : Response) : (s.respond r).rngIn = s.rngIn := rfl
@[simp] theorem respond_events (r : Response) : (s.respond r).events = s.events := rfl
@[simp] theorem respond_resp (r : Response) : (s.respond r).resp = some r := rfl
@[simp] theorem respond_freeCount (r : Response) : (s.respond r).freeCount = s.freeCount := rfl

/-! ### Reset -/

/-- A reset leaves the reset state, but for what is the environment's (R40, R340). -/
theorem toReset_eq :
    s.toReset = { State.reset with events := s.events, resp := s.resp, freeCount := s.freeCount } := rfl

@[simp] theorem toReset_events : s.toReset.events = s.events := rfl
@[simp] theorem toReset_fsm : s.toReset.fsm = .idle := rfl
@[simp] theorem toReset_resp : s.toReset.resp = s.resp := rfl
@[simp] theorem toReset_freeCount : s.toReset.freeCount = s.freeCount := rfl

/-! ### Registers and points -/

theorem reg_setReg (i j : Fin 8) (x : Fp) : (s.setReg i x).reg j = if i = j then x else s.reg j := by
  simp [State.reg, State.setReg, Vector.getElem_set, Fin.ext_iff]

@[simp] theorem reg_setReg_same (i : Fin 8) (x : Fp) : (s.setReg i x).reg i = x := by simp [reg_setReg]

theorem xIndex_ne_yIndex (k l : Fin 4) : xIndex k ≠ yIndex l := by
  simp only [xIndex, yIndex, ne_eq, Fin.mk.injEq]
  omega

/-- Reading a point register back after writing it (R23). -/
@[simp] theorem point_setPoint_same (k : Fin 4) (p : Point) : (s.setPoint k p).point k = p := by
  simp [State.point, State.setPoint, reg_setReg, (xIndex_ne_yIndex k k).symm]

/-- Writing one point register leaves the others (R23). -/
theorem point_setPoint_of_ne {k l : Fin 4} (h : k ≠ l) (p : Point) : (s.setPoint k p).point l = s.point l := by
  have hx : xIndex k ≠ xIndex l := by simp only [xIndex, ne_eq, Fin.mk.injEq]; omega
  have hy : yIndex k ≠ yIndex l := by simp only [yIndex, ne_eq, Fin.mk.injEq]; omega
  simp [State.point, State.setPoint, reg_setReg, hx, hy, xIndex_ne_yIndex, (xIndex_ne_yIndex _ _).symm]

end Sys2Proof.Laws
end

