-- ==== Sys2Proof/Laws/Step.lean ====
section
/-! SUPPORT. The shared operations of a step, each said once: completion, partial functions, the RNG read, whose turn it is
(R27, R305, R310, R81, R20). -/
namespace Sys2Proof.Laws
open Sys2Proof.Machine

/-! ### Completion and partial functions -/

@[simp] theorem finish_eq (s : State) : finish s = .next { s with err := .ok, done := true, fsm := .idle } := rfl

theorem raise_eq (c : Code) (s : State) :
    raise c s = .next { s with err := c, done := true, fsm := if c.fatal then .fatal else .idle } := rfl

theorem raiseDriver_eq (c : Code) (s : State) :
    raiseDriver c s = .next { s with err := c, done := true, fsm := if c.fatal then .fatal else .idle, olen := 0 } := rfl

@[simp] theorem orFault_ok {α : Type} (a : α) (k : α → Out) : orFault (.ok a) k = k a := rfl
@[simp] theorem orFault_error {α : Type} (e : Fault) (k : α → Out) : orFault (.error e) k = .fault e := rfl

/-- A next state computed from a partial function comes from a value of it. -/
theorem orFault_eq_next {α : Type} {v : Except Fault α} {k : α → Out} {t : State} (h : orFault v k = .next t) :
    ∃ a, v = .ok a ∧ k a = .next t := by
  cases v with
  | error e => cases h
  | ok a => exact ⟨a, rfl, h⟩

/-- A completed core is not busy, and it is fatal exactly after a fatal code. -/
theorem complete_not_busy (s : State) (c : Code) : (s.complete c).busy = false := by
  cases c <;> rfl

theorem complete_isFatal (s : State) (c : Code) : (s.complete c).isFatal = c.fatal := by
  cases c <;> rfl

/-! ### The RNG read -/

/-- Everything one step of an RNG read can do (R81). -/
theorem rngRead_cases (s : State) (n : Nat) :
    (s.rngIn = none ∧ s.rngRead n = .waiting) ∨
    (s.rngIn = some .err ∧ s.rngRead n = .failed { s with rngBuf := [], rngIn := none }) ∨
    (∃ b, s.rngIn = some (.ok b) ∧ s.rngBuf.length + 1 < n ∧
      s.rngRead n = .more { s with rngBuf := s.rngBuf ++ [b], rngIn := none }) ∨
    (∃ b, s.rngIn = some (.ok b) ∧ n ≤ s.rngBuf.length + 1 ∧
      s.rngRead n = .complete (s.rngBuf ++ [b]) { s with rngBuf := [], rngIn := none }) := by
  rw [State.rngRead]
  split
  · next h => exact .inl ⟨h, rfl⟩
  · next h => exact .inr (.inl ⟨h, rfl⟩)
  · next b h =>
    split_ifs with hn
    · exact .inr (.inr (.inl ⟨b, h, hn, rfl⟩))
    · exact .inr (.inr (.inr ⟨b, h, not_lt.1 hn, rfl⟩))

/-! ### Turns -/

theorem step_nil {s : State} (h : s.events = []) : step s = coreStep s := by
  rw [step, h]

theorem step_cons {s : State} {e : Event} {es : List Event} (h : s.events = e :: es) :
    step s = eventStep e { s with events := es } := by
  rw [step, h]

theorem coreStep_ok {s : State} {i : Instr} (hb : s.busy = true) (h : decode s.cmd = .ok i) :
    coreStep s = exec i s := by
  rw [coreStep, if_pos hb, h]

theorem coreStep_error {s : State} {e : Illegal} (hb : s.busy = true) (h : decode s.cmd = .error e) :
    coreStep s = raise .illegal s := by
  rw [coreStep, if_pos hb, h]

theorem coreStep_idle {s : State} (hb : s.busy = false) : coreStep s = .next s := by
  rw [coreStep, if_neg (by simp [hb])]

theorem busy_iff (s : State) : s.busy = true ↔ s.fsm ≠ .idle ∧ s.fsm ≠ .fatal := by
  rw [State.busy]
  cases s.fsm <;> simp

/-- A read changes nothing of the core (R68). -/
theorem hostRead_eq (t : Target) (s : State) :
    ∃ r n, hostRead t s = { s with resp := some r, freeCount := n } := by
  cases t <;> simp only [hostRead] <;> try exact ⟨_, _, rfl⟩
  all_goals split_ifs <;> exact ⟨_, _, rfl⟩

/-- Everything a host write can do: it is refused, or it is one of the accepted writes (R26 to R34, R65, R67). -/
theorem hostWrite_cases (t : Target) (w : Word) (s : State) :
    hostWrite t w s = { s with resp := some .error } ∨
    (t = .cmd ∧ s.busy = false ∧ s.isFatal = false ∧
      hostWrite t w s = { s with cmd := w, done := false, err := .ok, fsm := entryState w, resp := some .ack }) ∨
    (t = .status ∧ hostWrite t w s =
      { s with done := if !s.busy && w.getLsbD 1 then false else s.done, resp := some .ack }) ∨
    (t = .ctrl ∧ w.getLsbD 1 = true ∧
      hostWrite t w s = { State.reset with events := s.events, resp := some .ack, freeCount := s.freeCount }) ∨
    (t = .ctrl ∧ w.getLsbD 1 = false ∧ hostWrite t w s = { s with ie := w.getLsbD 0, resp := some .ack }) ∨
    (t = .ilen ∧ s.busy = false ∧ hostWrite t w s = { s with ilen := w.setWidth 8, resp := some .ack }) ∨
    (t = .nmax ∧ s.busy = false ∧ hostWrite t w s = { s with nmax := w.setWidth 16, resp := some .ack }) ∨
    (∃ i, t = .ibuf i ∧ s.busy = false ∧
      hostWrite t w s = { s with ibuf := s.ibuf.write i (w.setWidth 8), resp := some .ack }) := by
  cases t with
  | cmd =>
    by_cases h : (s.busy || s.isFatal) = true
    · exact .inl (if_pos h)
    · have h' := h
      rw [Bool.or_eq_true, not_or, Bool.not_eq_true, Bool.not_eq_true] at h'
      exact .inr (.inl ⟨rfl, h'.1, h'.2, if_neg h⟩)
  | status =>
    refine .inr (.inr (.inl ⟨rfl, ?_⟩))
    rw [hostWrite]
    cases (!s.busy && w.getLsbD 1) <;> rfl
  | ctrl =>
    rw [hostWrite]
    rcases hd : w.getLsbD 1 with _ | _
    · exact .inr (.inr (.inr (.inr (.inl ⟨rfl, rfl, rfl⟩))))
    · exact .inr (.inr (.inr (.inl ⟨rfl, rfl, rfl⟩)))
  | ilen =>
    by_cases hb : s.busy = true
    · exact .inl (if_pos hb)
    · exact .inr (.inr (.inr (.inr (.inr (.inl ⟨rfl, Bool.not_eq_true _ ▸ hb, if_neg hb⟩)))))
  | nmax =>
    by_cases hb : s.busy = true
    · exact .inl (if_pos hb)
    · exact .inr (.inr (.inr (.inr (.inr (.inr (.inl ⟨rfl, Bool.not_eq_true _ ▸ hb, if_neg hb⟩))))))
  | ibuf i =>
    by_cases hb : s.busy = true
    · exact .inl (if_pos hb)
    · exact .inr (.inr (.inr (.inr (.inr (.inr (.inr ⟨i, rfl, Bool.not_eq_true _ ▸ hb, if_neg hb⟩))))))
  | olen => exact .inl rfl
  | iter => exact .inl rfl
  | obuf i => exact .inl rfl
  | reserved => exact .inl rfl

end Sys2Proof.Laws
end

