-- ==== Sys2Proof/Tests/Slice0.lean ====
section
/-! SUPPORT. The model's own tests, with the results of the spec's examples and vectors (95_test_vectors.md), and for each
statement with hypotheses a concrete state and operands that meet them. -/
set_option Elab.async false

namespace Sys2Proof.Tests
open Sys2Proof Sys2Proof.Machine Sys2Proof.Claims

/-! ### WellFormed refuses an ill-formed term of each check (R112) -/

theorem test_wellFormed_destination :
    [Instr.fadd 8 0 1, .fsub 15 0 1, .fmul 8 0 1, .fsqr 8 0, .fneg 8 0, .finv 8 0, .fsqrt 8 0, .fmov 8 0, .fldi 8 0,
      .fldb 8 0 0, .gx 8 0, .x0 8 0, .x1 8 0, .rsamp 8 0 0].all (fun i => !i.wellFormed) = true := by decide

theorem test_wellFormed_source :
    [Instr.fadd 0 15 0, .fadd 0 0 15, .fsub 0 15 0, .fsub 0 0 15, .fmul 0 15 0, .fmul 0 0 15, .fsqr 0 15, .fneg 0 15,
      .finv 0 15, .fsqrt 0 15, .feq 15 0, .feq 0 15, .fmov 0 15, .fstb 15 0, .gx 0 15, .x0 0 15, .x1 0 15,
      .fmap 0 15].all (fun i => !i.wellFormed) = true := by decide

theorem test_wellFormed_point :
    [Instr.padd 4 0 0, .padd 0 4 0, .padd 0 0 15, .fmap 4 0, .rsamp 0 4 0].all (fun i => !i.wellFormed) = true := by
  decide

theorem test_wellFormed_accepts_boundaries :
    [Instr.fadd 7 14 14, .feq 14 14, .fldi 7 0xFFFF, .fldb 7 127 63, .fstb 14 127, .padd 3 3 3, .fmap 3 14,
      .rsamp 7 3 3].all Instr.wellFormed = true := by decide

/-! ### Words written out from the formats (V-ENCODING) -/

theorem test_decode_field :
    decode 0x00000000 = .ok .nop ∧ decode 0x01201000 = .ok (.fadd 2 0 1) ∧ decode 0x027ED000 = .ok (.fsub 7 14 13) ∧
    decode 0x0311E000 = .ok (.fmul 1 1 14) ∧ decode 0x04540000 = .ok (.fsqr 5 4) ∧
    decode 0x05330000 = .ok (.fneg 3 3) ∧ decode 0x06750000 = .ok (.finv 7 5) ∧
    decode 0x077C0000 = .ok (.fsqrt 7 12) ∧ decode 0x08013000 = .ok (.feq 1 3) := by decide

theorem test_decode_data :
    decode 0x093E0000 = .ok (.fmov 3 14) ∧ decode 0x0A600002 = .ok (.fldi 6 2) ∧
    decode 0x0A00FFFF = .ok (.fldi 0 65535) ∧ decode 0x10001020 = .ok (.fldb 0 1 32) ∧
    decode 0x10121020 = .ok (.fldb 1 33 32) ∧ decode 0x11420000 = .ok (.fstb 4 32) ∧
    decode 0x11C00000 = .ok (.fstb 12 0) ∧ decode 0x11021000 = .ok (.fstb 0 33) := by decide

theorem test_decode_curve_and_driver :
    decode 0x20201000 = .ok (.padd 2 0 1) ∧ decode 0x20333000 = .ok (.padd 3 3 3) ∧
    decode 0x30390000 = .ok (.gx 3 9) ∧ decode 0x311A0000 = .ok (.x0 1 10) ∧ decode 0x321A0000 = .ok (.x1 1 10) ∧
    decode 0x33160000 = .ok (.fmap 1 6) ∧ decode 0x40610003 = .ok (.rsamp 6 1 3) ∧
    decode 0x50000000 = .ok .encode ∧ decode 0x51000000 = .ok .decode := by decide

theorem test_encode_examples :
    encode (.fadd 2 0 1) = 0x01201000 ∧ encode (.feq 1 3) = 0x08013000 ∧ encode (.fldb 0 1 32) = 0x10001020 ∧
    encode (.fstb 4 32) = 0x11420000 ∧ encode (.rsamp 6 1 3) = 0x40610003 := by decide

theorem test_decode_illegal :
    decode 0x0B000000 = .error .reservedOpcode ∧ decode 0x0F000000 = .error .reservedOpcode ∧
    decode 0x12000000 = .error .reservedOpcode ∧ decode 0x52000000 = .error .reservedOpcode ∧
    decode 0xFFFFFFFF = .error .reservedOpcode ∧ decode 0x00000001 = .error .reservedBits ∧
    decode 0x01801000 = .error .reservedBits ∧ decode 0x012F1000 = .error .reservedSource ∧
    decode 0x0120F000 = .error .reservedSource ∧ decode 0x08113000 = .error .reservedBits ∧
    decode 0x10081020 = .error .reservedBits ∧ decode 0x11F00000 = .error .reservedSource ∧
    decode 0x20401000 = .error .reservedBits ∧ decode 0x330F0000 = .error .reservedSource ∧
    decode 0x40610004 = .error .reservedBits := by decide

theorem test_decodeTableWord :
    decodeTableWord 32 0x50000000 = some .encode ∧ decodeTableWord 32 0x0B000000 = none ∧
    decodeTableWord 32 0x0A600002 = some (.fldi 6 2) := by decide

/-! ### States to test on -/

/-- `f(2)` and `f(3)` (V-PADD). -/
def f2 : Point := ⟨toFp 0xFD395A8D6106EE4D6BA359B431EFF7C4081197C0B4738E20075FCEA4AAD3148C,
  toFp 0x12DB1A19462D631F04246FFEF7790FB39C3C28B709A5531BD980F91BF933865B⟩
def f3 : Point := ⟨toFp 0x353265292303345B6E9598E0706095D500FCC5D12C2A81BB839E96BAEEA4BA9E,
  toFp 0x2DB5F977097A109D35B14BDE89D6D9FD88FF8756B1749A5277FE539B9155B071⟩
/-- `f(2) + f(3)` (R197). -/
def f23 : Point := ⟨toFp 0x5826C87542F0407E0F7927AC2669009AFEC1E2CE30DF5AB3F2DD8D72F44CA273,
  toFp 0x4FD87B3E15BC8222750662D4808FF4D536799DEFCAAECBCD997DD2E91FAF95B5⟩

/-- Reset, then `p0 = f(2)`, `p1 = f(3)`, `r4 = 5`, `r5 = 258`. -/
def base : State :=
  (((State.reset.setPoint 0 f2).setPoint 1 f3).setReg 4 (toFp 5)).setReg 5 (toFp 258)

/-- `base` with a string in `IBUF` and a declared length. -/
def loaded (bs : List Byte) (len : BitVec 8) : State :=
  { base with ibuf := Memory.writeBytes [] 0 bs, ilen := len }

/-- A word accepted. -/
def running (w : Word) : State := base.accept w

/-- What a test looks at in a next state. -/
def seen {α : Type} (o : Out) (look : State → α) : Option α :=
  match o with
  | .next t => some (look t)
  | .fault _ => none
  | .refused _ => none

/-! ### One step of each command, on the spec's examples -/

theorem test_nop_clears_err : seen (exec .nop (failed .domain base)) (fun t => (t.err, t.done, t.fsm)) = some (.ok, true, .idle) := by
  decide +kernel

theorem test_fadd_reduces : seen (exec (.fadd 2 14 14) base) (fun t => (t.reg 2).val) =
    some 0xB58C6BB1547527CF67D77AAAED310D78CA3A0D6198A761EC779C787C4FA4C096 := by decide +kernel
theorem test_fadd_wraps_to_zero : seen (exec (.fadd 2 12 9) base) (fun t => (t.reg 2).val) = some 0 := by decide +kernel

theorem test_fsub_first_minus_second : seen (exec (.fsub 2 13 14) base) (fun t => (t.reg 2).val) =
    some 0xA539CA2655C56C194C1442AA896779439AE2F95033AC4F09C431C3C1D82D9FB1 := by decide +kernel
theorem test_fsub_borrows : seen (exec (.fsub 4 9 11) base) (fun t => (t.reg 4).val) = some (fieldP - 3) := by
  decide +kernel

theorem test_fmul_full_product : seen (exec (.fmul 2 14 13) base) (fun t => (t.reg 2).val) =
    some 0xEFAD5E740150444AE43CC7FF9C366BCAD0A8EBEF9B04ED1D4C954B458888DF1D := by decide +kernel
theorem test_fmul_aliased : seen (exec (.fmul 4 4 4) base) (fun t => (t.reg 4).val) = some 25 := by decide +kernel

theorem test_fsqr : seen (exec (.fsqr 2 14) base) (fun t => (t.reg 2).val) =
    some 0x780E30DB8D0BFF9F35DB5C169C4154566F784AC6C9F292C324F78692B59918E3 := by decide +kernel

theorem test_fneg : seen (exec (.fneg 2 14) base) (fun t => (t.reg 2).val) =
    some 0xA539CA2655C56C194C1442AA896779439AE2F95033AC4F09C431C3C1D82D9FB4 := by decide +kernel
theorem test_fneg_zero : seen (exec (.fneg 2 8) base) (fun t => (t.reg 2).val) = some 0 := by decide +kernel

theorem test_finv_two : seen (exec (.finv 2 10) base) (fun t => (t.reg 2).val) =
    some 0x7FFFFFFF80000000800000000000000000000000800000000000000000000000 := by decide +kernel
theorem test_finv_zero_unchanged : seen (exec (.finv 2 8) base) (fun t => (t.err, t.regs)) = some (.domain, base.regs) := by
  decide +kernel

theorem test_fsqrt_b : seen (exec (.fsqrt 2 14) base) (fun t => ((t.reg 2).val, t.flagN)) =
    some (0x66485C780E2F83D72433BD5D84A06BB6541C2AF31DAE871728BF856A174F93F4, false) := by decide +kernel
theorem test_fsqrt_minus_one : seen (exec (.fsqrt 2 12) base) (fun t => (t.regs, t.flagN, t.err)) =
    some (base.regs, true, .ok) := by decide +kernel

theorem test_feq_sets : seen (exec (.feq 8 8) base) (fun t => t.flagT) = some true := by decide +kernel
theorem test_feq_clears : seen (exec (.feq 4 10) { base with flagT := true }) (fun t => t.flagT) = some false := by
  decide +kernel

theorem test_fmov_constant : seen (exec (.fmov 3 14) base) (fun t => (t.reg 3).val) =
    some 0x5AC635D8AA3A93E7B3EBBD55769886BC651D06B0CC53B0F63BCE3C3E27D2604B := by decide +kernel

theorem test_fldi_largest : seen (exec (.fldi 7 0xFFFF) base) (fun t => (t.reg 7).val) = some 65535 := by decide +kernel

theorem test_fldb_big_endian : seen (exec (.fldb 0 0 2) (loaded [1, 2] 0)) (fun t => (t.reg 0).val) = some 258 := by
  decide +kernel
theorem test_fldb_out_of_range : seen (exec (.fldb 0 40 32) base) (fun t => (t.err, t.regs)) =
    some (.range, base.regs) := by decide +kernel

theorem test_fstb_minus_one : seen (exec (.fstb 12 0) base) (fun t => t.obuf.readBytes 0 33) =
    some [0xFF, 0xFF, 0xFF, 0xFF, 0, 0, 0, 1, 0, 0, 0, 0, 0, 0, 0, 0, 0, 0, 0, 0, 0xFF, 0xFF, 0xFF, 0xFF, 0xFF, 0xFF, 0xFF,
      0xFF, 0xFF, 0xFF, 0xFF, 0xFE, 0] := by decide +kernel
theorem test_fstb_out_of_range : seen (exec (.fstb 0 34) base) (fun t => (t.err, t.obuf)) = some (.range, []) := by
  decide +kernel

theorem test_padd : seen (exec (.padd 2 0 1) base) (fun t => (t.point 2, t.flagI)) = some (f23, false) := by
  decide +kernel
theorem test_padd_off_curve : seen (exec (.padd 0 0 2) base) (fun t => (t.err, t.point 0)) = some (.domain, f2) := by
  decide +kernel

theorem test_gx_one : seen (exec (.gx 3 9) base) (fun t => (t.reg 3).val) =
    some 0x5AC635D8AA3A93E7B3EBBD55769886BC651D06B0CC53B0F63BCE3C3E27D26049 := by decide +kernel

theorem test_x0_two : seen (exec (.x0 1 10) base) (fun t => (t.reg 1).val) =
    some 0xFD395A8D6106EE4D6BA359B431EFF7C4081197C0B4738E20075FCEA4AAD3148C := by decide +kernel
theorem test_x0_one : seen (exec (.x0 1 9) base) (fun t => t.err) = some .domain := by decide +kernel

theorem test_x1_two : seen (exec (.x1 1 10) base) (fun t => (t.reg 1).val) =
    some 0x0B1A95C67BE446CE5172992F384020EFDFB9A1012E31C77FE280C56D54B3ADCC := by decide +kernel

theorem test_fmap_second_branch : seen (exec (.fmap 3 4) base) (fun t => (t.point 3, t.flagI)) =
    some (⟨toFp 0x7165F04C0BF37BA38CD3C8EBF3D50D1B6CDF7D7FA11ABE6A693BD75CBAB5B8A7,
      toFp 0x72D5C23CCDD6F260E44FA7DA8390DD4272DAF949676DA1FE8DA5FFAE4AF33136⟩, false) := by decide +kernel
theorem test_fmap_singular : seen (exec (.fmap 0 12) base) (fun t => (t.point 0, t.flagI, t.err)) =
    some (infinity, true, .ok) := by decide +kernel

theorem test_rsamp_selector_two : seen (exec (.rsamp 6 0 2) base) (fun t => (t.reg 6).val) =
    some 0x9ADD512515B70D9EC471151C1DEC46625CD18B37BDE7CA7FB2C8B31D7033599D := by decide +kernel
theorem test_rsamp_bottom : seen (exec (.rsamp 6 1 0) base) (fun t => (t.reg 6, t.flagN, t.err)) =
    some (toFp 0, true, .ok) := by decide +kernel

theorem test_encode_validates : seen (exec .encode { loaded (sec1 f23) 65 with fsm := .eValidate, iter := 9 })
    (fun t => (t.fsm, t.p, t.iter)) = some (.eLoop, f23, 0) := by decide +kernel
theorem test_encode_emits_u_then_v :
    seen (exec .encode { base with fsm := .eEmit, u := toFp 2, v := toFp 3, obuf := [(64, 9)] })
      (fun t => (t.obuf, t.olen, t.fsm)) = some ([(31, 2), (63, 3), (64, 9)], 64, .idle) := by decide +kernel

theorem test_decode_parses : seen (exec .decode { loaded (toBytes (toFp 2) ++ toBytes (toFp 3)) 64 with fsm := .dValidate })
    (fun t => (t.u.val, t.v.val, t.fsm)) = some (2, 3, .dMapU) := by decide +kernel
theorem test_decode_emits_infinity :
    seen (exec .decode { base with fsm := .dEmit, olen := 0 }) (fun t => (t.obuf, t.olen, t.flagI)) =
      some ([(0, 4)], 65, true) := by decide +kernel

/-! ### The host window and the step -/

theorem test_status_word : { base with done := true, err := .mapInv, fsm := .fatal, flagI := true }.statusWord = 0x496 := by
  decide +kernel

theorem test_soft_reset_wins : seen (step (hostTurn (.write 0x008 .s32 3) [] { base with fsm := .eDrawU }))
    (fun t => (t.ie, t.fsm, t.nmax)) = some (false, .idle, 1000) := by decide +kernel

theorem test_withFetchWord_runs : seen (step (State.reset.withFetchWord 32 0x0A600002)) (fun t => (t.reg 6).val) =
    some 2 := by decide +kernel

/-! ### Witnesses: hypotheses of the statements, met -/

theorem witness_ResetFromEveryState : (3 : Word).getLsbD 1 = true ∧ (2 : Word).getLsbD 1 = true := by decide

theorem witness_StepRunsDecodedCommand :
    (running 0x01201000).busy = true ∧ decode (running 0x01201000).cmd = .ok (.fadd 2 0 1) ∧
    (running 0x01201000).events = [] ∧
    ({ running 0x01201000 with events := [.core, .rst] } : State).events = .core :: [.rst] := by decide +kernel

theorem witness_IllegalWordCompletes :
    (running 0x0B000000).busy = true ∧ decode (running 0x0B000000).cmd = .error .reservedOpcode := by decide +kernel

theorem witness_CoreWaitsUnchanged :
    base.fsm = .idle ∧ ({ base with fsm := .fatal } : State).fsm = .fatal ∧
    ({ running 0x50000000 with fsm := .eDrawU } : State).rngIn = none ∧
    decode ({ running 0x50000000 with fsm := .eDrawJ } : State).cmd = .ok .encode := by decide +kernel

theorem witness_CommandRegister :
    (base.busy = false ∧ base.isFatal = false) ∧ (running 0).busy = true ∧
    ({ base with fsm := .fatal } : State).isFatal = true := by decide +kernel

theorem witness_ControlRegister : (1 : Word).getLsbD 1 = false ∧ (0xFFFFFFFC : Word).getLsbD 1 = false := by decide

theorem witness_InputWrites :
    (base.busy = false ∧ base.ibuf.wf = true) ∧ ({ base with fsm := .fatal } : State).busy = false ∧
    (running 0).busy = true ∧ (1 : Word).getLsbD 1 = false ∧ (2 : Word).getLsbD 1 = true := by decide +kernel

theorem witness_BadAccessesRefused :
    (legalAccess 0x01C .s32 = false ∧ legalAccess 0x0FF .s8 = false ∧ legalAccess 0x141 .s8 = false ∧
      legalAccess 0x17F .s8 = false ∧ legalAccess 0x1C1 .s8 = false ∧ legalAccess 0x3FF .s32 = false ∧
      legalAccess 0x002 .s32 = false ∧ legalAccess 0x000 .s8 = false ∧ legalAccess 0x100 .s32 = false ∧
      legalAccess 0x004 .s16 = false) ∧
    legalAccess 0x000 .s32 = true ∧ legalAccess 0x018 .s32 = true ∧ legalAccess 0x100 .s8 = true ∧
    legalAccess 0x140 .s8 = true ∧ legalAccess 0x180 .s8 = true ∧ legalAccess 0x1C0 .s8 = true := by decide

theorem witness_RegisterReads : base.busy = false ∧ (running 0).busy = true := by decide +kernel

theorem witness_OutputsAndRngAnswers :
    ({ base with fsm := .eDrawJ } : State).rngReq = true ∧ base.rngReq = false ∧
    ({ base with fsm := .eDrawU, rngIn := some .err } : State).rngReq = false := by decide +kernel

theorem witness_IllegalWords :
    (((0x0B000000 : Word).extractLsb' 24 8).toNat = 0x0B ∧ ((0xFF123456 : Word).extractLsb' 24 8).toNat = 0xFF) ∧
    ((0x00000001 : Word).extractLsb' 24 8 = Opcode.nop.byte ∧
      (0x00000001 : Word) &&& Opcode.nop.mask ≠ Opcode.nop.matchBits) ∧
    ((0x012F1000 : Word) &&& Opcode.fadd.mask = Opcode.fadd.matchBits ∧
      15 ∈ (Opcode.fadd.extract 0x012F1000).sourceFields) ∧
    ((0x0120E000 : Word) &&& Opcode.fadd.mask = Opcode.fadd.matchBits ∧
      15 ∉ (Opcode.fadd.extract 0x0120E000).sourceFields) := by decide

theorem witness_DecodeEncode :
    (Instr.fadd 7 14 0).wellFormed = true ∧ (Instr.padd 3 3 0).wellFormed = true ∧
    (Instr.fldb 7 127 63).wellFormed = true := by decide

theorem witness_EncodeDecode : decode 0x1077F03F = .ok (.fldb 7 127 63) ∧ decode 0x40730003 = .ok (.rsamp 7 3 3) := by
  decide

theorem witness_RegisterIndexSpace : 8 ≤ (8 : RegIdx).toNat ∧ 8 ≤ (15 : RegIdx).toNat := by decide

theorem witness_PointRegistersArePairs : (0 : Fin 8).val ≠ 2 * (3 : Fin 4).val ∧ (5 : Fin 8).val ≠ 2 * (3 : Fin 4).val + 1 := by
  decide

/-- A destination and two sources, one of them a constant; the values at the boundaries of subtraction and negation. -/
theorem witness_FieldArithmeticResults :
    dstOf 7 = some 7 ∧ base.source 4 = some (toFp 5) ∧ base.source 8 = some (toFp 0) ∧
    (toFp 0).val ≤ (toFp 5).val ∧ ¬ (toFp 5).val ≤ (toFp 0).val := by decide +kernel

theorem witness_FinvResult :
    dstOf 0 = some 0 ∧ (base.source 8 = some (toFp 0) ∧ (toFp 0).val = 0) ∧
    (base.source 12 = some (toFp (fieldP - 1)) ∧ (toFp (fieldP - 1)).val ≠ 0) := by decide +kernel

/-- `-1` has no square root: its `(P-1)/2`-th power is `-1`, that of a square is 1 (Fermat). -/
theorem minus_one_not_square : ¬ ∃ y : Fp, y.val * y.val % fieldP = (toFp (fieldP - 1)).val := by
  rintro ⟨y, hy⟩
  have := Fact.mk Laws.fieldP_prime
  have h : modP y ^ 2 = -1 := by
    rw [← Laws.modP_sqrP, show sqrP y = toFp (fieldP - 1) from Fin.ext hy, Laws.modP_toFp, Nat.cast_sub fieldP_pos]
    simp
  have h0 : modP y ≠ 0 := by
    rintro h0
    rw [h0, zero_pow two_ne_zero] at h
    exact zero_ne_one (neg_eq_zero.1 h.symm).symm
  have h1 : modP y ^ (fieldP - 1) = 1 := ZMod.pow_card_sub_one_eq_one h0
  have he : fieldP - 1 = 2 * ((fieldP - 1) / 2) := by decide
  have ho : Odd ((fieldP - 1) / 2) := by decide +kernel
  rw [he, pow_mul, h, ho.neg_one_pow] at h1
  exact Laws.two_ne_zero (by linear_combination -h1)

theorem witness_FsqrtResult :
    dstOf 2 = some 2 ∧
    (base.source 11 = some (toFp 4) ∧ ∃ y : Fp, y.val * y.val % fieldP = (toFp 4).val) ∧
    (base.source 12 = some (toFp (fieldP - 1)) ∧ ¬ ∃ y : Fp, y.val * y.val % fieldP = (toFp (fieldP - 1)).val) :=
  ⟨rfl, ⟨rfl, toFp 2, by decide +kernel⟩, rfl, minus_one_not_square⟩

theorem witness_FeqResult :
    (base.source 4 = some (toFp 5) ∧ base.source 8 = some (toFp 0)) ∧ (toFp 5).val = (toFp 5).val ∧
    (toFp 5).val ≠ (toFp 0).val := by decide +kernel

theorem witness_SquareRoots : sqrtP (toFp 4) = some (toFp 2) ∧ (toFp 4).val ≠ 0 := by decide +kernel

theorem witness_MoveResults : dstOf 7 = some 7 ∧ base.source 14 = some curveB := by decide +kernel

theorem witness_FldbResult :
    dstOf 0 = some 0 ∧ (32 < (33 : BitVec 6).toNat ∧ 65 < (34 : BitVec 7).toNat + (32 : BitVec 6).toNat) ∧
    ((32 : BitVec 6).toNat ≤ 32 ∧ (33 : BitVec 7).toNat + (32 : BitVec 6).toNat ≤ 65) ∧
    ((0 : BitVec 6).toNat ≤ 32 ∧ (65 : BitVec 7).toNat + (0 : BitVec 6).toNat ≤ 65) := by decide

theorem witness_FstbResult :
    base.source 12 = some (toFp (fieldP - 1)) ∧ base.obuf.wf = true ∧ 33 < (34 : BitVec 7).toNat ∧
    (33 : BitVec 7).toNat ≤ 33 := by decide +kernel

theorem witness_BytesRoundTrip :
    (List.replicate 32 (0xFF : Byte)).length = 32 ∧ ¬ bytesToNat (List.replicate 32 (0xFF : Byte)) < fieldP ∧
    bytesToNat (List.replicate 32 (0 : Byte)) < fieldP := by decide +kernel

theorem witness_PaddResult :
    pointOf 3 = some 3 ∧ pointOf 0 = some 0 ∧ pointOf 1 = some 1 ∧ pointOf 2 = some 2 ∧
    (base.point 2).valid = false ∧ (base.point 0).valid = true ∧ (base.point 3).valid = true ∧
    (base.point 1).valid = true := by decide +kernel

theorem witness_GxResult : dstOf 3 = some 3 ∧ base.source 9 = some (toFp 1) := by decide +kernel

theorem witness_MapHelperResults :
    dstOf 1 = some 1 ∧
    (base.source 12 = some (toFp (fieldP - 1)) ∧ (toFp (fieldP - 1)).val = fieldP - 1 ∧ (toFp 1).val = 1 ∧
      base.source 9 = some (toFp 1)) ∧
    (base.source 10 = some (toFp 2) ∧ (toFp 2).val ≠ 0 ∧ (toFp 2).val ≠ 1 ∧ (toFp 2).val ≠ fieldP - 1) := by
  decide +kernel

theorem witness_FmapResult : pointOf 3 = some 3 ∧ base.source 4 = some (toFp 5) := by decide +kernel

theorem witness_RsampResult :
    dstOf 6 = some 6 ∧ pointOf 0 = some 0 ∧ (base.point 2).valid = false ∧ base.point 3 = ⟨toFp 0, toFp 0⟩ ∧
    (base.point 0).valid = true ∧ base.point 0 ≠ ⟨toFp 0, toFp 0⟩ := by decide +kernel

theorem witness_AffineAddLaws : f2.valid = true ∧ f3.valid = true ∧ infinity.valid = true := by decide +kernel

theorem witness_AffineAddAssociative :
    f2.valid = true ∧ f3.valid = true ∧ f2.neg.valid = true ∧ affineAdd f2 f3 = .ok f23 ∧
    ∃ qr, affineAdd f3 f2.neg = .ok qr :=
  ⟨by decide +kernel, by decide +kernel, by decide +kernel, by decide +kernel,
    Laws.affineAdd_ok (by decide +kernel) (by decide +kernel)⟩

theorem witness_HardwareAddIsAffineAdd : f2.valid = true ∧ f3.valid = true := by decide +kernel

theorem witness_MapAlwaysHasValue : singular (toFp 2) = false ∧ singular (toFp (fieldP - 2)) = false := by
  decide +kernel

theorem witness_SamplerGivesPreimages : rSamp f2 0 = .ok (some (toFp 2)) := by decide +kernel

theorem witness_SamplerFindsPreimage : singular (toFp 3) = false ∧ mapF (toFp 3) = .ok (some f3) := by decide +kernel

theorem witness_SamplerPairs : f3.valid = true ∧ f3 ≠ infinity := by decide +kernel

/-- An `ENCODE` at each state of its walk, with the data it finds there. -/
def encoding (f : Fsm) : State :=
  { loaded (sec1 f23) 65 with
    cmd := 0x50000000, fsm := f, nmax := 1, iter := 1, px := f23.x, py := f23.y, u := toFp 2, xf := f2.x, yf := f2.y,
    qx := f3.x, qy := f3.y, j := 3, v := toFp 3 }

theorem witness_EncodeValidateAndLoop :
    (encoding .eValidate).fsm = .eValidate ∧
    ((encoding .eValidate).ilen.toNat = 65 ∧ (encoding .eValidate).ibuf.read 0 = 0x04 ∧
      Point.valid ⟨fromBytes ((encoding .eValidate).ibuf.readBytes 1 32),
        fromBytes ((encoding .eValidate).ibuf.readBytes 33 32)⟩ = true) ∧
    (loaded [] 64).ilen.toNat ≠ 65 ∧ (loaded [0x02] 65).ibuf.read 0 ≠ 0x04 ∧
    ((loaded [0x04, 1] 65).ibuf.read 0 = 0x04 ∧
      Point.valid ⟨fromBytes ((loaded [0x04, 1] 65).ibuf.readBytes 1 32),
        fromBytes ((loaded [0x04, 1] 65).ibuf.readBytes 33 32)⟩ = false) ∧
    ((encoding .eLoop).fsm = .eLoop ∧ (encoding .eLoop).iter = (encoding .eLoop).nmax) ∧
    ({ encoding .eLoop with iter := 0 } : State).iter ≠ ({ encoding .eLoop with iter := 0 } : State).nmax := by
  decide +kernel

theorem witness_EncodeDraws :
    ((encoding .eDrawU).fsm = .eDrawU ∧ (encoding .eDrawU).rngIn = none) ∧
    ({ encoding .eDrawJ with rngIn := some .err } : State).rngIn = some .err ∧
    ({ encoding .eDrawU with rngBuf := List.replicate 30 0 } : State).rngBuf.length < 31 ∧
    ({ encoding .eDrawU with rngBuf := List.replicate 31 0 } : State).rngBuf.length = 31 ∧
    (({ encoding .eDrawJ with rngIn := some (.ok 7) } : State).rngIn = some (.ok 7) ∧ (encoding .eDrawJ).rngBuf = []) := by
  decide +kernel

theorem witness_EncodeMapAndSubtract :
    (({ encoding .eCheckU with u := toFp (fieldP - 1) } : State).u.val = fieldP - 1) ∧
    ((encoding .eCheckU).u.val ≠ 0 ∧ (encoding .eCheckU).u.val ≠ 1 ∧ (encoding .eCheckU).u.val ≠ fieldP - 1) ∧
    ((encoding .eSub).p.valid = true ∧ (encoding .eSub).f.valid = true) ∧
    (({ encoding .eCheckQ with qx := toFp 0, qy := toFp 0 } : State).qx.val = 0) ∧
    (encoding .eCheckQ).qx.val ≠ 0 := by decide +kernel

theorem witness_EncodeSampleAndEmit :
    (encoding .eSample).q.valid = true ∧ (encoding .eSample).q ≠ infinity ∧ (encoding .eEmit).obuf.wf = true := by
  decide +kernel

/-- A `DECODE` at each state of its walk. -/
def decoding (f : Fsm) : State :=
  { loaded (toBytes (toFp 2) ++ toBytes (toFp 3)) 64 with
    cmd := 0x51000000, fsm := f, u := toFp 2, v := toFp 3, xf := f2.x, yf := f2.y, qx := f3.x, qy := f3.y, px := f23.x,
    py := f23.y }

theorem witness_DecodeStates :
    (loaded [] 65).ilen.toNat ≠ 64 ∧ (decoding .dValidate).ilen.toNat = 64 ∧
    ((decoding .dAdd).f.valid = true ∧ (decoding .dAdd).q.valid = true) ∧ (decoding .dEmit).obuf.wf = true := by
  decide +kernel

theorem witness_DecodeRefinesBigStep :
    (decoding .dValidate).fsm = .dValidate ∧ (decoding .dValidate).events = [] ∧ (decoding .dValidate).err = .ok ∧
    decode (decoding .dValidate).cmd = .ok .decode := by decide +kernel

/-- The RNG answers of vector E4: 98 bytes, three iterations. -/
def answersE4 : List RngAnswer :=
  (List.replicate 63 (0 : Byte) ++ [2, 0] ++ List.replicate 31 0 ++ [2, 7]).map .ok

/-- A successful big step of `ENCODE`, its end looked at. -/
def endsWell (o : EncodeRun) (rest : List RngAnswer) : Bool :=
  match o with
  | .ended (.next t) r => decide (t.err = .ok) && decide (r = rest) && decide (t.iter = 3) &&
      decide (t.obuf = [(31, 2), (63, 3)])
  | .ended (.fault _) _ => false
  | .ended (.refused _) _ => false
  | .starved => false

theorem endsWell_spec {o : EncodeRun} {rest : List RngAnswer} (h : endsWell o rest = true) :
    ∃ t, o = .ended (.next t) rest ∧ t.err = .ok ∧ t.obuf = [(31, 2), (63, 3)] := by
  match o, h with
  | .ended (.next t) r, h =>
    simp only [endsWell, Bool.and_eq_true, decide_eq_true_eq] at h
    exact ⟨t, by rw [h.1.1.2], h.1.1.1, h.2⟩

/-- Vector E4 on the big step: `OBUF = 0^31 02 ∥ 0^31 03`, `ITER = 3`, all 98 bytes taken. -/
theorem test_encodeBig_E4 :
    endsWell (encodeBig { encoding .eValidate with nmax := 1000, iter := 0 } answersE4) [] = true := by decide +kernel

theorem witness_EncodeRefinesBigStep :
    ∃ (s t : State) (as rest : List RngAnswer), s.fsm = .eValidate ∧ s.events = [] ∧ decode s.cmd = .ok .encode ∧
      s.rngIn = none ∧ s.rngBuf = [] ∧ encodeBig s as = .ended (.next t) rest := by
  obtain ⟨t, h, -⟩ := endsWell_spec test_encodeBig_E4
  exact ⟨_, t, _, _, rfl, rfl, by decide, rfl, rfl, h⟩

theorem witness_EncodeTerminates :
    33 * (encoding .eValidate).nmax.toNat ≤ (List.replicate 33 (RngAnswer.ok 0)).length ∧
    33 * ({ encoding .eValidate with nmax := 0 } : State).nmax.toNat ≤ ([] : List RngAnswer).length := by
  decide +kernel

theorem witness_RoundTrip :
    ∃ (s t c : State) (as rest : List RngAnswer), s.obuf.wf = true ∧ encodeBig s as = .ended (.next t) rest ∧
      t.err = .ok ∧ c.obuf.wf = true ∧ c.ilen.toNat = 64 ∧ c.ibuf.readBytes 0 64 = t.obuf.readBytes 0 64 ∧
      bytesToNat (s.ibuf.readBytes 1 32) < fieldP ∧ bytesToNat (s.ibuf.readBytes 33 32) < fieldP := by
  obtain ⟨t, h, he, ho⟩ := endsWell_spec test_encodeBig_E4
  refine ⟨_, t, decoding .dValidate, _, _, rfl, h, he, rfl, rfl, ?_, by decide +kernel, by decide +kernel⟩
  rw [ho]
  decide +kernel

/-- A safe state in the middle of an `ENCODE`: one byte of `u` received, another standing. -/
def drawing : State := { encoding .eDrawU with rngBuf := [0], rngIn := some (.ok 1) }

theorem drawing_safe : drawing.Safe := by
  refine ⟨⟨by decide +kernel, by decide +kernel, fun _ => ⟨rfl, rfl⟩, by decide, fun _ => by decide, fun h => ?_, fun h => ?_,
    fun _ => by decide, fun _ => by decide, .inl rfl, fun _ => .inl rfl, ?_⟩, ⟨fun _ => by decide +kernel, fun h => ?_, fun h => ?_,
    fun h => ?_, fun h => ?_, fun h => ?_, fun h => ?_, fun h => ?_⟩⟩
  · exact absurd h (by decide)
  · exact absurd h (by decide)
  · exact (by decide : [(0 : Byte)].length < 32)
  all_goals exact absurd h (by decide)

theorem witness_StepKeepsSafe : drawing.Safe ∧ ∃ t, step drawing = .next t := ⟨drawing_safe, _, rfl⟩

theorem witness_SafeStatesStep : drawing.Safe := drawing_safe

/-- The fatal state with a host write of `IE` next. -/
def stopped : State := { base with fsm := .fatal, err := .retry, done := true, events := [.host (.write 0x008 .s32 1)] }

theorem witness_FatalIsSticky :
    stopped.fsm = .fatal ∧ (∃ t, step stopped = .next t) ∧ (∀ es, stopped.events ≠ .rst :: es) ∧
    (∀ es data, stopped.events = .host (.write 0x008 .s32 data) :: es → data.getLsbD 1 = false) := by
  refine ⟨rfl, ⟨_, rfl⟩, fun es h => ?_, fun es data h => ?_⟩
  · simp [stopped] at h
  · simp only [stopped, List.cons.injEq, Event.host.injEq, HostAccess.write.injEq, true_and] at h
    rw [← h.1]
    decide

theorem witness_TransitionTable : drawing.Consistent ∧ drawing.busy = true ∧ ∃ t, coreStep drawing = .next t :=
  ⟨drawing_safe.1, rfl, _, rfl⟩

theorem witness_CodesByCommand :
    (Instr.finv 2 8).wellFormed = true ∧ base.err = .ok ∧ seen (exec (.finv 2 8) base) (fun t => t.err) = some .domain := by
  decide +kernel

/-- An error step, and a fatal one. -/
theorem witness_FailureWritesNothing :
    base.err = .ok ∧ seen (exec (.finv 2 8) base) (fun t => decide (t.err ≠ .ok)) = some true ∧
    (encoding .eLoop).err = .ok ∧ seen (exec .encode (encoding .eLoop)) (fun t => t.err.fatal) = some true := by
  decide +kernel

/-- An `ENCODE` at the head of its loop, whose first request is then answered `Err`; `OLEN` and `ITER` both change. -/
def unlucky : State := { encoding .eLoop with iter := 0, olen := 65, events := [.core, .rng .err, .core] }

theorem witness_FailedCommandWritesNothing :
    unlucky.err = .ok ∧ noHost unlucky.events = true ∧
    seen (Host.Core.run Sys2Proof.core 3 unlucky) (fun t => (t.err, t.iter, t.olen)) = some (.rng, 1, 0) ∧
    seen (Host.Core.run Sys2Proof.core 1 { base with cmd := 0x06280000, fsm := .exec }) (fun t => (t.err, t.iter)) =
      some (.domain, base.iter) ∧
    decode 0x06280000 ≠ .ok .encode := by decide +kernel

/-- Each flag changed by one of its commands. -/
theorem witness_FlagUse :
    base.err = .ok ∧ seen (exec (.feq 8 8) base) (fun t => decide (t.flagT ≠ base.flagT)) = some true ∧
    seen (exec (.fsqrt 2 12) base) (fun t => decide (t.flagN ≠ base.flagN)) = some true ∧
    seen (exec (.fmap 0 8) base) (fun t => decide (t.flagI ≠ base.flagI)) = some true := by decide +kernel

/-- A core step, and commands that change `OBUF`, `OLEN` and `ITER`. -/
theorem witness_CoreWritesOnlyItsOwn :
    (∃ t, coreStep drawing = .next t) ∧
    seen (exec (.fstb 12 0) base) (fun t => decide (t.obuf ≠ base.obuf)) = some true ∧
    seen (exec .encode (encoding .eEmit)) (fun t => decide (t.olen ≠ (encoding .eEmit).olen)) = some true ∧
    seen (exec .encode { encoding .eLoop with iter := 0 }) (fun t => decide (t.iter ≠ 0)) = some true :=
  ⟨⟨_, rfl⟩, by decide +kernel, by decide +kernel, by decide +kernel⟩

end Sys2Proof.Tests
end

section
/-! The sum of two valid points and the value of the map are valid points (R190 to R192, R213). -/
namespace Sys2Proof.Laws
open Sys2Proof.Machine

/-- A line of slope `lam` through two points of the curve with different `x` meets it again at the chord point. -/
theorem chord_onCurve {K : Type} [Field K] {b x1 y1 x2 y2 lam : K} (hx : x1 ≠ x2)
    (h1 : y1 ^ 2 = x1 ^ 3 - 3 * x1 + b) (h2 : y2 ^ 2 = x2 ^ 3 - 3 * x2 + b) (hl : lam * (x2 - x1) = y2 - y1) :
    (lam * (x1 - (lam ^ 2 - x1 - x2)) - y1) ^ 2 =
      (lam ^ 2 - x1 - x2) ^ 3 - 3 * (lam ^ 2 - x1 - x2) + b := by
  refine mul_left_cancel₀ (sub_ne_zero.2 hx) ?_
  obtain rfl : y2 = lam * (x2 - x1) + y1 := by linear_combination -hl
  linear_combination (lam ^ 2 - x1 - 2 * x2) * h1 + (2 * x1 + x2 - lam ^ 2) * h2

/-- The tangent at a point of the curve meets it again at the chord point. -/
theorem tangent_onCurve {K : Type} [Field K] {b x y lam : K} (h : y ^ 2 = x ^ 3 - 3 * x + b)
    (hl : lam * (2 * y) = 3 * x ^ 2 - 3) :
    (lam * (x - (lam ^ 2 - x - x)) - y) ^ 2 = (lam ^ 2 - x - x) ^ 3 - 3 * (lam ^ 2 - x - x) + b := by
  linear_combination h + (lam ^ 2 - 3 * x) * hl

/-- A point on the curve is valid. -/
theorem valid_of_onCurve {p : Point} (h : modP p.y ^ 2 = modP p.x ^ 3 - 3 * modP p.x + modP curveB) :
    p.valid = true :=
  (valid_iff p).2 (.inr h)

/-- A value of `AffineAdd` is a valid point (R192). -/
theorem affineAdd_valid {p q r : Point} (h : affineAdd p q = .ok r) : r.valid = true := by
  have := Fact.mk fieldP_prime
  rw [affineAdd] at h
  split_ifs at h with hv hp hq hneg hx
  all_goals simp only [Bool.not_eq_true', Bool.not_eq_false, Bool.and_eq_true] at hv
  · exact Except.ok.inj h ▸ hv.2
  · exact Except.ok.inj h ▸ hv.1
  · exact Except.ok.inj h ▸ infinity_valid
  · obtain ⟨i, hi, ht⟩ := withValue_eq_ok h
    obtain ⟨hne, hinv⟩ := invP_eq_ok hi
    obtain rfl := Except.ok.inj ht
    refine valid_of_onCurve ?_
    simp only [chordPoint, modP_subP, modP_mulP, modP_sqrP, ← hx]
    refine tangent_onCurve (valid_onCurve hv.1 hp) ?_
    simp only [modP_mulP, modP_addP, modP_sqrP, modP_toFp, modP_curveA, hinv] at hne ⊢
    push_cast at hne ⊢
    rw [mul_assoc, inv_mul_cancel₀ hne]
    ring
  · obtain ⟨i, hi, ht⟩ := withValue_eq_ok h
    obtain ⟨hne, hinv⟩ := invP_eq_ok hi
    obtain rfl := Except.ok.inj ht
    refine valid_of_onCurve ?_
    simp only [chordPoint, modP_subP, modP_mulP, modP_sqrP]
    refine chord_onCurve (fun he => hx (modP_injective he)) (valid_onCurve hv.1 hp) (valid_onCurve hv.2 hq) ?_
    rw [modP_subP] at hne hinv
    rw [hinv, mul_assoc, inv_mul_cancel₀ hne, mul_one]

/-- The square root of `g(x)` completes `x` to a valid point (R213). -/
theorem sqrtP_curveG_valid {x c : Fp} (h : sqrtP (curveG x) = some c) :
    Point.valid ⟨x, c⟩ = true ∧ Point.valid ⟨x, negP c⟩ = true := by
  have hc := sqrtP_sq h
  rw [modP_curveG] at hc
  exact ⟨valid_of_onCurve hc, valid_of_onCurve (by rwa [modP_negP, neg_sq])⟩

/-- A value of the map `f` is a valid point (R213). -/
theorem mapF_valid {u : Fp} {p : Point} (h : mapF u = .ok (some p)) : p.valid = true := by
  rw [mapF] at h
  split_ifs at h
  · obtain rfl : infinity = p := by simpa using h
    exact infinity_valid
  · obtain ⟨x, -, h⟩ := withValue_eq_ok h
    rcases hs : sqrtP (curveG x) with _ | c
    · rw [hs, Option.elim_none, secondBranch] at h
      obtain ⟨x', -, h⟩ := withValue_eq_ok h
      obtain ⟨c, hc, rfl⟩ := Option.map_eq_some_iff.1 (Except.ok.inj h)
      exact (sqrtP_curveG_valid hc).2
    · rw [hs, Option.elim_some] at h
      obtain rfl := Option.some.inj (Except.ok.inj h)
      exact (sqrtP_curveG_valid hs).1

end Sys2Proof.Laws
end

section
/-! `ENCODE` as one big step always ends (R263, R272, R359): every iteration takes at most 33 answers, and the cap bounds
the iterations. -/
namespace Sys2Proof.Laws
open Sys2Proof Sys2Proof.Machine

/-- With enough answers at hand a read fails or returns its bytes; it takes at most, or exactly, `n` answers (R81). -/
theorem drawBytes_cases (n : Nat) (as : List RngAnswer) (h : n ≤ as.length) :
    (∃ rest, drawBytes n as = .failed rest ∧ as.length ≤ rest.length + n) ∨
      ∃ bs rest, drawBytes n as = .bytes bs rest ∧ as.length = rest.length + n := by
  induction n generalizing as with
  | zero => exact .inr ⟨[], as, rfl, rfl⟩
  | succ n ih =>
    match as, h with
    | .err :: as, _ => exact .inl ⟨as, rfl, by simp⟩
    | .ok b :: as, h =>
      simp only [List.length_cons, Nat.succ_le_succ_iff] at h ⊢
      rcases ih as h with ⟨rest, hd, hl⟩ | ⟨bs, rest, hd, hl⟩
      · exact .inl ⟨rest, by rw [drawBytes, hd], by omega⟩
      · exact .inr ⟨b :: bs, rest, by rw [drawBytes, hd], by omega⟩

/-- A 16-bit counter below a 16-bit cap does not wrap around. -/
theorem toNat_add_one {m n : BitVec 16} (h : m.toNat < n.toNat) : (m + 1).toNat = m.toNat + 1 :=
  BitVec.toNat_add_of_lt (y := 1) (Nat.lt_of_le_of_lt h n.isLt)

/-- What the loop of `ENCODE` guarantees of its end, `n` iterations before the cap: it is a completion, it has taken at
most 33 answers an iteration, and `ITER` has not passed `NMAX`, which it has reached after `F_RETRY`. -/
structure LoopEnd (n : Nat) (s : State) (as : List RngAnswer) (t : State) (rest : List RngAnswer) : Prop where
  done : t.done = true
  not_busy : t.busy = false
  taken : as.length ≤ rest.length + 33 * n
  not_point : t.err ≠ .point
  iter_le : t.iter.toNat ≤ s.nmax.toNat
  iter_retry : t.err = .retry → t.iter = s.nmax

/-- The loop ends as `LoopEnd` says. -/
def LoopEnds (n : Nat) (s : State) (as : List RngAnswer) (run : EncodeRun) : Prop :=
  ∃ t rest, run = .ended (.next t) rest ∧ LoopEnd n s as t rest

/-- An end of the loop by a completion that is neither `E_POINT` nor `F_RETRY`. -/
theorem loopEnds_complete {n : Nat} {s w : State} {as rest : List RngAnswer} {run : EncodeRun} {t : State}
    (hrun : run = .ended (.next t) rest) (c : Code) (hpoint : c ≠ .point) (hretry : c ≠ .retry)
    (htaken : as.length ≤ rest.length + 33 * n) (hiter : w.iter.toNat ≤ s.nmax.toNat)
    (ht : t = w.complete c ∨ t = w.completeDriver c) : LoopEnds n s as run := by
  refine ⟨t, rest, hrun, ?_⟩
  rcases ht with rfl | rfl <;>
    exact ⟨rfl, complete_not_busy w c, htaken, hpoint, hiter, fun h => absurd h hretry⟩

/-- A loop that goes on after one iteration ends as the rest of it does. -/
theorem LoopEnds.next_iteration {n : Nat} {s w : State} {as rest : List RngAnswer} {run : EncodeRun}
    (h : LoopEnds n w rest run) (hn : w.nmax = s.nmax) (htaken : as.length ≤ rest.length + 33) :
    LoopEnds (n + 1) s as run := by
  obtain ⟨t, rest', hrun, hdone, hbusy, htaken', hpoint, hle, hretry⟩ := h
  rw [hn] at hle hretry
  exact ⟨t, rest', hrun, hdone, hbusy, by omega, hpoint, hle, hretry⟩

/-- The loop of `ENCODE` ends when 33 answers are at hand for each iteration that may still start. -/
theorem encodeLoop_ends (n : Nat) (p : Point) (s : State) (as : List RngAnswer) (hp : p.valid = true)
    (has : 33 * n ≤ as.length) (hn : s.iter.toNat + n = s.nmax.toNat) :
    LoopEnds n s as (encodeLoop n p s as) := by
  induction n generalizing s as with
  | zero =>
    have hiter : s.iter = s.nmax := BitVec.eq_of_toNat_eq (by omega)
    exact ⟨_, as, rfl, rfl, complete_not_busy s .retry, by omega, by simp, by simp [hiter], fun _ => hiter⟩
  | succ n ih =>
    have hiter : (s.iter + 1).toNat = s.iter.toNat + 1 := toNat_add_one (n := s.nmax) (by omega)
    have again : ∀ rest, 33 * n ≤ rest.length → as.length ≤ rest.length + 33 →
        LoopEnds (n + 1) s as (encodeLoop n p { s with iter := s.iter + 1 } rest) := fun rest hrest htaken =>
      (ih { s with iter := s.iter + 1 } rest hrest (by simp only [hiter]; omega)).next_iteration rfl htaken
    have stop : ∀ {rest t} (w : State) (c : Code), w.iter = s.iter + 1 → c ≠ .point → c ≠ .retry →
        as.length ≤ rest.length + 33 → (t = w.complete c ∨ t = w.completeDriver c) →
        LoopEnds (n + 1) s as (.ended (.next t) rest) := fun w c hw hpoint hretry htaken ht =>
      loopEnds_complete rfl c hpoint hretry (by omega) (by rw [hw, hiter]; omega) ht
    rw [encodeLoop]
    rcases drawBytes_cases 32 as (by omega) with ⟨rest, hd, hl⟩ | ⟨bs, rest, hd, hl⟩
    · simp only [hd]
      exact stop _ .rng rfl (by decide) (by decide) (by omega) (.inr rfl)
    · simp only [hd]
      by_cases hu : singular (fromBytes bs) = true
      · rw [if_pos hu]
        exact again rest (by omega) (by omega)
      · rw [if_neg hu]
        obtain ⟨o, ho⟩ := mapF_ok (fromBytes bs)
        rw [ho, endFault]
        cases o with
        | none => exact stop _ .mapInv rfl (by decide) (by decide) (by omega) (.inr rfl)
        | some f =>
          obtain ⟨q, hq⟩ := affineAdd_ok hp (neg_valid (mapF_valid ho))
          rw [Option.elim_some, hq, endFault]
          rcases eq_or_ne q infinity with h0 | h0
          · rw [if_pos h0]
            exact again rest (by omega) (by omega)
          · rw [if_neg h0]
            rcases drawBytes_cases 1 rest (by omega) with ⟨rest', hd', hl'⟩ | ⟨js, rest', hd', hl'⟩
            · simp only [hd']
              exact stop _ .rng rfl (by decide) (by decide) (by omega) (.inr rfl)
            · simp only [hd']
              obtain ⟨o, ho⟩ := rSamp_ok (affineAdd_valid hq) h0 ((js.headD 0).setWidth 2)
              rw [ho, endFault]
              cases o with
              | none => exact again rest' (by omega) (by omega)
              | some v => exact stop _ .ok rfl (by decide) (by decide) (by omega) (.inl rfl)

/-- The end that validation gives `ENCODE` (R252). -/
theorem encodeBig_point (s : State) (as : List RngAnswer)
    (h : (s.ilen ≠ 65 ∨ s.ibuf.read 0 ≠ 0x04) ∨ s.inputPoint.valid = false) :
    encodeBig s as = .ended (raiseDriver .point s) as := by
  rw [encodeBig]
  split_ifs with h1 h2
  · rfl
  · rfl
  · exact absurd (h.resolve_left h1) (by simpa using h2)

/-- A valid input starts the loop at `ITER = 0` with `NMAX` iterations to come (R252, R253). -/
theorem encodeBig_loop (s : State) (as : List RngAnswer)
    (h : ¬ ((s.ilen ≠ 65 ∨ s.ibuf.read 0 ≠ 0x04) ∨ s.inputPoint.valid = false)) :
    encodeBig s as = encodeLoop s.nmax.toNat s.inputPoint { s with iter := 0 } as := by
  obtain ⟨hform, hvalid⟩ := not_or.1 h
  rw [encodeBig, if_neg hform, if_neg (by simpa using hvalid)]

/-- Settles O50: validation ends at once, and after it the loop ends by induction on the iterations to come. -/
theorem encodeTerminates : Obligations.EncodeTerminates := by
  intro s as has
  by_cases h : (s.ilen ≠ 65 ∨ s.ibuf.read 0 ≠ 0x04) ∨ s.inputPoint.valid = false
  · exact ⟨_, as, encodeBig_point s as h, rfl, complete_not_busy s .point, by omega, fun _ => ⟨rfl, rfl⟩,
      fun hne => absurd rfl hne, fun he => absurd he (by simp)⟩
  · obtain ⟨t, rest, hrun, hdone, hbusy, htaken, hpoint, hle, hretry⟩ :=
      encodeLoop_ends s.nmax.toNat s.inputPoint { s with iter := 0 } as (by simpa using (not_or.1 h).2) has
        (by simp)
    exact ⟨t, rest, (encodeBig_loop s as h).trans hrun, hdone, hbusy, htaken, fun he => absurd he hpoint,
      fun _ => hle, hretry⟩

end Sys2Proof.Laws
end

section
/-! Everything a command can do in one core step, said once: the writes of a successful command, the codes of a failed one,
and the arrows of the walks of `ENCODE` and `DECODE` (R151, R250 to R270, R305). -/
namespace Sys2Proof.Laws
open Sys2Proof Sys2Proof.Machine Sys2Proof.Claims

/-! ### Commands of one step -/

/-- The writes of a successful completing step other than its completion: `CommandWrite i s w` says that `i` can turn `s`
into `w`. Each constructor is a way to write and names the commands that write that way (R28, R31, R34, R37). -/
inductive CommandWrite : Instr → State → State → Prop
  | nothing {s : State} : CommandWrite .nop s s
  | register {i : Instr} {s : State} {d : Fin 8} {x : Fp} (hd : destinations i = [d.val]) :
      CommandWrite i s (s.setReg d x)
  | nullable {i : Instr} {s : State} {d : Fin 8} {o : Option Fp} (hd : destinations i = [d.val])
      (hi : (∃ rd ra, i = .fsqrt rd ra) ∨ ∃ rd pa j, i = .rsamp rd pa j) : CommandWrite i s (s.setNullable d o)
  | point {i : Instr} {s : State} {k : Fin 4} {p : Point} (hd : destinations i = [2 * k.val, 2 * k.val + 1])
      (hi : (∃ pd pa pb, i = .padd pd pa pb) ∨ ∃ pd ra, i = .fmap pd ra) : CommandWrite i s (s.setPointResult k p)
  | equality {ra rb : RegIdx} {s : State} {e : Bool} : CommandWrite (.feq ra rb) s (s.setT e)
  | bytes {ra : RegIdx} {off : BitVec 7} {s : State} {x : Fp} {m : Memory} (hoff : off.toNat ≤ 33)
      (hm : m = s.obuf.writeBytes off.toNat (toBytes x)) : CommandWrite (.fstb ra off) s { s with obuf := m }
  | encoded {s : State} {m : Memory} (hm : m = (s.obuf.writeBytes 0 (toBytes s.u)).writeBytes 32 (toBytes s.v)) :
      CommandWrite .encode s { s with obuf := m, olen := 64 }
  | decoded {s : State} {m : Memory} (hm : m = s.obuf.writeBytes 0 (sec1 s.p)) :
      CommandWrite .decode s ({ s with obuf := m, olen := 65 }.setI s.p)

/-- A one-step command's outcome, if it is a next state, is a completion: with an error or fatal code of the command and
nothing written, or with success and one of its writes made. -/
def CommandEnds (i : Instr) (s : State) (o : Out) : Prop :=
  ∀ t, o = .next t →
    (∃ c, (c = .illegal ∨ c ∈ codesOf i) ∧ t = s.complete c) ∨ ∃ w, CommandWrite i s w ∧ t = w.complete .ok

section
variable {i : Instr} {s : State}

theorem commandEnds_finish {w : State} (h : CommandWrite i s w) : CommandEnds i s (finish w) := by
  rintro t ⟨⟩
  exact .inr ⟨w, h, rfl⟩

theorem commandEnds_raise {c : Code} (h : c ∈ codesOf i) : CommandEnds i s (raise c s) := by
  rintro t ⟨⟩
  exact .inl ⟨c, .inr h, rfl⟩

theorem commandEnds_illegal : CommandEnds i s (raise .illegal s) := by
  rintro t ⟨⟩
  exact .inl ⟨.illegal, .inl rfl, rfl⟩

theorem commandEnds_orFault {α : Type} {v : Except Fault α} {k : α → Out} (h : ∀ a, CommandEnds i s (k a)) :
    CommandEnds i s (orFault v k) := by
  intro t ht
  obtain ⟨a, -, ha⟩ := orFault_eq_next ht
  exact h a t ha

theorem commandEnds_ite {p : Prop} [Decidable p] {a b : Out} (ha : CommandEnds i s a) (hb : ¬ p → CommandEnds i s b) :
    CommandEnds i s (if p then a else b) := by
  split_ifs with h
  · exact ha
  · exact hb h

theorem commandEnds_withR3 {rd ra rb : RegIdx} {k : Fin 8 → Fp → Fp → Out}
    (h : ∀ d a b, rd.toNat = d.val → CommandEnds i s (k d a b)) : CommandEnds i s (withR3 rd ra rb s k) := by
  rcases withR3_cases rd ra rb s k with ⟨d, a, b, hd, -, -, hk⟩ | hk <;> rw [hk]
  · exact h d a b (dstOf_eq_some.1 hd)
  · exact commandEnds_illegal

theorem commandEnds_withR2 {rd ra : RegIdx} {k : Fin 8 → Fp → Out}
    (h : ∀ d a, rd.toNat = d.val → CommandEnds i s (k d a)) : CommandEnds i s (withR2 rd ra s k) := by
  rcases withR2_cases rd ra s k with ⟨d, a, hd, -, hk⟩ | hk <;> rw [hk]
  · exact h d a (dstOf_eq_some.1 hd)
  · exact commandEnds_illegal

theorem commandEnds_withC {ra rb : RegIdx} {k : Fp → Fp → Out} (h : ∀ a b, CommandEnds i s (k a b)) :
    CommandEnds i s (withC ra rb s k) := by
  rcases withC_cases ra rb s k with ⟨a, b, -, -, hk⟩ | hk <;> rw [hk]
  · exact h a b
  · exact commandEnds_illegal

theorem commandEnds_withDst {rd : RegIdx} {k : Fin 8 → Out} (h : ∀ d, rd.toNat = d.val → CommandEnds i s (k d)) :
    CommandEnds i s (withDst rd s k) := by
  rcases withDst_cases rd s k with ⟨d, hd, hk⟩ | hk <;> rw [hk]
  · exact h d (dstOf_eq_some.1 hd)
  · exact commandEnds_illegal

theorem commandEnds_withSrc {ra : RegIdx} {k : Fp → Out} (h : ∀ a, CommandEnds i s (k a)) :
    CommandEnds i s (withSrc ra s k) := by
  rcases withSrc_cases ra s k with ⟨a, -, hk⟩ | hk <;> rw [hk]
  · exact h a
  · exact commandEnds_illegal

theorem commandEnds_withP3 {pd pa pb : PointIdx} {k : Fin 4 → Point → Point → Out}
    (h : ∀ d a b, pd.toNat = d.val → CommandEnds i s (k d a b)) : CommandEnds i s (withP3 pd pa pb s k) := by
  rcases withP3_cases pd pa pb s k with ⟨d, a, b, hd, -, -, hk⟩ | hk <;> rw [hk]
  · exact h d _ _ (pointOf_eq_some.1 hd)
  · exact commandEnds_illegal

theorem commandEnds_withM {pd : PointIdx} {ra : RegIdx} {k : Fin 4 → Fp → Out}
    (h : ∀ d a, pd.toNat = d.val → CommandEnds i s (k d a)) : CommandEnds i s (withM pd ra s k) := by
  rcases withM_cases pd ra s k with ⟨d, a, hd, -, hk⟩ | hk <;> rw [hk]
  · exact h d a (pointOf_eq_some.1 hd)
  · exact commandEnds_illegal

theorem commandEnds_withS {rd : RegIdx} {pa : PointIdx} {k : Fin 8 → Point → Out}
    (h : ∀ d p, rd.toNat = d.val → CommandEnds i s (k d p)) : CommandEnds i s (withS rd pa s k) := by
  rcases withS_cases rd pa s k with ⟨d, a, hd, -, hk⟩ | hk <;> rw [hk]
  · exact h d _ (dstOf_eq_some.1 hd)
  · exact commandEnds_illegal

/-- The result of a command whose one destination is `rd`. -/
theorem commandEnds_setReg {rd : RegIdx} {d : Fin 8} {x : Fp} (hi : destinations i = [rd.toNat])
    (hd : rd.toNat = d.val) : CommandEnds i s (finish (s.setReg d x)) :=
  commandEnds_finish (.register (hd ▸ hi))

theorem commandEnds_setNullable {rd : RegIdx} {d : Fin 8} {o : Option Fp} (hd : rd.toNat = d.val)
    (hdest : destinations i = [rd.toNat])
    (hi : (∃ rd ra, i = .fsqrt rd ra) ∨ ∃ rd pa j, i = .rsamp rd pa j) :
    CommandEnds i s (finish (s.setNullable d o)) :=
  commandEnds_finish (.nullable (hd ▸ hdest) hi)

theorem commandEnds_setPointResult {pd : PointIdx} {k : Fin 4} {p : Point} (hd : pd.toNat = k.val)
    (hdest : destinations i = [2 * pd.toNat, 2 * pd.toNat + 1])
    (hi : (∃ pd pa pb, i = .padd pd pa pb) ∨ ∃ pd ra, i = .fmap pd ra) :
    CommandEnds i s (finish (s.setPointResult k p)) :=
  commandEnds_finish (.point (hd ▸ hdest) hi)

end

/-- Every command but `ENCODE` and `DECODE` completes in its one step (R151, R250). -/
theorem exec_commandEnds (i : Instr) (s : State) (he : i ≠ .encode) (hd : i ≠ .decode) :
    CommandEnds i s (exec i s) := by
  cases i with
  | nop => exact commandEnds_finish .nothing
  | fadd => exact commandEnds_withR3 fun _ _ _ => commandEnds_setReg rfl
  | fsub => exact commandEnds_withR3 fun _ _ _ => commandEnds_setReg rfl
  | fmul => exact commandEnds_withR3 fun _ _ _ => commandEnds_setReg rfl
  | fsqr => exact commandEnds_withR2 fun _ _ => commandEnds_setReg rfl
  | fneg => exact commandEnds_withR2 fun _ _ => commandEnds_setReg rfl
  | finv =>
    exact commandEnds_withR2 fun _ _ h => commandEnds_ite (commandEnds_raise (.head _)) fun _ =>
      commandEnds_orFault fun _ => commandEnds_setReg rfl h
  | fsqrt rd ra =>
    exact commandEnds_withR2 fun _ _ h => commandEnds_setNullable h rfl (.inl ⟨rd, ra, rfl⟩)
  | feq => exact commandEnds_withC fun _ _ => commandEnds_finish .equality
  | fmov => exact commandEnds_withR2 fun _ _ => commandEnds_setReg rfl
  | fldi => exact commandEnds_withDst fun _ => commandEnds_setReg rfl
  | fldb =>
    exact commandEnds_withDst fun _ h => commandEnds_ite (commandEnds_raise (.head _)) fun _ =>
      commandEnds_setReg rfl h
  | fstb =>
    exact commandEnds_withSrc fun _ => commandEnds_ite (commandEnds_raise (.head _)) fun h =>
      commandEnds_finish (.bytes (not_lt.1 h) rfl)
  | padd pd pa pb =>
    rw [exec, execPadd]
    refine commandEnds_withP3 fun _ _ _ h => ?_
    exact commandEnds_ite (commandEnds_raise (.head _)) fun _ =>
      commandEnds_orFault fun _ => commandEnds_setPointResult h rfl (.inl ⟨pd, pa, pb, rfl⟩)
  | gx => exact commandEnds_withR2 fun _ _ => commandEnds_setReg rfl
  | x0 =>
    exact commandEnds_withR2 fun _ _ h => commandEnds_ite (commandEnds_raise (.head _)) fun _ =>
      commandEnds_orFault fun _ => commandEnds_setReg rfl h
  | x1 =>
    exact commandEnds_withR2 fun _ _ h => commandEnds_ite (commandEnds_raise (.head _)) fun _ =>
      commandEnds_orFault fun _ => commandEnds_setReg rfl h
  | fmap pd ra =>
    refine commandEnds_withM fun _ _ h => commandEnds_orFault fun o => ?_
    cases o with
    | none => exact commandEnds_raise (.head _)
    | some p => exact commandEnds_setPointResult h rfl (.inr ⟨pd, ra, rfl⟩)
  | rsamp rd pa j =>
    rw [exec, execRsamp]
    refine commandEnds_withS fun _ _ h => ?_
    exact commandEnds_ite (commandEnds_raise (.head _)) fun _ =>
      commandEnds_orFault fun _ => commandEnds_setNullable h rfl (.inr ⟨rd, pa, j, rfl⟩)
  | encode => exact absurd rfl he
  | decode => exact absurd rfl hd

/-! ### The walk of `ENCODE` -/

/-- The arrows of the walk of `ENCODE`: `EncodeMove s t` says that one core step of `ENCODE` can lead from `s` to `t`
(R252 to R261). A state that is none of the walk's is at its beginning (assumption log 6). -/
inductive EncodeMove (s : State) : State → Prop
  | refused {p : Point} (hf : s.fsm.inLoop = false) :
      EncodeMove s ({ s with px := p.x, py := p.y }.completeDriver .point)
  | validated {p : Point} (hf : s.fsm.inLoop = false) (hp : p.valid = true) :
      EncodeMove s { s with px := p.x, py := p.y, iter := 0, fsm := .eLoop }
  | capReached (hf : s.fsm = .eLoop) (hn : s.iter = s.nmax) : EncodeMove s (s.completeDriver .retry)
  | started (hf : s.fsm = .eLoop) (hn : s.iter ≠ s.nmax) :
      EncodeMove s { s.startRead with iter := s.iter + 1, fsm := .eDrawU }
  | waiting (hf : s.fsm = .eDrawU ∨ s.fsm = .eDrawJ) (hin : s.rngIn = none) : EncodeMove s s
  | rngFailed (hf : s.fsm = .eDrawU ∨ s.fsm = .eDrawJ) : EncodeMove s (s.startRead.completeDriver .rng)
  | byte {b : Byte} (hf : s.fsm = .eDrawU) (hlen : s.rngBuf.length + 1 < 32) :
      EncodeMove s { s with rngBuf := s.rngBuf ++ [b], rngIn := none }
  | drawnU {x : Fp} (hf : s.fsm = .eDrawU) : EncodeMove s { s.startRead with u := x, fsm := .eCheckU }
  | again (hf : s.fsm = .eCheckU ∨ s.fsm = .eCheckQ ∨ s.fsm = .eSample) : EncodeMove s { s with fsm := .eLoop }
  | checkedU (hf : s.fsm = .eCheckU) (hu : singular s.u = false) : EncodeMove s { s with fsm := .eMap }
  | mapFailed (hf : s.fsm = .eMap) : EncodeMove s (s.completeDriver .mapInv)
  | mapped {p : Point} (hf : s.fsm = .eMap) (hp : mapF s.u = .ok (some p)) :
      EncodeMove s { s with xf := p.x, yf := p.y, fsm := .eSub }
  | subtracted {q : Point} (hf : s.fsm = .eSub) (hq : affineAdd s.p s.f.neg = .ok q) :
      EncodeMove s { s with qx := q.x, qy := q.y, fsm := .eCheckQ }
  | checkedQ (hf : s.fsm = .eCheckQ) (hq : s.q ≠ infinity) : EncodeMove s { s.startRead with fsm := .eDrawJ }
  | drawnJ {j : BitVec 2} (hf : s.fsm = .eDrawJ) : EncodeMove s { s.startRead with j := j, fsm := .eSample }
  | sampled {x : Fp} (hf : s.fsm = .eSample) : EncodeMove s { s with v := x, fsm := .eEmit }
  | emitted {w : State} (hf : s.fsm = .eEmit) (hw : CommandWrite .encode s w) : EncodeMove s (w.complete .ok)

section
variable {s t : State}

theorem encValidate_move (hf : s.fsm.inLoop = false) (h : encValidate s = .next t) : EncodeMove s t := by
  rw [encValidate] at h
  split_ifs at h with _ _ hv <;> cases h
  · exact .refused (p := s.p) hf
  · exact .refused (p := s.p) hf
  · exact .refused (p := s.inputPoint) hf
  · exact .validated hf (by simpa using hv)

theorem encLoop_move (hf : s.fsm = .eLoop) (h : encLoop s = .next t) : EncodeMove s t := by
  rw [encLoop] at h
  split_ifs at h with hn <;> cases h
  · exact .capReached hf hn
  · exact .started hf hn

theorem encDrawU_move (hf : s.fsm = .eDrawU) (h : encDrawU s = .next t) : EncodeMove s t := by
  rw [encDrawU] at h
  rcases rngRead_cases s 32 with ⟨hin, hr⟩ | ⟨-, hr⟩ | ⟨b, -, hlen, hr⟩ | ⟨b, -, -, hr⟩ <;> rw [hr] at h <;> cases h
  · exact .waiting (.inl hf) hin
  · exact .rngFailed (.inl hf)
  · exact .byte hf hlen
  · exact .drawnU hf

theorem encCheckU_move (hf : s.fsm = .eCheckU) (h : encCheckU s = .next t) : EncodeMove s t := by
  rw [encCheckU] at h
  split_ifs at h with hu <;> cases h
  · exact .again (.inl hf)
  · exact .checkedU hf (by simpa using hu)

theorem encMap_move (hf : s.fsm = .eMap) (h : encMap s = .next t) : EncodeMove s t := by
  obtain ⟨o, ho, h⟩ := orFault_eq_next h
  cases o <;> cases h
  · exact .mapFailed hf
  · exact .mapped hf ho

theorem encSub_move (hf : s.fsm = .eSub) (h : encSub s = .next t) : EncodeMove s t := by
  obtain ⟨q, hq, h⟩ := orFault_eq_next h
  cases h
  exact .subtracted hf hq

theorem encCheckQ_move (hf : s.fsm = .eCheckQ) (h : encCheckQ s = .next t) : EncodeMove s t := by
  rw [encCheckQ] at h
  split_ifs at h with hq <;> cases h
  · exact .again (.inr (.inl hf))
  · exact .checkedQ hf hq

theorem encDrawJ_move (hf : s.fsm = .eDrawJ) (h : encDrawJ s = .next t) : EncodeMove s t := by
  rw [encDrawJ] at h
  rcases rngRead_cases s 1 with ⟨hin, hr⟩ | ⟨-, hr⟩ | ⟨b, -, hlen, -⟩ | ⟨b, -, -, hr⟩
  · rw [hr] at h
    cases h
    exact .waiting (.inr hf) hin
  · rw [hr] at h
    cases h
    exact .rngFailed (.inr hf)
  · omega
  · rw [hr] at h
    cases h
    exact .drawnJ hf

theorem encSample_move (hf : s.fsm = .eSample) (h : encSample s = .next t) : EncodeMove s t := by
  obtain ⟨o, -, h⟩ := orFault_eq_next h
  cases o <;> cases h
  · exact .again (.inr (.inr hf))
  · exact .sampled hf

/-- Every core step of `ENCODE` is an arrow of its walk. -/
theorem execEncode_move (h : exec .encode s = .next t) : EncodeMove s t := by
  rw [exec, execEncode] at h
  cases hf : s.fsm <;> rw [hf] at h
  case eLoop => exact encLoop_move hf h
  case eDrawU => exact encDrawU_move hf h
  case eCheckU => exact encCheckU_move hf h
  case eMap => exact encMap_move hf h
  case eSub => exact encSub_move hf h
  case eCheckQ => exact encCheckQ_move hf h
  case eDrawJ => exact encDrawJ_move hf h
  case eSample => exact encSample_move hf h
  case eEmit => cases h; exact .emitted hf (.encoded rfl)
  all_goals exact encValidate_move (by rw [hf]; rfl) h

/-! ### The walk of `DECODE` -/

/-- The arrows of the walk of `DECODE` (R264 to R268). -/
inductive DecodeMove (s : State) : State → Prop
  | refused : DecodeMove s (s.completeDriver .encoding)
  | validated {x y : Fp} : DecodeMove s { s with u := x, v := y, fsm := .dMapU }
  | mapFailed (hf : s.fsm = .dMapU ∨ s.fsm = .dMapV) : DecodeMove s (s.completeDriver .mapInv)
  | mappedU {p : Point} (hf : s.fsm = .dMapU) (hp : mapF s.u = .ok (some p)) :
      DecodeMove s { s with xf := p.x, yf := p.y, fsm := .dMapV }
  | mappedV {p : Point} (hf : s.fsm = .dMapV) (hp : mapF s.v = .ok (some p)) :
      DecodeMove s { s with qx := p.x, qy := p.y, fsm := .dAdd }
  | added {p : Point} (hf : s.fsm = .dAdd) (hp : affineAdd s.f s.q = .ok p) :
      DecodeMove s { s with px := p.x, py := p.y, fsm := .dEmit }
  | emitted {w : State} (hf : s.fsm = .dEmit) (hw : CommandWrite .decode s w) : DecodeMove s (w.complete .ok)

theorem decValidate_move (h : decValidate s = .next t) : DecodeMove s t := by
  rw [decValidate] at h
  split_ifs at h <;> cases h
  · exact .refused
  · exact .validated

theorem decMapU_move (hf : s.fsm = .dMapU) (h : decMapU s = .next t) : DecodeMove s t := by
  obtain ⟨o, ho, h⟩ := orFault_eq_next h
  cases o <;> cases h
  · exact .mapFailed (.inl hf)
  · exact .mappedU hf ho

theorem decMapV_move (hf : s.fsm = .dMapV) (h : decMapV s = .next t) : DecodeMove s t := by
  obtain ⟨o, ho, h⟩ := orFault_eq_next h
  cases o <;> cases h
  · exact .mapFailed (.inr hf)
  · exact .mappedV hf ho

theorem decAdd_move (hf : s.fsm = .dAdd) (h : decAdd s = .next t) : DecodeMove s t := by
  obtain ⟨p, hp, h⟩ := orFault_eq_next h
  cases h
  exact .added hf hp

/-- Every core step of `DECODE` is an arrow of its walk. -/
theorem execDecode_move (h : exec .decode s = .next t) : DecodeMove s t := by
  rw [exec, execDecode] at h
  cases hf : s.fsm <;> rw [hf] at h
  case dMapU => exact decMapU_move hf h
  case dMapV => exact decMapV_move hf h
  case dAdd => exact decAdd_move hf h
  case dEmit => cases h; exact .emitted hf (.decoded rfl)
  all_goals exact decValidate_move h

end

end Sys2Proof.Laws
end

section
/-! The invariant `State.Safe` is kept by every step of every agent (R25, R27, R31, R33, R65, R80, R252 to R268). -/
namespace Sys2Proof.Laws
open Sys2Proof Sys2Proof.Machine Sys2Proof.Claims

/-! ### What a step leaves as it is -/

/-- A write touches the field registers, the flags, `OBUF` and `OLEN` only (R28, R31, R33, R34, R37). -/
theorem CommandWrite.frame {i : Instr} {s w : State} (h : CommandWrite i s w) :
    w = { s with
      regs := w.regs, flagT := w.flagT, flagN := w.flagN, flagI := w.flagI, obuf := w.obuf, olen := w.olen } := by
  cases h with
  | @nullable _ _ _ o => cases o <;> rfl
  | _ => rfl

/-- A command that goes on walking has changed `FSM`, `ITER` and the hidden datapath registers only. -/
def WalkFrame (s t : State) : Prop :=
  t.forgetDatapath = ({ s with fsm := t.fsm, iter := t.iter } : State).forgetDatapath

/-! ### States of the FSM -/

section
variable {s t : State}

theorem busy_of_inEncode (h : s.fsm.inEncode = true) : s.busy = true := by
  rw [busy_iff]
  constructor <;> intro hf <;> rw [hf] at h <;> cases h

theorem busy_of_inDecode (h : s.fsm.inDecode = true) : s.busy = true := by
  rw [busy_iff]
  constructor <;> intro hf <;> rw [hf] at h <;> cases h

theorem inEncode_of_inIteration {f : Fsm} (h : f.inIteration = true) : f.inLoop = true ∧ f.inEncode = true := by
  revert h
  cases f <;> simp [Fsm.inIteration, Fsm.inLoop, Fsm.inEncode]

theorem not_inDecode_of_inEncode {f : Fsm} (h : f.inEncode = true) : ¬ f.inDecode = true := by
  revert h
  cases f <;> simp [Fsm.inEncode, Fsm.inDecode]

theorem fsm_cases_of_busy (h : s.busy = true) :
    s.fsm = .exec ∨ s.fsm.inEncode = true ∨ s.fsm.inDecode = true := by
  obtain ⟨hidle, hfatal⟩ := (busy_iff s).1 h
  revert hidle hfatal
  cases s.fsm <;> simp [Fsm.inEncode, Fsm.inDecode]

theorem fsm_cases_of_not_busy (h : s.busy = false) : s.fsm = .idle ∨ s.fsm = .fatal := by
  by_contra hc
  exact absurd ((busy_iff s).2 (not_or.1 hc)) (by simp [h])

/-- While the core does not draw, no answer stands and no byte is held (R80, R81). -/
theorem no_read (h : s.Consistent) (hU : s.fsm ≠ .eDrawU) (hJ : s.fsm ≠ .eDrawJ) :
    s.rngIn = none ∧ s.rngBuf = [] := by
  have hc := h.counter
  rw [if_neg hU] at hc
  exact ⟨by_contra fun hne => (h.answer_pending hne).elim hU hJ, hc⟩

theorem no_read_of_not_busy (h : s.Consistent) (hb : s.busy = false) : s.rngIn = none ∧ s.rngBuf = [] := by
  rcases fsm_cases_of_not_busy hb with hf | hf <;> exact no_read h (by simp [hf]) (by simp [hf])

/-- A busy core in a consistent state is in the walk of the command that `CMD` holds (R26). -/
theorem inEncode_of_cmd (h : s.Consistent) (hb : s.busy = true) (hc : decode s.cmd = .ok .encode) :
    s.fsm.inEncode = true := by
  rcases fsm_cases_of_busy hb with hf | hf | hf
  · exact absurd hc (h.walk_exec hf).1
  · exact hf
  · exact absurd (hc.symm.trans (h.walk_decode hf)) (by simp)

theorem inDecode_of_cmd (h : s.Consistent) (hb : s.busy = true) (hc : decode s.cmd = .ok .decode) :
    s.fsm.inDecode = true := by
  rcases fsm_cases_of_busy hb with hf | hf | hf
  · exact absurd hc (h.walk_exec hf).2
  · exact absurd (hc.symm.trans (h.walk_encode hf)) (by simp)
  · exact hf

theorem fsm_exec_of_cmd (h : s.Consistent) (hb : s.busy = true) (he : decode s.cmd ≠ .ok .encode)
    (hd : decode s.cmd ≠ .ok .decode) : s.fsm = .exec := by
  rcases fsm_cases_of_busy hb with hf | hf | hf
  · exact hf
  · exact absurd (h.walk_encode hf) he
  · exact absurd (h.walk_decode hf) hd

/-! ### Ways to be safe -/

/-- A core at rest is safe when its buffers, its code, `OLEN` and the RNG port are. -/
theorem safe_of_not_busy (hb : t.busy = false) (hibuf : t.ibuf.wf = true) (hobuf : t.obuf.wf = true)
    (hfatal : t.fsm = .fatal ↔ t.err.fatal = true) (holen : t.olen = 0 ∨ t.olen = 64 ∨ t.olen = 65)
    (hread : t.rngIn = none ∧ t.rngBuf = []) : t.Safe := by
  obtain ⟨hin, hbuf⟩ := hread
  rcases fsm_cases_of_not_busy hb with hf | hf
  all_goals
    constructor
    · constructor <;> simp_all [Fsm.inEncode, Fsm.inDecode, Fsm.inLoop, Fsm.inIteration]
    · constructor <;> simp [hf, Fsm.inLoop, Fsm.inEncode]

theorem complete_fatal_iff (w : State) (c : Code) :
    (w.complete c).fsm = .fatal ↔ (w.complete c).err.fatal = true := by
  rw [complete_fsm, complete_err]
  split_ifs with h <;> simp [h]

/-- A completed core is safe (R27, R305, R310). -/
theorem complete_safe {w : State} {c : Code} (hibuf : w.ibuf.wf = true) (hobuf : w.obuf.wf = true)
    (holen : w.olen = 0 ∨ w.olen = 64 ∨ w.olen = 65) (hread : w.rngIn = none ∧ w.rngBuf = []) :
    (w.complete c).Safe :=
  safe_of_not_busy (complete_not_busy w c) hibuf hobuf (complete_fatal_iff w c) holen hread

/-- A failed `ENCODE` or `DECODE` leaves the core safe. -/
theorem completeDriver_safe {w : State} {c : Code} (hibuf : w.ibuf.wf = true) (hobuf : w.obuf.wf = true)
    (hread : w.rngIn = none ∧ w.rngBuf = []) : (w.completeDriver c).Safe :=
  safe_of_not_busy (complete_not_busy w c) hibuf hobuf (complete_fatal_iff w c) (.inl rfl) hread

/-- What the environment holds, and `IE`, do not matter. -/
theorem safe_setEnvironment (h : s.Safe) (es : List Event) (r : Option Response) (n : Nat) (ie : Bool) :
    ({ s with events := es, resp := r, freeCount := n, ie := ie } : State).Safe :=
  ⟨{ h.1 with }, { h.2 with }⟩

/-- Walking on keeps consistency when the walk is that of the command in `CMD`, `ITER` stays in its bounds and the RNG
port is used by a read only. -/
theorem consistent_of_walk (h : s.Consistent) (hb : s.busy = true) (hframe : WalkFrame s t)
    (hwalk : t.fsm.inEncode = true ∧ decode s.cmd = .ok .encode ∨ t.fsm.inDecode = true ∧ decode s.cmd = .ok .decode)
    (hle : t.fsm.inLoop = true → t.iter.toNat ≤ s.nmax.toNat) (hpos : t.fsm.inIteration = true → 0 < t.iter.toNat)
    (hanswer : t.rngIn ≠ none → t.fsm = .eDrawU ∨ t.fsm = .eDrawJ)
    (hcounter : if t.fsm = .eDrawU then t.rngBuf.length < 32 else t.rngBuf = []) : t.Consistent := by
  have hcmd : t.cmd = s.cmd := (congrArg State.cmd hframe :)
  have hibuf : t.ibuf = s.ibuf := (congrArg State.ibuf hframe :)
  have hobuf : t.obuf = s.obuf := (congrArg State.obuf hframe :)
  have hdone : t.done = s.done := (congrArg State.done hframe :)
  have herr : t.err = s.err := (congrArg State.err hframe :)
  have holen : t.olen = s.olen := (congrArg State.olen hframe :)
  have hnmax : t.nmax = s.nmax := (congrArg State.nmax hframe :)
  obtain ⟨hd, he⟩ := h.busy_clear hb
  constructor
  case ibuf_wf => exact hibuf ▸ h.ibuf_wf
  case obuf_wf => exact hobuf ▸ h.obuf_wf
  case busy_clear => exact fun _ => ⟨hdone.trans hd, herr.trans he⟩
  case fatal_code =>
    rw [herr, he]
    refine ⟨fun hf => ?_, fun hc => absurd hc (by decide)⟩
    rcases hwalk with ⟨hw, -⟩ | ⟨hw, -⟩ <;> rw [hf] at hw <;> cases hw
  case walk_encode =>
    rw [hcmd]
    rcases hwalk with ⟨-, hw⟩ | ⟨hw, -⟩
    · exact fun _ => hw
    · exact fun hf => absurd hw (not_inDecode_of_inEncode hf)
  case walk_decode =>
    rw [hcmd]
    rcases hwalk with ⟨hw, -⟩ | ⟨-, hw⟩
    · exact fun hf => absurd hf (not_inDecode_of_inEncode hw)
    · exact fun _ => hw
  case walk_exec =>
    intro hf
    rcases hwalk with ⟨hw, -⟩ | ⟨hw, -⟩ <;> rw [hf] at hw <;> cases hw
  case iter_le => exact hnmax ▸ hle
  case iter_pos => exact hpos
  case olen_values => exact holen ▸ h.olen_values
  case answer_pending => exact hanswer
  case counter => exact hcounter

/-- A state in which no read is going on, or one is just starting. -/
theorem counter_of_nil (h : t.rngBuf = []) : if t.fsm = .eDrawU then t.rngBuf.length < 32 else t.rngBuf = [] := by
  split_ifs
  · simp [h]
  · exact h

/-- Within a started iteration `ENCODE` keeps consistency by going on to any state of its walk with `ITER` kept and no byte
received. -/
theorem consistent_of_iteration (h : s.Consistent) (hs : s.fsm.inIteration = true) (hframe : WalkFrame s t)
    (hf : t.fsm.inEncode = true) (hiter : t.iter = s.iter) (hread : t.rngIn = none ∧ t.rngBuf = []) :
    t.Consistent := by
  obtain ⟨hloop, henc⟩ := inEncode_of_inIteration hs
  obtain ⟨hin, hbuf⟩ := hread
  exact consistent_of_walk h (busy_of_inEncode henc) hframe (.inl ⟨hf, h.walk_encode henc⟩)
    (fun _ => hiter ▸ h.iter_le hloop) (fun _ => hiter ▸ h.iter_pos hs) (fun hne => absurd hin hne)
    (counter_of_nil hbuf)

/-- Within a started iteration `ENCODE` is safe when it goes on so and its datapath is, the target point being valid. -/
theorem safe_of_iteration (h : s.Safe) (hs : s.fsm.inIteration = true) (hframe : WalkFrame s t)
    (hf : t.fsm.inEncode = true) (hiter : t.iter = s.iter) (hread : t.rngIn = none ∧ t.rngBuf = [])
    (hdata : s.p.valid = true → t.DatapathValid) : t.Safe :=
  ⟨consistent_of_iteration h.1 hs hframe hf hiter hread, hdata (h.2.target (inEncode_of_inIteration hs).1)⟩

/-- `DECODE` keeps consistency by going on to any state of its walk. -/
theorem consistent_of_decoding (h : s.Consistent) (hs : s.fsm.inDecode = true) (hframe : WalkFrame s t)
    (hf : t.fsm.inDecode = true) (hread : t.rngIn = none ∧ t.rngBuf = []) : t.Consistent := by
  obtain ⟨hin, hbuf⟩ := hread
  have hout : t.fsm.inLoop = false := by
    revert hf
    cases t.fsm <;> simp [Fsm.inDecode, Fsm.inLoop, Fsm.inEncode]
  exact consistent_of_walk h (busy_of_inDecode hs) hframe (.inr ⟨hf, h.walk_decode hs⟩)
    (fun hl => absurd hl (by simp [hout])) (fun hl => absurd hl (by simp [Fsm.inIteration, hout]))
    (fun hne => absurd hin hne) (counter_of_nil hbuf)

/-- The conditions on the datapath, those of another state of the walk left out. -/
theorem datapathValid_intro
    (target : t.fsm.inLoop = true → t.p.valid = true := by simp [Fsm.inLoop, Fsm.inEncode])
    (mapArg : t.fsm = .eMap → singular t.u = false := by simp)
    (image : t.fsm = .eSub → t.f.valid = true := by simp)
    (difference : t.fsm = .eCheckQ → t.q.valid = true := by simp)
    (sampled : t.fsm = .eDrawJ ∨ t.fsm = .eSample → t.q.valid = true ∧ t.q ≠ infinity := by simp)
    (firstImage : t.fsm = .dMapV → t.f.valid = true := by simp)
    (images : t.fsm = .dAdd → t.f.valid = true ∧ t.q.valid = true := by simp)
    (sum : t.fsm = .dEmit → t.p.valid = true := by simp) : t.DatapathValid :=
  ⟨target, mapArg, image, difference, sampled, firstImage, images, sum⟩

/-! ### The steps of the core -/

/-- A write keeps the canonical form of `OBUF`: its byte strings fit the buffer (R176, R261, R268). -/
theorem CommandWrite.obuf_wf {i : Instr} {w : State} (h : CommandWrite i s w) (hs : s.obuf.wf = true) :
    w.obuf.wf = true := by
  cases h with
  | @bytes _ off _ x m hoff hm =>
    change m.wf = true
    rw [hm]
    exact writeBytes_wf _ _ _ hs (by rw [length_toBytes, bufSize]; omega)
  | @encoded _ m hm =>
    change m.wf = true
    rw [hm]
    exact writeBytes_wf _ _ _ (writeBytes_wf _ _ _ hs (by simp [bufSize])) (by simp [bufSize])
  | @decoded _ m hm =>
    change m.wf = true
    rw [hm]
    exact writeBytes_wf _ _ _ hs (by simp [bufSize, sec1])
  | @nullable _ _ _ o => cases o <;> exact hs
  | _ => exact hs

/-- A write leaves `OLEN` or sets it to one of its values (R31). -/
theorem CommandWrite.olen_values {i : Instr} {w : State} (h : CommandWrite i s w)
    (hs : s.olen = 0 ∨ s.olen = 64 ∨ s.olen = 65) : w.olen = 0 ∨ w.olen = 64 ∨ w.olen = 65 := by
  cases h with
  | encoded => exact .inr (.inl rfl)
  | decoded => exact .inr (.inr rfl)
  | @nullable _ _ _ o => cases o <;> exact hs
  | _ => exact hs

/-- A successful completion keeps the invariant. -/
theorem CommandWrite.complete_safe {i : Instr} {w : State} (h : CommandWrite i s w) (hc : s.Consistent)
    (hread : s.rngIn = none ∧ s.rngBuf = []) : (w.complete .ok).Safe := by
  have hobuf := h.obuf_wf hc.obuf_wf
  have holen := h.olen_values hc.olen_values
  rw [h.frame]
  exact Laws.complete_safe hc.ibuf_wf hobuf holen hread

/-- Every arrow of the walk of `ENCODE` keeps the invariant. -/
theorem encodeMove_safe (h : s.Safe) (hs : s.fsm.inEncode = true) (hm : EncodeMove s t) : t.Safe := by
  have ⟨hc, hd⟩ := h
  have hb := busy_of_inEncode hs
  have hcmd := hc.walk_encode hs
  have hread : s.fsm ≠ .eDrawU → s.fsm ≠ .eDrawJ → s.rngIn = none ∧ s.rngBuf = [] := no_read hc
  have hstart : s.fsm.inLoop = false → s.rngIn = none ∧ s.rngBuf = [] := fun hf =>
    hread (fun he => by simp [he, Fsm.inLoop, Fsm.inEncode] at hf)
      fun he => by simp [he, Fsm.inLoop, Fsm.inEncode] at hf
  cases hm with
  | refused hf => exact completeDriver_safe hc.ibuf_wf hc.obuf_wf (hstart hf)
  | validated hf hp =>
    obtain ⟨hin, hbuf⟩ := hstart hf
    exact ⟨consistent_of_walk hc hb rfl (.inl ⟨rfl, hcmd⟩) (by simp) (by simp [Fsm.inIteration])
      (by simp [hin]) (counter_of_nil hbuf), datapathValid_intro (target := fun _ => hp)⟩
  | capReached hf => exact completeDriver_safe hc.ibuf_wf hc.obuf_wf (hread (by simp [hf]) (by simp [hf]))
  | started hf hn =>
    have hloop : s.fsm.inLoop = true := by rw [hf]; rfl
    have hle := hc.iter_le hloop
    have hne : s.iter.toNat ≠ s.nmax.toNat := fun he => hn (BitVec.eq_of_toNat_eq he)
    have hiter := toNat_add_one (lt_of_le_of_ne hle hne)
    exact ⟨consistent_of_walk hc hb rfl (.inl ⟨rfl, hcmd⟩) (fun _ => by simp only [hiter]; omega)
      (fun _ => by simp only [hiter]; omega)
      (by simp) (counter_of_nil rfl), datapathValid_intro (target := fun _ => hd.target hloop)⟩
  | waiting => exact ⟨hc, hd⟩
  | rngFailed => exact completeDriver_safe hc.ibuf_wf hc.obuf_wf ⟨rfl, rfl⟩
  | byte hf hlen =>
    have hit : s.fsm.inIteration = true := by rw [hf]; rfl
    have hloop := (inEncode_of_inIteration hit).1
    refine ⟨consistent_of_walk hc hb rfl (.inl ⟨hs, hcmd⟩) (fun _ => hc.iter_le hloop) (fun _ => hc.iter_pos hit)
      (by simp) ?_, { hd with }⟩
    rw [if_pos hf, List.length_append]
    exact hlen
  | drawnU hf =>
    exact safe_of_iteration h (by rw [hf]; rfl) rfl rfl rfl ⟨rfl, rfl⟩ fun hp => datapathValid_intro (fun _ => hp)
  | again hf =>
    have hnone : s.rngIn = none ∧ s.rngBuf = [] := by
      rcases hf with hf | hf | hf <;> exact hread (by simp [hf]) (by simp [hf])
    exact safe_of_iteration h (by rcases hf with hf | hf | hf <;> rw [hf] <;> rfl) rfl rfl rfl hnone
      fun hp => datapathValid_intro (fun _ => hp)
  | checkedU hf hu =>
    exact safe_of_iteration h (by rw [hf]; rfl) rfl rfl rfl (hread (by simp [hf]) (by simp [hf]))
      fun hp => datapathValid_intro (fun _ => hp) (mapArg := fun _ => hu)
  | mapFailed hf => exact completeDriver_safe hc.ibuf_wf hc.obuf_wf (hread (by simp [hf]) (by simp [hf]))
  | mapped hf ho =>
    exact safe_of_iteration h (by rw [hf]; rfl) rfl rfl rfl (hread (by simp [hf]) (by simp [hf]))
      fun hp => datapathValid_intro (fun _ => hp) (image := fun _ => mapF_valid ho)
  | subtracted hf hq =>
    exact safe_of_iteration h (by rw [hf]; rfl) rfl rfl rfl (hread (by simp [hf]) (by simp [hf]))
      fun hp => datapathValid_intro (fun _ => hp) (difference := fun _ => affineAdd_valid hq)
  | checkedQ hf hq =>
    exact safe_of_iteration h (by rw [hf]; rfl) rfl rfl rfl ⟨rfl, rfl⟩
      fun hp => datapathValid_intro (fun _ => hp) (sampled := fun _ => ⟨hd.difference hf, hq⟩)
  | drawnJ hf =>
    exact safe_of_iteration h (by rw [hf]; rfl) rfl rfl rfl ⟨rfl, rfl⟩
      fun hp => datapathValid_intro (fun _ => hp) (sampled := fun _ => hd.sampled (.inl hf))
  | sampled hf =>
    exact safe_of_iteration h (by rw [hf]; rfl) rfl rfl rfl (hread (by simp [hf]) (by simp [hf]))
      fun hp => datapathValid_intro (fun _ => hp)
  | emitted hf hw => exact hw.complete_safe hc (hread (by simp [hf]) (by simp [hf]))

/-- Every arrow of the walk of `DECODE` keeps the invariant. -/
theorem decodeMove_safe (h : s.Safe) (hs : s.fsm.inDecode = true) (hm : DecodeMove s t) : t.Safe := by
  obtain ⟨hc, hd⟩ := h
  have hread : s.rngIn = none ∧ s.rngBuf = [] :=
    no_read hc (fun he => by simp [he, Fsm.inDecode] at hs) fun he => by simp [he, Fsm.inDecode] at hs
  cases hm with
  | refused => exact completeDriver_safe hc.ibuf_wf hc.obuf_wf hread
  | validated => exact ⟨consistent_of_decoding hc hs rfl rfl hread, datapathValid_intro⟩
  | mapFailed => exact completeDriver_safe hc.ibuf_wf hc.obuf_wf hread
  | mappedU hf hp =>
    exact ⟨consistent_of_decoding hc hs rfl rfl hread, datapathValid_intro (firstImage := fun _ => mapF_valid hp)⟩
  | mappedV hf hp =>
    exact ⟨consistent_of_decoding hc hs rfl rfl hread,
      datapathValid_intro (images := fun _ => ⟨hd.firstImage hf, mapF_valid hp⟩)⟩
  | added hf hp =>
    exact ⟨consistent_of_decoding hc hs rfl rfl hread, datapathValid_intro (sum := fun _ => affineAdd_valid hp)⟩
  | emitted _ hw => exact hw.complete_safe hc hread

/-- A one-step command keeps the invariant. -/
theorem commandEnds_safe {i : Instr} {o : Out} (h : s.Safe) (hf : s.fsm = .exec) (ho : CommandEnds i s o)
    (ht : o = .next t) : t.Safe := by
  obtain ⟨hc, -⟩ := h
  have hread := no_read hc (by simp [hf]) (by simp [hf])
  rcases ho t ht with ⟨c, -, rfl⟩ | ⟨w, hw, rfl⟩
  · exact complete_safe hc.ibuf_wf hc.obuf_wf hc.olen_values hread
  · exact hw.complete_safe hc hread

/-- A turn of the core keeps the invariant. -/
theorem coreStep_safe (h : s.Safe) (ht : coreStep s = .next t) : t.Safe := by
  rcases hb : s.busy with _ | _
  · rw [coreStep_idle hb] at ht
    cases ht
    exact h
  · rcases hcmd : decode s.cmd with e | i
    · rw [coreStep_error hb hcmd] at ht
      exact commandEnds_safe (i := .nop) h (fsm_exec_of_cmd h.1 hb (by simp [hcmd]) (by simp [hcmd]))
        commandEnds_illegal ht
    · rw [coreStep_ok hb hcmd] at ht
      by_cases he : i = .encode
      · subst he
        exact encodeMove_safe h (inEncode_of_cmd h.1 hb hcmd) (execEncode_move ht)
      by_cases hd : i = .decode
      · subst hd
        exact decodeMove_safe h (inDecode_of_cmd h.1 hb hcmd) (execDecode_move ht)
      exact commandEnds_safe h (fsm_exec_of_cmd h.1 hb (by simp [hcmd, he]) (by simp [hcmd, hd]))
        (exec_commandEnds i s he hd) ht

/-! ### The turns of the others -/

/-- Settles O2: the reset state is at rest, with code 0 and empty buffers. -/
theorem resetIsSafe : Obligations.ResetIsSafe :=
  safe_of_not_busy rfl rfl rfl (by decide) (.inl rfl) ⟨rfl, rfl⟩

theorem toReset_safe : s.toReset.Safe :=
  safe_setEnvironment resetIsSafe s.events s.resp s.freeCount false

/-- An answer on the RNG port keeps the invariant: it is taken in while a read is going on (R80). -/
theorem rngStep_safe (a : RngAnswer) (h : s.Safe) : (rngStep a s).Safe := by
  rw [rngStep]
  split_ifs with hreq
  · obtain ⟨hf, -⟩ : (s.fsm = .eDrawU ∨ s.fsm = .eDrawJ) ∧ s.rngIn = none := by simpa [State.rngReq] using hreq
    exact ⟨{ h.1 with answer_pending := fun _ => hf }, { h.2 with }⟩
  · exact h

/-- An accepted command word starts in the state of the command it stands for (R26). -/
theorem accept_safe (h : s.Consistent) (hb : s.busy = false) (w : Word) : (s.accept w).Safe := by
  obtain ⟨hin, hbuf⟩ := no_read_of_not_busy h hb
  have hentry : (decode w = .ok .encode ∧ entryState w = .eValidate) ∨
      (decode w = .ok .decode ∧ entryState w = .dValidate) ∨
      ((decode w ≠ .ok .encode ∧ decode w ≠ .ok .decode) ∧ entryState w = .exec) := by
    rw [entryState]
    split
    · next hw => exact .inl ⟨hw, rfl⟩
    · next hw => exact .inr (.inl ⟨hw, rfl⟩)
    · next he hd => exact .inr (.inr ⟨⟨he, hd⟩, rfl⟩)
  rcases hentry with ⟨hw, hf⟩ | ⟨hw, hf⟩ | ⟨hw, hf⟩
  all_goals
    refine ⟨⟨h.ibuf_wf, h.obuf_wf, fun _ => ⟨rfl, rfl⟩, ?_, ?_, ?_, ?_, ?_, ?_, h.olen_values, fun hne => absurd hin hne,
      counter_of_nil hbuf⟩, ?_⟩
    case' refine_7 => constructor
    all_goals
      simp [hf, hw, Code.fatal, Code.bits, Fsm.inEncode, Fsm.inDecode, Fsm.inLoop, Fsm.inIteration]

/-- The window shows no target outside the buffers (R62). -/
theorem targetOf_ibuf {off : BitVec 10} {i : Nat} (h : targetOf off = .ibuf i) : i < bufSize := by
  rw [targetOf] at h
  split_ifs at h with _ _ _ _ _ _ _ hoff
  obtain rfl := Target.ibuf.inj h
  simp only [bufSize]
  omega

/-- A host write to a target of the window keeps the invariant. -/
theorem hostWrite_safe {off : BitVec 10} (w : Word) (h : s.Safe) : (hostWrite (targetOf off) w s).Safe := by
  have hc := h.1
  have rest : ∀ {t : State}, s.busy = false → t.fsm = s.fsm → t.err = s.err → t.ibuf.wf = true → t.obuf = s.obuf →
      t.olen = s.olen → t.rngIn = s.rngIn → t.rngBuf = s.rngBuf → t.Safe :=
    fun {t} hb hf he hi ho hl hin hbuf => safe_of_not_busy (by rw [State.busy, hf]; exact hb) hi (ho ▸ hc.obuf_wf)
      (by rw [hf, he]; exact hc.fatal_code) (hl ▸ hc.olen_values) (by rw [hin, hbuf]; exact no_read_of_not_busy hc hb)
  rcases hostWrite_cases (targetOf off) w s with hw | ⟨-, hb, -, hw⟩ | ⟨-, hw⟩ | ⟨-, -, hw⟩ | ⟨-, -, hw⟩ |
    ⟨-, hb, hw⟩ | ⟨-, hb, hw⟩ | ⟨i, ht, hb, hw⟩ <;> rw [hw]
  · exact safe_setEnvironment h _ _ _ _
  · exact safe_setEnvironment (accept_safe hc hb w) _ _ _ _
  · rcases hb : s.busy with _ | _
    · exact rest hb rfl rfl hc.ibuf_wf rfl rfl rfl rfl
    · exact safe_setEnvironment h _ _ _ _
  · exact safe_setEnvironment resetIsSafe _ _ _ _
  · exact safe_setEnvironment h _ _ _ _
  · exact rest hb rfl rfl hc.ibuf_wf rfl rfl rfl rfl
  · exact rest hb rfl rfl hc.ibuf_wf rfl rfl rfl rfl
  · exact rest hb rfl rfl (write_wf _ _ _ (targetOf_ibuf ht) hc.ibuf_wf) rfl rfl rfl rfl

/-- A host access keeps the invariant. -/
theorem hostStep_safe (a : HostAccess) (h : s.Safe) : (hostStep a s).Safe := by
  have refused : (s.respond .error).Safe := safe_setEnvironment h _ _ _ _
  cases a with
  | read off z =>
    rw [hostStep]
    split_ifs
    · obtain ⟨r, n, hr⟩ := hostRead_eq (targetOf off) s
      rw [hr]
      exact safe_setEnvironment h _ _ _ _
    · exact refused
  | write off z w =>
    rw [hostStep]
    split_ifs
    · exact hostWrite_safe w h
    · exact refused

/-- The turn of any event keeps the invariant. -/
theorem eventStep_safe (e : Event) (h : s.Safe) (ht : eventStep e s = .next t) : t.Safe := by
  cases e with
  | core => exact coreStep_safe h ht
  | host a =>
    cases ht
    exact hostStep_safe a h
  | rng a =>
    cases ht
    exact rngStep_safe a h
  | rst =>
    cases ht
    exact toReset_safe

end

/-- Settles O52: whichever agent takes the turn, its step keeps the invariant. -/
theorem stepKeepsSafe : Obligations.StepKeepsSafe := by
  intro s t h ht
  cases hes : s.events with
  | nil => exact coreStep_safe h (step_nil hes ▸ ht)
  | cons e es =>
    rw [step_cons hes] at ht
    exact eventStep_safe e (safe_setEnvironment h es s.resp s.freeCount s.ie) ht

end Sys2Proof.Laws
end

section
/-! What a step of the core changes and what it leaves: the frames of R28, R33, R34, R37, R72, R305 and R310. -/
namespace Sys2Proof.Laws
open Sys2Proof Sys2Proof.Machine Sys2Proof.Claims

/-! ### The three outcomes of a step -/

/-- The state a failing step leaves, hidden registers apart (R305, R310). -/
def failedState (i : Instr) (c : Code) (s : State) : State :=
  { s.complete c with olen := if i = .encode ∨ i = .decode then 0 else s.olen }

/-- The outcomes of one core step of a command: the walk goes on, the command fails, or it succeeds. -/
inductive StepOutcome (i : Instr) (s t : State) : Prop
  | walked (hi : i = .encode ∨ i = .decode) (hframe : WalkFrame s t) (hiter : i ≠ .encode → t.iter = s.iter)
  | failed {c : Code} (hc : c ≠ .ok) (ht : t.forgetDatapath = (failedState i c s).forgetDatapath)
  | finished {w : State} (hw : CommandWrite i s w) (ht : t = w.complete .ok)

section
variable {i : Instr} {s t : State}

theorem encodeMove_outcome (h : EncodeMove s t) : StepOutcome .encode s t := by
  cases h with
  | refused => exact .failed (c := .point) (by simp) rfl
  | capReached => exact .failed (c := .retry) (by simp) rfl
  | rngFailed => exact .failed (c := .rng) (by simp) rfl
  | mapFailed => exact .failed (c := .mapInv) (by simp) rfl
  | emitted _ hw => exact .finished hw rfl
  | _ => exact .walked (.inl rfl) rfl (by simp)

theorem decodeMove_outcome (h : DecodeMove s t) : StepOutcome .decode s t := by
  cases h with
  | refused => exact .failed (c := .encoding) (by simp) rfl
  | mapFailed => exact .failed (c := .mapInv) (by simp) rfl
  | emitted _ hw => exact .finished hw rfl
  | _ => exact .walked (.inr rfl) rfl fun _ => rfl

theorem ok_not_mem_codesOf (i : Instr) : Code.ok ∉ codesOf i := by
  cases i <;> simp [codesOf]

/-- Every core step of a command has one of the three outcomes. -/
theorem exec_outcome (h : exec i s = .next t) : StepOutcome i s t := by
  by_cases he : i = .encode
  · subst he
    exact encodeMove_outcome (execEncode_move h)
  by_cases hd : i = .decode
  · subst hd
    exact decodeMove_outcome (execDecode_move h)
  rcases exec_commandEnds i s he hd t h with ⟨c, hc, rfl⟩ | ⟨w, hw, rfl⟩
  · have hne : c ≠ .ok := by
      rintro rfl
      exact hc.elim (by simp) (ok_not_mem_codesOf i)
    exact .failed hne (by simp only [failedState, he, hd, or_self, if_false]; rfl)
  · exact .finished hw rfl

/-- A turn of the core changes nothing, or it is a step of the command in `CMD` (R20, R114). -/
theorem coreStep_outcome (h : coreStep s = .next t) :
    s.busy = false ∧ t = s ∨
      ∃ i, (i = .encode ↔ decode s.cmd = .ok .encode) ∧ (i = .decode ↔ decode s.cmd = .ok .decode) ∧
        StepOutcome i s t := by
  rcases hb : s.busy with _ | _
  · rw [coreStep_idle hb] at h
    cases h
    exact .inl ⟨rfl, rfl⟩
  · refine .inr ?_
    rcases hcmd : decode s.cmd with e | i
    · rw [coreStep_error hb hcmd] at h
      cases h
      exact ⟨.nop, by simp, by simp, .failed (c := .illegal) (by simp) rfl⟩
    · rw [coreStep_ok hb hcmd] at h
      exact ⟨i, by simp, by simp, exec_outcome h⟩

/-! ### Flags (R28) -/

theorem CommandWrite.flagT {w : State} (h : CommandWrite i s w) (hne : w.flagT ≠ s.flagT) :
    ∃ ra rb, i = .feq ra rb := by
  cases h with
  | equality => exact ⟨_, _, rfl⟩
  | @nullable _ _ _ o => cases o <;> exact absurd rfl hne
  | _ => exact absurd rfl hne

theorem CommandWrite.flagN {w : State} (h : CommandWrite i s w) (hne : w.flagN ≠ s.flagN) :
    (∃ rd ra, i = .fsqrt rd ra) ∨ ∃ rd pa j, i = .rsamp rd pa j := by
  cases h with
  | nullable _ hi => exact hi
  | _ => exact absurd rfl hne

theorem CommandWrite.flagI {w : State} (h : CommandWrite i s w) (hne : w.flagI ≠ s.flagI) :
    (∃ pd pa pb, i = .padd pd pa pb) ∨ (∃ pd ra, i = .fmap pd ra) ∨ i = .decode := by
  cases h with
  | point _ hi => exact hi.imp_right .inl
  | decoded => exact .inr (.inr rfl)
  | @nullable _ _ _ o => cases o <;> exact absurd rfl hne
  | _ => exact absurd rfl hne

/-- A changed flag comes from a successful completion. -/
theorem StepOutcome.flags (h : StepOutcome i s t) :
    (t.flagT = s.flagT ∧ t.flagN = s.flagN ∧ t.flagI = s.flagI) ∨
      ∃ w, CommandWrite i s w ∧ t = w.complete .ok := by
  cases h with
  | walked _ hframe _ =>
    exact .inl ⟨(congrArg State.flagT hframe :), (congrArg State.flagN hframe :), (congrArg State.flagI hframe :)⟩
  | failed _ ht => exact .inl ⟨(congrArg State.flagT ht :), (congrArg State.flagN ht :), (congrArg State.flagI ht :)⟩
  | finished hw ht => exact .inr ⟨_, hw, ht⟩

/-- R28, the writers of the flags. -/
theorem StepOutcome.flag_writers (h : StepOutcome i s t) :
    (t.flagT ≠ s.flagT → ∃ ra rb, i = .feq ra rb) ∧
    (t.flagN ≠ s.flagN → (∃ rd ra, i = .fsqrt rd ra) ∨ ∃ rd pa j, i = .rsamp rd pa j) ∧
    (t.flagI ≠ s.flagI → (∃ pd pa pb, i = .padd pd pa pb) ∨ (∃ pd ra, i = .fmap pd ra) ∨ i = .decode) ∧
    (t.flagT ≠ s.flagT ∨ t.flagN ≠ s.flagN ∨ t.flagI ≠ s.flagI → t.err = .ok ∧ t.done = true ∧ t.fsm = .idle) := by
  rcases h.flags with ⟨hT, hN, hI⟩ | ⟨w, hw, rfl⟩
  · simp [hT, hN, hI]
  · exact ⟨hw.flagT, hw.flagN, hw.flagI, fun _ => ⟨rfl, rfl, rfl⟩⟩

/-! ### Registers, buffers, `OLEN` and `ITER` (R31, R33, R34, R37, R72) -/

theorem reg_setReg_of_ne {d n : Fin 8} (x : Fp) (h : n.val ≠ d.val) : (s.setReg d x).reg n = s.reg n := by
  rw [reg_setReg, if_neg fun he => h (congrArg Fin.val he.symm)]

/-- A write changes no field register but the destinations. -/
theorem CommandWrite.reg {w : State} (h : CommandWrite i s w) (n : Fin 8) (hn : n.val ∉ destinations i) :
    w.reg n = s.reg n := by
  cases h with
  | @register _ _ d x hd =>
    rw [hd, List.mem_singleton] at hn
    exact reg_setReg_of_ne x hn
  | @nullable _ _ d o hd =>
    cases o with
    | none => rfl
    | some x =>
      rw [hd, List.mem_singleton] at hn
      exact reg_setReg_of_ne x hn
  | @point _ _ k p hd =>
    rw [hd, List.mem_cons, List.mem_singleton, not_or] at hn
    obtain ⟨hx, hy⟩ := hn
    calc ((s.setReg (xIndex k) p.x).setReg (yIndex k) p.y).reg n
        = (s.setReg (xIndex k) p.x).reg n := reg_setReg_of_ne p.y hy
      _ = s.reg n := reg_setReg_of_ne p.x hx
  | _ => rfl

theorem CommandWrite.obuf {w : State} (h : CommandWrite i s w) (hne : w.obuf ≠ s.obuf) :
    (∃ ra off, i = .fstb ra off) ∨ i = .encode ∨ i = .decode := by
  cases h with
  | bytes => exact .inl ⟨_, _, rfl⟩
  | encoded => exact .inr (.inl rfl)
  | decoded => exact .inr (.inr rfl)
  | @nullable _ _ _ o => cases o <;> exact absurd rfl hne
  | _ => exact absurd rfl hne

theorem CommandWrite.olen {w : State} (h : CommandWrite i s w) (hne : w.olen ≠ s.olen) :
    i = .encode ∨ i = .decode := by
  cases h with
  | encoded => exact .inl rfl
  | decoded => exact .inr rfl
  | @nullable _ _ _ o => cases o <;> exact absurd rfl hne
  | _ => exact absurd rfl hne

/-- The commands that write a field register, `OBUF`, `OLEN` and `ITER`. -/
theorem StepOutcome.writers (h : StepOutcome i s t) :
    (∀ n : Fin 8, n.val ∉ destinations i → t.reg n = s.reg n) ∧
    (t.obuf ≠ s.obuf → (∃ ra off, i = .fstb ra off) ∨ i = .encode ∨ i = .decode) ∧
    (t.olen ≠ s.olen → i = .encode ∨ i = .decode) ∧ (t.iter ≠ s.iter → i = .encode) := by
  cases h with
  | walked hi hframe hiter =>
    exact ⟨fun n _ => (congrArg (State.reg · n) hframe :), fun _ => .inr hi, fun _ => hi,
      fun hne => by_contra fun he => hne (hiter he)⟩
  | failed _ ht =>
    refine ⟨fun n _ => (congrArg (State.reg · n) ht :), fun hne => absurd (congrArg State.obuf ht :) hne, fun hne => ?_,
      fun hne => absurd (congrArg State.iter ht :) hne⟩
    have holen : t.olen = if i = .encode ∨ i = .decode then 0 else s.olen := (congrArg State.olen ht :)
    by_contra hi
    exact hne (holen.trans (if_neg hi))
  | @finished w hw ht =>
    have hiter : w.iter = s.iter := by rw [hw.frame]
    rw [ht]
    exact ⟨hw.reg, hw.obuf, hw.olen, fun hne => absurd hiter hne⟩

theorem kept_of_frame {f : Fsm} {n : BitVec 16} {c : Code} {d : Bool} {l : BitVec 7}
    (h : t.forgetDatapath =
      ({ s with fsm := f, iter := n, err := c, done := d, olen := l } : State).forgetDatapath) :
    t.ibuf = s.ibuf ∧ t.ilen = s.ilen ∧ t.nmax = s.nmax ∧ t.cmd = s.cmd ∧ t.ie = s.ie ∧ t.events = s.events ∧
      t.resp = s.resp ∧ t.freeCount = s.freeCount :=
  ⟨(congrArg State.ibuf h :), (congrArg State.ilen h :), (congrArg State.nmax h :), (congrArg State.cmd h :),
    (congrArg State.ie h :), (congrArg State.events h :), (congrArg State.resp h :), (congrArg State.freeCount h :)⟩

/-- What no step of the core writes. -/
theorem StepOutcome.kept (h : StepOutcome i s t) :
    t.ibuf = s.ibuf ∧ t.ilen = s.ilen ∧ t.nmax = s.nmax ∧ t.cmd = s.cmd ∧ t.ie = s.ie ∧ t.events = s.events ∧
      t.resp = s.resp ∧ t.freeCount = s.freeCount := by
  cases h with
  | walked _ hframe _ => exact kept_of_frame hframe
  | failed _ ht => exact kept_of_frame ht
  | finished hw ht =>
    rw [ht, hw.frame]
    exact ⟨rfl, rfl, rfl, rfl, rfl, rfl, rfl, rfl⟩

end

/-- Settles O59: a turn of the core is a step of one command, and each outcome of a step keeps the fields named. -/
theorem coreWritesOnlyItsOwn : Obligations.CoreWritesOnlyItsOwn := by
  refine ⟨fun s t h => ?_, fun i s t h => (exec_outcome h).writers⟩
  rcases coreStep_outcome h with ⟨-, rfl⟩ | ⟨i, -, -, ho⟩
  · exact ⟨rfl, rfl, rfl, rfl, rfl, rfl, rfl, rfl⟩
  · exact ho.kept

end Sys2Proof.Laws
end

section
/-! A whole command that fails writes nothing but what R305 and R310 name: by induction on the turns. -/
namespace Sys2Proof.Laws
open Sys2Proof Sys2Proof.Machine Sys2Proof.Claims

section
variable {n : Nat} {s t u : State}

/-! ### Turns of the core and the RNG source -/

theorem run_zero (h : Host.Core.run Sys2Proof.core 0 s = .next t) : t = s := by
  cases h
  rfl

theorem run_succ (h : Host.Core.run Sys2Proof.core (n + 1) s = .next t) :
    ∃ u : State, step s = .next u ∧ Host.Core.run Sys2Proof.core n u = .next t := by
  have hstep := (Host.Core.run.eq_2 Sys2Proof.core s n).symm.trans h
  split at hstep
  · next u hu => exact ⟨u, hu, hstep⟩
  · cases hstep
  · cases hstep

/-- The core's turn leaves the list of turns alone. -/
theorem coreStep_events (h : coreStep s = .next u) : u.events = s.events := by
  rcases coreStep_outcome h with ⟨-, rfl⟩ | ⟨i, -, -, ho⟩
  · rfl
  · obtain ⟨-, -, -, -, -, hevents, -, -⟩ := ho.kept
    exact hevents

/-- A turn without the host and the reset is the core's, or an answer of the RNG source, which is ignored, or comes to
stand on the port if a request is pending (R20, R80). -/
theorem step_noHost (hes : noHost s.events = true) (h : step s = .next u) :
    noHost u.events = true ∧ (∃ es, s.events = es ++ u.events) ∧
      (coreStep { s with events := u.events } = .next u ∨ u = { s with events := u.events } ∨
        s.rngReq = true ∧ ∃ a, u = { s with rngIn := some a, events := u.events }) := by
  cases hs : s.events with
  | nil =>
    rw [step_nil hs] at h
    rw [coreStep_events h, hs]
    exact ⟨rfl, ⟨[], rfl⟩, .inl (by rw [← hs]; exact h)⟩
  | cons e es =>
    rw [step_cons hs] at h
    rw [hs, noHost, List.all_cons, Bool.and_eq_true] at hes
    obtain ⟨he, hes⟩ := hes
    cases e with
    | core =>
      rw [coreStep_events h]
      exact ⟨hes, ⟨[.core], rfl⟩, .inl h⟩
    | rng a =>
      rw [eventStep, rngStep] at h
      split_ifs at h with hreq <;> cases h
      · exact ⟨hes, ⟨[.rng a], rfl⟩, .inr (.inr ⟨hreq, a, rfl⟩)⟩
      · exact ⟨hes, ⟨[.rng a], rfl⟩, .inr (.inl rfl)⟩
    | host a => cases he
    | rst => cases he

/-- A turn of a core at rest only takes itself from the list. -/
theorem step_at_rest (hb : s.busy = false) (hes : noHost s.events = true) (h : step s = .next u) :
    u = { s with events := u.events } := by
  obtain ⟨-, -, hcore | hignored | ⟨hreq, -⟩⟩ := step_noHost hes h
  · rw [coreStep_idle (s := { s with events := u.events }) hb] at hcore
    exact (Host.Outcome.next.inj hcore).symm
  · exact hignored
  · rcases fsm_cases_of_not_busy hb with hf | hf <;> simp [State.rngReq, hf] at hreq

/-- A core at rest stays as it is while the host and the reset are silent. -/
theorem run_at_rest (hb : s.busy = false) (hes : noHost s.events = true)
    (h : Host.Core.run Sys2Proof.core n s = .next t) :
    t = { s with events := t.events } ∧ ∃ es, s.events = es ++ t.events := by
  induction n generalizing s with
  | zero =>
    obtain rfl := run_zero h
    exact ⟨rfl, [], rfl⟩
  | succ n ih =>
    obtain ⟨u, hu, ht⟩ := run_succ h
    obtain ⟨hues, ⟨es, he⟩, -⟩ := step_noHost hes hu
    have hrest := step_at_rest hb hes hu
    have hbu : u.busy = false := by
      rw [hrest]
      exact hb
    obtain ⟨htu, es', he'⟩ := ih hbu hues ht
    refine ⟨?_, es ++ es', by rw [he, he', List.append_assoc]⟩
    rw [hrest] at htu
    exact htu

/-! ### From failure back to the start -/

/-- What a failed command leaves of the state `s` it started from, given the state `t` it ended in (R305, R310). -/
def failureEnd (s t : State) : State :=
  ({ s with
    err := t.err, done := true, fsm := if t.err.fatal = true then .fatal else .idle,
    olen := if decode s.cmd = .ok .encode ∨ decode s.cmd = .ok .decode then 0 else s.olen,
    iter := t.iter, events := t.events } : State).forgetDatapath

/-- The command in `CMD` of `s` failed on the way to `t` and has written nothing else. -/
structure FailedFrom (s t : State) : Prop where
  frame : t.forgetDatapath = failureEnd s t
  iter : decode s.cmd ≠ .ok .encode → t.iter = s.iter
  taken : ∃ es, s.events = es ++ t.events

/-- A turn that goes on walking, or brings an answer, may stand before a failing run. -/
theorem FailedFrom.of_turn (h : FailedFrom u t) (hframe : WalkFrame { s with events := u.events } u)
    (hiter : decode s.cmd ≠ .ok .encode → u.iter = s.iter) (hes : ∃ es, s.events = es ++ u.events) :
    FailedFrom s t := by
  have hcmd : u.cmd = s.cmd := (congrArg State.cmd hframe :)
  obtain ⟨es, he⟩ := hes
  obtain ⟨es', he'⟩ := h.taken
  refine ⟨h.frame.trans (congrArg (failureEnd · t) hframe :), fun hc => ?_, es ++ es', by
    rw [he, he', List.append_assoc]⟩
  exact (h.iter (hcmd ▸ hc)).trans (hiter hc)

/-- A failing step, with the core at rest after it, is a failure from the state before it. -/
theorem FailedFrom.of_failed {i : Instr} {c : Code}
    (he : i = .encode ↔ decode s.cmd = .ok .encode) (hd : i = .decode ↔ decode s.cmd = .ok .decode)
    (hu : u.forgetDatapath = (failedState i c { s with events := u.events }).forgetDatapath)
    (ht : t = { u with events := t.events }) (hes : ∃ es, s.events = es ++ t.events) : FailedFrom s t := by
  have herr : t.err = c := by
    rw [ht]
    exact (congrArg State.err hu :)
  have hiter : t.iter = s.iter := by
    rw [ht]
    exact (congrArg State.iter hu :)
  refine ⟨?_, fun _ => hiter, hes⟩
  have hframe : t.forgetDatapath = ({ failedState i c s with events := t.events } : State).forgetDatapath := by
    rw [ht]
    exact (congrArg (fun x : State => { x with events := t.events }) hu :)
  rw [hframe, failureEnd, herr, hiter]
  simp only [failedState, he, hd]
  rfl

/-- A run from a state with `ERR` clear that ends with another code is a failed command. -/
theorem run_failed (herr : s.err = .ok) (hes : noHost s.events = true)
    (h : Host.Core.run Sys2Proof.core n s = .next t) (hne : t.err ≠ .ok) : FailedFrom s t := by
  induction n generalizing s with
  | zero =>
    obtain rfl := run_zero h
    exact absurd herr hne
  | succ n ih =>
    obtain ⟨u, hu, ht⟩ := run_succ h
    obtain ⟨hues, ⟨es, hes'⟩, hturn⟩ := step_noHost hes hu
    have later : WalkFrame { s with events := u.events } u → (decode s.cmd ≠ .ok .encode → u.iter = s.iter) →
        FailedFrom s t := fun hframe hiter =>
      have herru : u.err = s.err := (congrArg State.err hframe :)
      (ih (herru.trans herr) hues ht).of_turn hframe hiter ⟨es, hes'⟩
    rcases hturn with hcore | hignored | ⟨-, a, htaken⟩
    · rcases coreStep_outcome hcore with ⟨-, hidle⟩ | ⟨i, he, hd, ho⟩
      · exact later (by rw [hidle]; rfl) fun _ => by rw [hidle]
      · cases ho with
        | walked _ hframe hiter => exact later hframe fun hc => hiter fun hi => hc (he.1 hi)
        | @failed c hc hfail =>
          have hbu : u.busy = false :=
            (congrArg State.busy hfail :).trans (complete_not_busy { s with events := u.events } c)
          obtain ⟨hrest, es', hes''⟩ := run_at_rest hbu hues ht
          exact .of_failed he hd hfail hrest ⟨es ++ es', by rw [hes', hes'', List.append_assoc]⟩
        | @finished w hw hfin =>
          have hbu : u.busy = false := hfin ▸ complete_not_busy w .ok
          obtain ⟨hrest, -⟩ := run_at_rest hbu hues ht
          rw [hrest, hfin] at hne
          exact absurd rfl hne
    · exact later (by rw [hignored]; rfl) fun _ => by rw [hignored]
    · exact later (by rw [htaken]; rfl) fun _ => by rw [htaken]

end

/-- Settles O60: the failing turn and every turn before it keep the frame, by induction on the turns. -/
theorem failedCommandWritesNothing : Obligations.FailedCommandWritesNothing := by
  intro n s t herr hes h hne
  obtain ⟨hframe, hiter, htaken⟩ := run_failed herr hes h hne
  exact ⟨hframe, hiter, htaken⟩

end Sys2Proof.Laws
end

section
/-! No command reads a flag (R28): two states that differ in the flags only have outcomes that differ in the flags only. -/
namespace Sys2Proof.Laws
open Sys2Proof Sys2Proof.Machine Sys2Proof.Claims

/-- Two outcomes differ in the flags of their next states only. -/
def SameButFlags (o o' : Out) : Prop :=
  mapNext (withFlags false false false) o = mapNext (withFlags false false false) o'

section
variable {a b c : Bool} {s : State}

theorem sameButFlags_finish {w w' : State} (h : withFlags false false false w = withFlags false false false w') :
    SameButFlags (finish w) (finish w') :=
  congrArg (fun x : State => Host.Outcome.next (x.complete .ok)) h

theorem sameButFlags_ite {p : Prop} [Decidable p] {o₁ o₂ o₁' o₂' : Out} (h₁ : SameButFlags o₁ o₁')
    (h₂ : SameButFlags o₂ o₂') : SameButFlags (if p then o₁ else o₂) (if p then o₁' else o₂') := by
  split_ifs
  · exact h₁
  · exact h₂

theorem sameButFlags_orFault {α : Type} {v : Except Fault α} {k k' : α → Out} (h : ∀ x, SameButFlags (k x) (k' x)) :
    SameButFlags (orFault v k) (orFault v k') := by
  cases v with
  | error e => rfl
  | ok x => exact h x

theorem sameButFlags_elim {α : Type} {v : Option α} {o o' : Out} {k k' : α → Out} (h₀ : SameButFlags o o')
    (h : ∀ x, SameButFlags (k x) (k' x)) : SameButFlags (v.elim o k) (v.elim o' k') := by
  cases v with
  | none => exact h₀
  | some x => exact h x

/-! ### The operand forms -/

theorem source_withFlags (r : RegIdx) : (withFlags a b c s).source r = s.source r := source_congr r rfl

theorem sameButFlags_withR3 {rd ra rb : RegIdx} {k k' : Fin 8 → Fp → Fp → Out}
    (h : ∀ d x y, SameButFlags (k d x y) (k' d x y)) :
    SameButFlags (withR3 rd ra rb (withFlags a b c s) k) (withR3 rd ra rb s k') := by
  rw [withR3, withR3, source_withFlags, source_withFlags]
  split
  · exact h _ _ _
  · rfl

theorem sameButFlags_withR2 {rd ra : RegIdx} {k k' : Fin 8 → Fp → Out} (h : ∀ d x, SameButFlags (k d x) (k' d x)) :
    SameButFlags (withR2 rd ra (withFlags a b c s) k) (withR2 rd ra s k') := by
  rw [withR2, withR2, source_withFlags]
  split
  · exact h _ _
  · rfl

theorem sameButFlags_withC {ra rb : RegIdx} {k k' : Fp → Fp → Out} (h : ∀ x y, SameButFlags (k x y) (k' x y)) :
    SameButFlags (withC ra rb (withFlags a b c s) k) (withC ra rb s k') := by
  rw [withC, withC, source_withFlags, source_withFlags]
  split
  · exact h _ _
  · rfl

theorem sameButFlags_withDst {rd : RegIdx} {k k' : Fin 8 → Out} (h : ∀ d, SameButFlags (k d) (k' d)) :
    SameButFlags (withDst rd (withFlags a b c s) k) (withDst rd s k') := by
  rw [withDst, withDst]
  split
  · exact h _
  · rfl

theorem sameButFlags_withSrc {ra : RegIdx} {k k' : Fp → Out} (h : ∀ x, SameButFlags (k x) (k' x)) :
    SameButFlags (withSrc ra (withFlags a b c s) k) (withSrc ra s k') := by
  rw [withSrc, withSrc, source_withFlags]
  split
  · exact h _
  · rfl

theorem sameButFlags_withP3 {pd pa pb : PointIdx} {k k' : Fin 4 → Point → Point → Out}
    (h : ∀ d p q, SameButFlags (k d p q) (k' d p q)) :
    SameButFlags (withP3 pd pa pb (withFlags a b c s) k) (withP3 pd pa pb s k') := by
  rw [withP3, withP3]
  split
  · exact h _ _ _
  · rfl

theorem sameButFlags_withM {pd : PointIdx} {ra : RegIdx} {k k' : Fin 4 → Fp → Out}
    (h : ∀ d x, SameButFlags (k d x) (k' d x)) :
    SameButFlags (withM pd ra (withFlags a b c s) k) (withM pd ra s k') := by
  rw [withM, withM, source_withFlags]
  split
  · exact h _ _
  · rfl

theorem sameButFlags_withS {rd : RegIdx} {pa : PointIdx} {k k' : Fin 8 → Point → Out}
    (h : ∀ d p, SameButFlags (k d p) (k' d p)) :
    SameButFlags (withS rd pa (withFlags a b c s) k) (withS rd pa s k') := by
  rw [withS, withS]
  split
  · exact h _ _
  · rfl

/-! ### The commands -/

theorem sameButFlags_setReg (d : Fin 8) (x : Fp) :
    SameButFlags (finish ((withFlags a b c s).setReg d x)) (finish (s.setReg d x)) :=
  sameButFlags_finish rfl

theorem sameButFlags_setNullable (d : Fin 8) (v : Option Fp) :
    SameButFlags (finish ((withFlags a b c s).setNullable d v)) (finish (s.setNullable d v)) := by
  cases v <;> exact sameButFlags_finish rfl

theorem sameButFlags_setPointResult (k : Fin 4) (p : Point) :
    SameButFlags (finish ((withFlags a b c s).setPointResult k p)) (finish (s.setPointResult k p)) :=
  sameButFlags_finish rfl

/-- The two runs of an RNG read (R81). -/
theorem rngRead_withFlags (n : Nat) :
    ((withFlags a b c s).rngRead n = .waiting ∧ s.rngRead n = .waiting) ∨
    ((withFlags a b c s).rngRead n = .failed (withFlags a b c s).startRead ∧ s.rngRead n = .failed s.startRead) ∨
    (∃ bs, (withFlags a b c s).rngRead n = .more { withFlags a b c s with rngBuf := bs, rngIn := none } ∧
      s.rngRead n = .more { s with rngBuf := bs, rngIn := none }) ∨
    ∃ bs, (withFlags a b c s).rngRead n = .complete bs (withFlags a b c s).startRead ∧
      s.rngRead n = .complete bs s.startRead := by
  rcases hin : s.rngIn with _ | x | _
  · exact .inl ⟨by simp [State.rngRead, withFlags, hin], by simp [State.rngRead, hin]⟩
  · by_cases hlen : s.rngBuf.length + 1 < n
    · exact .inr (.inr (.inl ⟨s.rngBuf ++ [x], by simp [State.rngRead, withFlags, hin, hlen], by
        simp [State.rngRead, hin, hlen]⟩))
    · exact .inr (.inr (.inr ⟨s.rngBuf ++ [x], by simp [State.rngRead, withFlags, hin, hlen], by
        simp [State.rngRead, hin, hlen]⟩))
  · exact .inr (.inl ⟨by simp [State.rngRead, withFlags, hin], by simp [State.rngRead, hin]⟩)

theorem encDrawU_sameButFlags : SameButFlags (encDrawU (withFlags a b c s)) (encDrawU s) := by
  rw [encDrawU, encDrawU]
  rcases rngRead_withFlags (a := a) (b := b) (c := c) (s := s) 32 with
    ⟨h, h'⟩ | ⟨h, h'⟩ | ⟨bs, h, h'⟩ | ⟨bs, h, h'⟩ <;> rw [h, h'] <;> rfl

theorem encDrawJ_sameButFlags : SameButFlags (encDrawJ (withFlags a b c s)) (encDrawJ s) := by
  rw [encDrawJ, encDrawJ]
  rcases rngRead_withFlags (a := a) (b := b) (c := c) (s := s) 1 with
    ⟨h, h'⟩ | ⟨h, h'⟩ | ⟨bs, h, h'⟩ | ⟨bs, h, h'⟩ <;> rw [h, h'] <;> rfl

theorem encValidate_sameButFlags : SameButFlags (encValidate (withFlags a b c s)) (encValidate s) :=
  sameButFlags_ite rfl (sameButFlags_ite rfl (sameButFlags_ite rfl rfl))

theorem execEncode_sameButFlags : SameButFlags (execEncode (withFlags a b c s)) (execEncode s) := by
  have hfsm : (withFlags a b c s).fsm = s.fsm := rfl
  rw [execEncode, execEncode, hfsm]
  cases s.fsm
  case eLoop => exact sameButFlags_ite rfl rfl
  case eDrawU => exact encDrawU_sameButFlags
  case eCheckU => rfl
  case eMap => exact sameButFlags_orFault fun _ => sameButFlags_elim rfl fun _ => rfl
  case eSub => exact sameButFlags_orFault fun _ => rfl
  case eCheckQ => exact sameButFlags_ite rfl rfl
  case eDrawJ => exact encDrawJ_sameButFlags
  case eSample => exact sameButFlags_orFault fun _ => sameButFlags_elim rfl fun _ => rfl
  case eEmit => exact sameButFlags_finish rfl
  all_goals exact encValidate_sameButFlags

theorem execDecode_sameButFlags : SameButFlags (execDecode (withFlags a b c s)) (execDecode s) := by
  have hfsm : (withFlags a b c s).fsm = s.fsm := rfl
  rw [execDecode, execDecode, hfsm]
  cases s.fsm
  case dMapU => exact sameButFlags_orFault fun _ => sameButFlags_elim rfl fun _ => rfl
  case dMapV => exact sameButFlags_orFault fun _ => sameButFlags_elim rfl fun _ => rfl
  case dAdd => exact sameButFlags_orFault fun _ => rfl
  case dEmit => exact sameButFlags_finish rfl
  all_goals exact sameButFlags_ite rfl rfl

/-- No command reads a flag. -/
theorem exec_sameButFlags (i : Instr) (s : State) (a b c : Bool) :
    SameButFlags (exec i (withFlags a b c s)) (exec i s) := by
  cases i with
  | nop => exact sameButFlags_finish rfl
  | fadd => exact sameButFlags_withR3 fun _ _ _ => sameButFlags_setReg _ _
  | fsub => exact sameButFlags_withR3 fun _ _ _ => sameButFlags_setReg _ _
  | fmul => exact sameButFlags_withR3 fun _ _ _ => sameButFlags_setReg _ _
  | fsqr => exact sameButFlags_withR2 fun _ _ => sameButFlags_setReg _ _
  | fneg => exact sameButFlags_withR2 fun _ _ => sameButFlags_setReg _ _
  | finv =>
    exact sameButFlags_withR2 fun _ _ => sameButFlags_ite rfl (sameButFlags_orFault fun _ => sameButFlags_setReg _ _)
  | fsqrt => exact sameButFlags_withR2 fun _ _ => sameButFlags_setNullable _ _
  | feq => exact sameButFlags_withC fun _ _ => sameButFlags_finish rfl
  | fmov => exact sameButFlags_withR2 fun _ _ => sameButFlags_setReg _ _
  | fldi => exact sameButFlags_withDst fun _ => sameButFlags_setReg _ _
  | fldb => exact sameButFlags_withDst fun _ => sameButFlags_ite rfl (sameButFlags_setReg _ _)
  | fstb => exact sameButFlags_withSrc fun _ => sameButFlags_ite rfl (sameButFlags_finish rfl)
  | padd =>
    rw [exec, exec, execPadd, execPadd]
    refine sameButFlags_withP3 fun _ _ _ => ?_
    exact sameButFlags_ite rfl (sameButFlags_orFault fun _ => sameButFlags_setPointResult _ _)
  | gx => exact sameButFlags_withR2 fun _ _ => sameButFlags_setReg _ _
  | x0 =>
    exact sameButFlags_withR2 fun _ _ => sameButFlags_ite rfl (sameButFlags_orFault fun _ => sameButFlags_setReg _ _)
  | x1 =>
    exact sameButFlags_withR2 fun _ _ => sameButFlags_ite rfl (sameButFlags_orFault fun _ => sameButFlags_setReg _ _)
  | fmap =>
    exact sameButFlags_withM fun _ _ => sameButFlags_orFault fun _ => sameButFlags_elim rfl fun _ =>
      sameButFlags_setPointResult _ _
  | rsamp =>
    rw [exec, exec, execRsamp, execRsamp]
    refine sameButFlags_withS fun _ _ => ?_
    exact sameButFlags_ite rfl (sameButFlags_orFault fun _ => sameButFlags_setNullable _ _)
  | encode => exact execEncode_sameButFlags
  | decode => exact execDecode_sameButFlags

end

/-- Settles O58: the writers by the outcomes of a step, the readers by the two runs. -/
theorem flagUse : Obligations.FlagUse :=
  ⟨fun _ _ _ _ h => (exec_outcome h).flag_writers, exec_sameButFlags⟩

end Sys2Proof.Laws
end

section
/-! Reset, the host window and the RNG port, access by access (R22, R23, R26 to R35, R40, R41, R65 to R68, R80, R340). -/
namespace Sys2Proof.Laws
open Sys2Proof Sys2Proof.Machine Sys2Proof.Claims

section
variable {s : State} {es : List Event} {off : BitVec 10} {z : AccessSize} {w : Word}

/-! ### Host turns -/

theorem step_hostTurn (a : HostAccess) (es : List Event) (s : State) :
    step (hostTurn a es s) = .next (hostStep a { s with events := es }) := rfl

/-- A read of a size its target accepts (R63). -/
theorem step_read {t : Target} (ht : targetOf off = t) (hz : t.accepts z = true) :
    step (hostTurn (.read off z) es s) = .next (hostRead t { s with events := es }) := by
  rw [step_hostTurn, hostStep, ht, if_pos hz]

/-- A write of a size its target accepts (R63). -/
theorem step_write {t : Target} (ht : targetOf off = t) (hz : t.accepts z = true) :
    step (hostTurn (.write off z w) es s) = .next (hostWrite t w { s with events := es }) := by
  rw [step_hostTurn, hostStep, ht, if_pos hz]

theorem targetOf_ibufOffset (i : Fin 65) : targetOf (ibufOffset i) = .ibuf i := by
  revert i
  decide

theorem targetOf_obufOffset (i : Fin 65) : targetOf (obufOffset i) = .obuf i := by
  revert i
  decide

/-- A write that waits for the core to be idle (R65). -/
theorem whenIdle_of_not_busy {t : State} (hb : s.busy = false) : whenIdle s t = t.respond .ack := by
  rw [whenIdle, if_neg (ne_true_of_eq_false hb)]

theorem whenIdle_of_busy {t : State} (hb : s.busy = true) : whenIdle s t = s.respond .error := by
  rw [whenIdle, if_pos hb]

/-! ### Reset -/

/-- Settles O1, field by field of the reset table (R40). -/
theorem resetState : Obligations.ResetState := by
  have hreg : ∀ i : Fin 8, State.reset.reg i = toFp 0 := fun i => by simp [State.reg, State.reset]
  refine ⟨fun _ => by rw [hreg]; rfl, fun k => ?_, rfl, rfl, rfl, rfl, rfl, rfl, rfl, rfl, rfl, rfl, rfl, rfl, rfl, rfl,
    fun _ => rfl, fun _ => rfl, rfl, rfl, rfl, rfl, rfl, rfl, rfl, rfl, rfl, rfl⟩
  rw [State.point, hreg, hreg]
  rfl

/-- A write of `SRST` resets the core, whatever the other bits are (R29, R340). -/
theorem step_softReset (s : State) (es : List Event) (hw : w.getLsbD 1 = true) :
    step (hostTurn (.write 0x008 .s32 w) es s) =
      .next { State.reset with events := es, resp := some .ack, freeCount := s.freeCount } := by
  rw [step_write (t := .ctrl) (by decide) rfl, hostWrite, if_pos hw]
  rfl

/-- Settles O3: both resets are `toReset`, for the write with its answer. -/
theorem resetFromEveryState : Obligations.ResetFromEveryState :=
  fun s es _ => ⟨rfl, fun hw => step_softReset s es hw⟩

/-- Settles O4: a turn by default and a listed turn of the core are both its step, which runs the command in `CMD`. -/
theorem stepRunsDecodedCommand : Obligations.StepRunsDecodedCommand := fun s _ hb hcmd =>
  ⟨fun hes => (step_nil hes).trans (coreStep_ok hb hcmd),
    fun es hes => (step_cons hes).trans (coreStep_ok (s := { s with events := es }) hb hcmd)⟩

/-! ### `CMD` (R26) -/

/-- The one word of a command whose format has no operands. -/
theorem decode_eq_of_mask {o : Opcode} {i : Instr}
    (hopcode : ∀ (o' : Opcode) (w : Word), o'.extract w = i → o' = o) (hmask : o.mask = 0xFFFFFFFF)
    (hmatch : decode o.matchBits = .ok i) (w : Word) : decode w = .ok i ↔ w = o.matchBits := by
  refine ⟨fun h => ?_, fun h => h ▸ hmatch⟩
  rw [decode] at h
  split at h
  · split_ifs at h
  · next o' hfind =>
    split_ifs at h
    obtain rfl := hopcode o' w (Except.ok.inj h)
    have hsel := List.find?_some hfind
    rw [Opcode.selects, beq_iff_eq, hmask] at hsel
    rw [← hsel]
    exact (BitVec.and_allOnes (x := w)).symm

theorem decode_eq_encode_iff (w : Word) : decode w = .ok .encode ↔ w = 0x50000000 :=
  decode_eq_of_mask (o := .encode) (fun o' w h => by cases o' <;> simp [Opcode.extract] at h ⊢) rfl
    (by decide) w

theorem decode_eq_decode_iff (w : Word) : decode w = .ok .decode ↔ w = 0x51000000 :=
  decode_eq_of_mask (o := .decode) (fun o' w h => by cases o' <;> simp [Opcode.extract] at h ⊢) rfl
    (by decide) w

/-- The FSM state of an accepted word, by the word (R26). -/
theorem entryState_eq (w : Word) :
    entryState w = if w = 0x50000000 then .eValidate else if w = 0x51000000 then .dValidate else .exec := by
  rw [entryState]
  split
  · next h => rw [if_pos ((decode_eq_encode_iff w).1 h)]
  · next h =>
    obtain rfl := (decode_eq_decode_iff w).1 h
    rfl
  · next he hd => rw [if_neg fun h => he ((decode_eq_encode_iff w).2 h), if_neg fun h => hd ((decode_eq_decode_iff w).2 h)]

/-- A command word is refused while the core is busy or fatal (R26). -/
theorem step_writeCmd_refused (h : s.busy = true ∨ s.isFatal = true) :
    step (hostTurn (.write 0x000 .s32 w) es s) = .next { s with resp := some .error, events := es } := by
  have h' : (State.busy { s with events := es } || State.isFatal { s with events := es }) = true :=
    Bool.or_eq_true_iff.2 h
  rw [step_write (t := .cmd) (by decide) rfl, hostWrite, if_pos h']
  rfl

/-- Settles O7: acceptance starts the FSM state that `entryState_eq` gives; the refusal and the read change nothing. -/
theorem commandRegister : Obligations.CommandRegister := by
  refine fun s w es => ⟨fun hb hf => ?_, step_writeCmd_refused, ?_, rfl⟩
  · have h : ¬ (State.busy { s with events := es } || State.isFatal { s with events := es }) = true :=
      fun hor => (Bool.or_eq_true_iff.1 hor).elim (ne_true_of_eq_false hb) (ne_true_of_eq_false hf)
    rw [step_write (t := .cmd) (by decide) rfl, hostWrite, if_neg h, ← entryState_eq]
    rfl
  · rw [step_read (t := .cmd) (by decide) rfl]
    rfl

/-! ### `STATUS` and `CTRL` (R27, R29) -/

/-- A concatenation as a number: the left part counts `2^n`, `n` the width of the right part. -/
theorem toNat_append_eq {m n : Nat} (x : BitVec m) (y : BitVec n) : (x ++ y).toNat = x.toNat * 2 ^ n + y.toNat := by
  rw [BitVec.toNat_append, ← Nat.shiftLeft_add_eq_or_of_lt y.isLt, Nat.shiftLeft_eq]

/-- `STATUS` as a number (R27). -/
theorem toNat_statusWord (s : State) :
    s.statusWord.toNat = s.busy.toNat + 2 * s.done.toNat + 4 * s.isFatal.toNat + 16 * s.err.bits.toNat +
      256 * s.flagT.toNat + 512 * s.flagN.toNat + 1024 * s.flagI.toNat := by
  simp only [State.statusWord, toNat_append_eq, BitVec.toNat_ofBool, BitVec.ofNat_eq_ofNat, BitVec.toNat_ofNat]
  omega

theorem step_writeStatus (s : State) (es : List Event) (w : Word) :
    step (hostTurn (.write 0x004 .s32 w) es s) =
      .next { s with
        done := if s.busy = false ∧ w.getLsbD 1 = true then false else s.done, resp := some .ack, events := es } := by
  have hb : State.busy { s with events := es } = s.busy := rfl
  rw [step_write (t := .status) (by decide) rfl, hostWrite, hb]
  cases s.busy <;> cases w.getLsbD 1 <;> rfl

/-- Settles O8 by the number that `STATUS` is and the effect of a write to it. -/
theorem statusRegister : Obligations.StatusRegister := fun s w es =>
  ⟨⟨s.statusWord, toNat_statusWord s, by rw [step_read (t := .status) (by decide) rfl]; rfl⟩, step_writeStatus s es w⟩

theorem step_writeCtrl (s : State) (es : List Event) (hw : w.getLsbD 1 = false) :
    step (hostTurn (.write 0x008 .s32 w) es s) =
      .next { s with ie := w.getLsbD 0, resp := some .ack, events := es } := by
  rw [step_write (t := .ctrl) (by decide) rfl, hostWrite, if_neg (ne_true_of_eq_false hw)]
  rfl

/-- Settles O9: only bit 0 of `CTRL` holds anything. -/
theorem controlRegister : Obligations.ControlRegister := by
  refine fun s w es => ⟨step_writeCtrl s es, ?_⟩
  have hword : State.ctrlWord { s with events := es } = if s.ie = true then 1 else 0 := by
    rw [State.ctrlWord]
    cases s.ie <;> rfl
  rw [step_read (t := .ctrl) (by decide) rfl, hostRead, hword]
  rfl

/-! ### `ILEN`, `NMAX` and `IBUF` (R30, R32, R34, R65, R67) -/

/-- While the core is busy the inputs and `CMD` are not written (R65). -/
theorem step_write_busy {t : Target} (ht : targetOf off = t) (hz : t.accepts z = true) (hb : s.busy = true)
    (hin : t = .cmd ∨ t = .ilen ∨ t = .nmax ∨ ∃ i, t = .ibuf i) :
    step (hostTurn (.write off z w) es s) = .next { s with resp := some .error, events := es } := by
  have hb' : State.busy { s with events := es } = true := hb
  rw [step_write ht hz]
  rcases hin with rfl | rfl | rfl | ⟨i, rfl⟩
  · rw [hostWrite, hb', Bool.true_or, if_pos rfl]
    rfl
  all_goals
    rw [hostWrite, whenIdle_of_busy hb']
    rfl

/-- Settles O10: each write is performed or refused by `whenIdle`; `CTRL` and `STATUS` have their own rules. -/
theorem inputWrites : Obligations.InputWrites := by
  refine fun s w es => ⟨fun hb => ⟨?_, ?_, fun i hwf => ⟨s.ibuf.write i (w.setWidth 8), ?_, ?_, ?_, ?_⟩⟩,
    fun hb => ⟨?_, fun i => ?_, step_writeCtrl s es, step_softReset s es, ?_⟩⟩
  · rw [step_write (t := .ilen) (by decide) rfl, hostWrite, whenIdle_of_not_busy (s := { s with events := es }) hb]
    rfl
  · rw [step_write (t := .nmax) (by decide) rfl, hostWrite, whenIdle_of_not_busy (s := { s with events := es }) hb]
    rfl
  · exact write_wf _ _ _ i.isLt hwf
  · rw [read_write _ _ _ _ hwf, if_pos rfl]
  · exact fun a ha => by rw [read_write _ _ _ _ hwf, if_neg ha]
  · rw [step_write (targetOf_ibufOffset i) rfl, hostWrite, whenIdle_of_not_busy (s := { s with events := es }) hb]
    rfl
  · rintro off (rfl | rfl | rfl)
    · exact step_write_busy (t := .cmd) (by decide) rfl hb (.inl rfl)
    · exact step_write_busy (t := .ilen) (by decide) rfl hb (.inr (.inl rfl))
    · exact step_write_busy (t := .nmax) (by decide) rfl hb (.inr (.inr (.inl rfl)))
  · exact step_write_busy (targetOf_ibufOffset i) rfl hb (.inr (.inr (.inr ⟨i, rfl⟩)))
  · rw [step_writeStatus, hb]
    rfl

/-! ### Reads (R66, R68) -/

/-- Settles O12: no read changes the core, and `busy` decides whether `OLEN`, `ITER` and `OBUF` give their value. -/
theorem registerReads : Obligations.RegisterReads := by
  refine fun s es i => ⟨fun off z => ?_, ?_, ?_, ?_, fun hb => ?_, fun hb => ?_⟩
  · rw [step_hostTurn, hostStep]
    split_ifs
    · obtain ⟨r, n, hr⟩ := hostRead_eq (targetOf off) { s with events := es }
      exact ⟨r, n, congrArg Host.Outcome.next hr⟩
    · exact ⟨.error, s.freeCount, rfl⟩
  · rw [step_read (t := .ilen) (by decide) rfl]
    rfl
  · rw [step_read (t := .nmax) (by decide) rfl]
    rfl
  · rw [step_read (targetOf_ibufOffset i) rfl]
    rfl
  · have hb' : ¬ State.busy { s with events := es } = true := ne_true_of_eq_false hb
    rw [step_read (t := .olen) (by decide) rfl, step_read (t := .iter) (by decide) rfl,
      step_read (targetOf_obufOffset i) rfl, hostRead, if_neg hb', hostRead, if_neg hb', hostRead, if_neg hb']
    exact ⟨rfl, rfl, rfl⟩
  · have hb' : State.busy { s with events := es } = true := hb
    rw [step_read (t := .olen) (by decide) rfl, step_read (t := .iter) (by decide) rfl,
      step_read (targetOf_obufOffset i) rfl, hostRead, if_pos hb', hostRead, if_pos hb', hostRead, if_pos hb']
    exact ⟨⟨_, rfl⟩, ⟨_, rfl⟩, ⟨_, rfl⟩⟩

/-! ### Outputs and the RNG port (R41, R80) -/

theorem rngReq_iff (s : State) :
    s.rngReq = true ↔ (s.fsm = .eDrawU ∨ s.fsm = .eDrawJ) ∧ s.rngIn = none := by
  simp [State.rngReq]

/-- Settles O13: `rngReq` decides whether an answer comes to stand on the port. -/
theorem outputsAndRngAnswers : Obligations.OutputsAndRngAnswers := by
  refine fun s a es => ⟨by simp [State.irq], rngReq_iff s, fun hreq => ?_, fun hreq => ?_⟩
  · have hreq' : State.rngReq { s with events := es } = true := hreq
    rw [step_cons (es := es) rfl, eventStep, rngStep, if_pos hreq']
  · have hreq' : ¬ State.rngReq { s with events := es } = true := ne_true_of_eq_false hreq
    rw [step_cons (es := es) rfl, eventStep, rngStep, if_neg hreq']

/-! ### The register index space and the point registers (R22, R23) -/

/-- Settles O18: `dstOf` names the indices below 8, `constReg` the others but 15. -/
theorem registerIndexSpace : Obligations.RegisterIndexSpace := by
  intro s
  have hdst : ∀ i : Fin 8, dstOf (BitVec.ofNat 4 i.val) = some i := by decide
  refine ⟨fun i => ⟨by rw [State.source, hdst], hdst i⟩, rfl, rfl, rfl, rfl, rfl, rfl, rfl, rfl, fun r hr => ?_⟩
  rw [dstOf, dif_neg (by omega)]

/-- Settles O19 by the rules for reading a register after a write. -/
theorem pointRegistersArePairs : Obligations.PointRegistersArePairs := by
  refine fun s k p i x => ⟨rfl, ⟨point_setPoint_same s k p, fun n hx hy => ?_⟩, ?_, ?_⟩
  · exact (reg_setReg_of_ne p.y hy).trans (reg_setReg_of_ne p.x hx)
  · simp only [State.point, reg_setReg, xIndex, yIndex, Fin.ext_iff]
  · obtain ⟨-, hpoint, -⟩ := resetState
    exact hpoint k

end

end Sys2Proof.Laws
end

section
/-! The window's refusals, and what the fatal state lets through (R62 to R64, R67, R310, R322). -/
namespace Sys2Proof.Laws
open Sys2Proof Sys2Proof.Machine Sys2Proof.Claims

section
variable {s t : State} {es : List Event} {off : BitVec 10} {z : AccessSize} {w : Word}

/-! ### Refused accesses (R63, R64) -/

/-- The window's map accepts exactly the legal accesses (R62, R63). -/
theorem accepts_targetOf (off : BitVec 10) (z : AccessSize) : (targetOf off).accepts z = legalAccess off z := by
  rw [targetOf]
  split_ifs
  iterate 7 subst off; cases z <;> decide
  all_goals
    rw [Bool.eq_iff_iff]
    cases z <;> simp only [Target.accepts, legalAccess, Bool.or_eq_true, Bool.and_eq_true, decide_eq_true_eq,
      Bool.false_eq_true, true_iff, false_iff] <;> bv_omega

/-- An access of a size that its target does not accept (R63). -/
theorem hostStep_illegal (h : legalAccess off z = false) (s : State) :
    hostStep (.read off z) s = s.respond .error ∧ hostStep (.write off z w) s = s.respond .error := by
  have hz : ¬ (targetOf off).accepts z = true := by simp [accepts_targetOf, h]
  exact ⟨if_neg hz, if_neg hz⟩

/-- A write to `OLEN`, `ITER` or a byte of `OBUF` (R64). -/
theorem step_write_readOnly {t : Target} (ht : targetOf off = t) (hz : t.accepts z = true)
    (hro : t = .olen ∨ t = .iter ∨ ∃ i, t = .obuf i) :
    step (hostTurn (.write off z w) es s) = .next { s with resp := some .error, events := es } := by
  rw [step_write ht hz]
  rcases hro with rfl | rfl | ⟨i, rfl⟩ <;> rfl

/-- Settles O11: the window's map accepts the legal accesses only, and `hostWrite` writes no read-only target. -/
theorem badAccessesRefused : Obligations.BadAccessesRefused := by
  refine ⟨rfl, fun s off z w es => ⟨fun h => ?_, ?_, fun i => ?_⟩⟩
  · obtain ⟨hread, hwrite⟩ := hostStep_illegal (w := w) h { s with events := es }
    rw [step_hostTurn, step_hostTurn, hread, hwrite]
    exact ⟨rfl, rfl⟩
  · rintro (rfl | rfl)
    · exact step_write_readOnly (t := .olen) (by decide) rfl (.inl rfl)
    · exact step_write_readOnly (t := .iter) (by decide) rfl (.inr (.inl rfl))
  · exact step_write_readOnly (targetOf_obufOffset i) rfl (.inr (.inr ⟨i, rfl⟩))

/-! ### The fatal state (R310, R322) -/

/-- Only what the host writes at any time, its inputs and the environment have changed, and `DONE` is not newly set
(R29, R30, R32, R34, R67). -/
structure OnlyInputsChanged (s t : State) : Prop where
  frame : t = { s with
    done := t.done, ie := t.ie, ilen := t.ilen, nmax := t.nmax, ibuf := t.ibuf, resp := t.resp,
    freeCount := t.freeCount, events := t.events }
  done : t.done = true → s.done = true

/-- The accesses that reach `CTRL` (R62, R63). -/
theorem access_of_ctrl (ht : targetOf off = .ctrl) (hz : (targetOf off).accepts z = true) :
    off = 0x008 ∧ z = .s32 := by
  rw [ht] at hz
  rw [targetOf] at ht
  split_ifs at ht with _ _ hoff
  cases z with
  | s32 => exact ⟨hoff, rfl⟩
  | _ => cases hz

/-- A fatal core accepts no command word, so a host access other than a soft reset changes inputs only (R67). -/
theorem hostStep_fatal (hf : s.fsm = .fatal) (a : HostAccess)
    (ha : ∀ w, a = .write 0x008 .s32 w → w.getLsbD 1 = false) : OnlyInputsChanged s (hostStep a s) := by
  have refused : OnlyInputsChanged s (s.respond .error) := ⟨rfl, id⟩
  cases a with
  | read off z =>
    rw [hostStep]
    split_ifs
    · obtain ⟨r, n, hr⟩ := hostRead_eq (targetOf off) s
      rw [hr]
      exact ⟨rfl, id⟩
    · exact refused
  | write off z w =>
    rw [hostStep]
    split_ifs with hz
    · rcases hostWrite_cases (targetOf off) w s with hw | ⟨-, -, hfatal, -⟩ | ⟨-, hw⟩ | ⟨ht, hsrst, -⟩ | ⟨-, -, hw⟩ |
        ⟨-, -, hw⟩ | ⟨-, -, hw⟩ | ⟨i, -, -, hw⟩
      · exact hw ▸ ⟨rfl, id⟩
      · exact absurd hf (of_decide_eq_false hfatal)
      · exact hw ▸ ⟨rfl, by simp⟩
      · obtain ⟨rfl, rfl⟩ := access_of_ctrl ht hz
        exact absurd (ha w rfl) (ne_false_of_eq_true hsrst)
      all_goals exact hw ▸ ⟨rfl, id⟩
    · exact refused

/-- The turn of any event but the two resets leaves a fatal core so. -/
theorem eventStep_fatal {e : Event} (hf : s.fsm = .fatal) (hrst : e ≠ .rst)
    (hsrst : ∀ w, e = .host (.write 0x008 .s32 w) → w.getLsbD 1 = false) (h : eventStep e s = .next t) :
    OnlyInputsChanged s t := by
  cases e with
  | core =>
    cases (coreStep_idle (by rw [State.busy, hf])).symm.trans h
    exact ⟨rfl, id⟩
  | host a =>
    cases h
    exact hostStep_fatal hf a fun w ha => hsrst w (by rw [ha])
  | rng a =>
    have hreq : ¬ s.rngReq = true := by simp [State.rngReq, hf]
    rw [eventStep, rngStep, if_neg hreq] at h
    cases h
    exact ⟨rfl, id⟩
  | rst => exact absurd rfl hrst

/-- Settles O54: no turn but a reset writes more than the inputs of a fatal core. -/
theorem fatalIsSticky : Obligations.FatalIsSticky := by
  intro s t hf h hrst hsrst
  obtain ⟨es, hkept⟩ : ∃ es, OnlyInputsChanged { s with events := es } t := by
    cases hes : s.events with
    | nil => exact ⟨s.events, eventStep_fatal (e := .core) hf (by simp) (by simp) ((step_nil hes).symm.trans h)⟩
    | cons e es =>
      exact ⟨es, eventStep_fatal hf (fun he => hrst es (by rw [hes, he])) (fun w he => hsrst es w (by rw [hes, he]))
        ((step_cons hes).symm.trans h)⟩
  rw [hkept.frame]
  exact ⟨hf, rfl, rfl, rfl, rfl, rfl, rfl, rfl, rfl, rfl, hkept.done⟩

end

end Sys2Proof.Laws
end

section
/-! What `ENCODE` does in each state of its walk (R252 to R261): one equation per arrow. -/
namespace Sys2Proof.Laws
open Sys2Proof Sys2Proof.Machine Sys2Proof.Claims

section
variable {s : State}

/-! ### `E_VALIDATE` and `E_LOOP` (R252, R253) -/

theorem exec_eValidate (hf : s.fsm = .eValidate) : exec .encode s = encValidate s := by
  simp only [exec, execEncode, hf]

theorem exec_eValidate_badForm (hf : s.fsm = .eValidate) (h : s.ilen ≠ 65 ∨ s.ibuf.read 0 ≠ 0x04) :
    exec .encode s = .next (s.completeDriver .point) := by
  rw [exec_eValidate hf, encValidate]
  by_cases hlen : s.ilen ≠ 65
  · exact if_pos hlen
  · exact (if_neg hlen).trans (if_pos (h.resolve_left hlen))

theorem exec_eValidate_invalid (hf : s.fsm = .eValidate) (h : ¬ (s.ilen ≠ 65 ∨ s.ibuf.read 0 ≠ 0x04))
    (hv : s.inputPoint.valid = false) :
    exec .encode s = .next ({ s with px := s.inputPoint.x, py := s.inputPoint.y }.completeDriver .point) := by
  obtain ⟨hlen, htag⟩ := not_or.1 h
  rw [exec_eValidate hf, encValidate, if_neg hlen, if_neg htag, hv]
  rfl

theorem exec_eValidate_valid (hf : s.fsm = .eValidate) (h : ¬ (s.ilen ≠ 65 ∨ s.ibuf.read 0 ≠ 0x04))
    (hv : s.inputPoint.valid = true) :
    exec .encode s = .next { s with px := s.inputPoint.x, py := s.inputPoint.y, iter := 0, fsm := .eLoop } := by
  obtain ⟨hlen, htag⟩ := not_or.1 h
  rw [exec_eValidate hf, encValidate, if_neg hlen, if_neg htag, hv]
  rfl

theorem exec_eLoop (hf : s.fsm = .eLoop) : exec .encode s = encLoop s := by
  simp only [exec, execEncode, hf]

theorem exec_eLoop_cap (hf : s.fsm = .eLoop) (hn : s.iter = s.nmax) :
    exec .encode s = .next (s.completeDriver .retry) :=
  (exec_eLoop hf).trans (if_pos hn)

theorem exec_eLoop_start (hf : s.fsm = .eLoop) (hn : s.iter ≠ s.nmax) :
    exec .encode s = .next { s.startRead with iter := s.iter + 1, fsm := .eDrawU } :=
  (exec_eLoop hf).trans (if_neg hn)

/-- Settles O43 by the equations of the two states. -/
theorem encodeValidateAndLoop : Obligations.EncodeValidateAndLoop := by
  rintro s x y rfl rfl
  have hlen : s.ilen.toNat = 65 ↔ s.ilen = 65 := (BitVec.toNat_inj (y := 65#8) :)
  rw [ne_eq, hlen]
  have form (h65 : s.ilen = 65) (h4 : s.ibuf.read 0 = 0x04) : ¬ (s.ilen ≠ 65 ∨ s.ibuf.read 0 ≠ 0x04) :=
    not_or.2 ⟨not_not.2 h65, not_not.2 h4⟩
  exact ⟨exec_eValidate_badForm, fun hf h65 h4 => exec_eValidate_invalid hf (form h65 h4),
    fun hf h65 h4 => exec_eValidate_valid hf (form h65 h4), exec_eLoop_cap, exec_eLoop_start⟩

/-! ### The draws (R254, R259) -/

theorem exec_eDrawU (hf : s.fsm = .eDrawU) : exec .encode s = encDrawU s := by
  simp only [exec, execEncode, hf]

theorem exec_eDrawJ (hf : s.fsm = .eDrawJ) : exec .encode s = encDrawJ s := by
  simp only [exec, execEncode, hf]

theorem rngRead_waiting (hin : s.rngIn = none) (n : Nat) : s.rngRead n = .waiting := by
  rw [State.rngRead, hin]

theorem rngRead_failed (hin : s.rngIn = some .err) (n : Nat) : s.rngRead n = .failed s.startRead := by
  rw [State.rngRead, hin]

theorem rngRead_more {b : Byte} {n : Nat} (hin : s.rngIn = some (.ok b)) (hn : s.rngBuf.length + 1 < n) :
    s.rngRead n = .more { s with rngBuf := s.rngBuf ++ [b], rngIn := none } := by
  rw [State.rngRead, hin]
  exact if_pos hn

theorem rngRead_complete {b : Byte} {n : Nat} (hin : s.rngIn = some (.ok b)) (hn : n ≤ s.rngBuf.length + 1) :
    s.rngRead n = .complete (s.rngBuf ++ [b]) s.startRead := by
  rw [State.rngRead, hin]
  exact if_neg (not_lt.2 hn)

theorem exec_draw_waiting (hf : s.fsm = .eDrawU ∨ s.fsm = .eDrawJ) (hin : s.rngIn = none) :
    exec .encode s = .next s := by
  rcases hf with hf | hf
  · rw [exec_eDrawU hf, encDrawU, rngRead_waiting hin]
  · rw [exec_eDrawJ hf, encDrawJ, rngRead_waiting hin]

theorem exec_draw_failed (hf : s.fsm = .eDrawU ∨ s.fsm = .eDrawJ) (hin : s.rngIn = some .err) :
    exec .encode s = .next (s.startRead.completeDriver .rng) := by
  rcases hf with hf | hf
  · rw [exec_eDrawU hf, encDrawU, rngRead_failed hin]
    rfl
  · rw [exec_eDrawJ hf, encDrawJ, rngRead_failed hin]
    rfl

theorem exec_eDrawU_more {b : Byte} (hf : s.fsm = .eDrawU) (hin : s.rngIn = some (.ok b))
    (hn : s.rngBuf.length < 31) :
    exec .encode s = .next { s with rngBuf := s.rngBuf ++ [b], rngIn := none } := by
  rw [exec_eDrawU hf, encDrawU, rngRead_more hin (Nat.succ_lt_succ hn)]

theorem exec_eDrawU_complete {b : Byte} (hf : s.fsm = .eDrawU) (hin : s.rngIn = some (.ok b))
    (hn : s.rngBuf.length = 31) :
    exec .encode s = .next { s.startRead with u := fromBytes (s.rngBuf ++ [b]), fsm := .eCheckU } := by
  rw [exec_eDrawU hf, encDrawU, rngRead_complete hin (by omega)]

theorem exec_eDrawJ_complete {b : Byte} (hf : s.fsm = .eDrawJ) (hin : s.rngIn = some (.ok b))
    (hbuf : s.rngBuf = []) :
    exec .encode s = .next { s.startRead with j := b.setWidth 2, fsm := .eSample } := by
  rw [exec_eDrawJ hf, encDrawJ, rngRead_complete hin (by omega), hbuf]
  rfl

/-- The two least significant bits of a byte are the byte modulo 4 (R259). -/
theorem setWidth_two (b : Byte) : b.setWidth 2 = BitVec.ofNat 2 (b.toNat % 4) := by
  apply BitVec.eq_of_toNat_eq
  simp

/-- Settles O44: in both states an answer is taken as `rngRead` takes it. -/
theorem encodeDraws : Obligations.EncodeDraws := fun _ hf =>
  ⟨exec_draw_waiting hf, exec_draw_failed hf, fun _ hU => exec_eDrawU_more hU, fun _ hU => exec_eDrawU_complete hU,
    fun b hJ hin hbuf => setWidth_two b ▸ exec_eDrawJ_complete hJ hin hbuf⟩

/-! ### From `E_CHECK_U` to `E_EMIT` (R255 to R258, R260, R261) -/

theorem exec_eCheckU (hf : s.fsm = .eCheckU) : exec .encode s = encCheckU s := by
  simp only [exec, execEncode, hf]

theorem exec_eCheckU_singular (hf : s.fsm = .eCheckU) (hu : singular s.u = true) :
    exec .encode s = .next { s with fsm := .eLoop } := by
  rw [exec_eCheckU hf, encCheckU, if_pos hu]

theorem exec_eCheckU_regular (hf : s.fsm = .eCheckU) (hu : ¬ singular s.u = true) :
    exec .encode s = .next { s with fsm := .eMap } := by
  rw [exec_eCheckU hf, encCheckU, if_neg hu]

theorem exec_eMap (hf : s.fsm = .eMap) : exec .encode s = encMap s := by
  simp only [exec, execEncode, hf]

theorem exec_eMap_some {p : Point} (hf : s.fsm = .eMap) (hp : mapF s.u = .ok (some p)) :
    exec .encode s = .next { s with xf := p.x, yf := p.y, fsm := .eSub } := by
  rw [exec_eMap hf, encMap, hp]
  rfl

theorem exec_eMap_none (hf : s.fsm = .eMap) (hp : mapF s.u = .ok none) :
    exec .encode s = .next (s.completeDriver .mapInv) := by
  rw [exec_eMap hf, encMap, hp]
  rfl

theorem exec_eSub {q : Point} (hf : s.fsm = .eSub) (hq : affineAdd s.p s.f.neg = .ok q) :
    exec .encode s = .next { s with qx := q.x, qy := q.y, fsm := .eCheckQ } := by
  simp only [exec, execEncode, hf, encSub, hq, orFault_ok]

theorem exec_eCheckQ (hf : s.fsm = .eCheckQ) : exec .encode s = encCheckQ s := by
  simp only [exec, execEncode, hf]

theorem exec_eCheckQ_infinity (hf : s.fsm = .eCheckQ) (hq : s.q = infinity) :
    exec .encode s = .next { s with fsm := .eLoop } :=
  (exec_eCheckQ hf).trans (if_pos hq)

theorem exec_eCheckQ_draw (hf : s.fsm = .eCheckQ) (hq : s.q ≠ infinity) :
    exec .encode s = .next { s.startRead with fsm := .eDrawJ } :=
  (exec_eCheckQ hf).trans (if_neg hq)

theorem exec_eSample (hf : s.fsm = .eSample) : exec .encode s = encSample s := by
  simp only [exec, execEncode, hf]

theorem exec_eSample_none (hf : s.fsm = .eSample) (hv : rSamp s.q s.j = .ok none) :
    exec .encode s = .next { s with fsm := .eLoop } := by
  rw [exec_eSample hf, encSample, hv]
  rfl

theorem exec_eSample_some {x : Fp} (hf : s.fsm = .eSample) (hv : rSamp s.q s.j = .ok (some x)) :
    exec .encode s = .next { s with v := x, fsm := .eEmit } := by
  rw [exec_eSample hf, encSample, hv]
  rfl

/-- `OBUF` with the bytes of the answer `u`, `v` (R261). -/
def answerBytes (u v : Fp) (m : Memory) : Memory := (m.writeBytes 0 (toBytes u)).writeBytes 32 (toBytes v)

/-- The state a successful `ENCODE` leaves, with `OBUF` given (R261). -/
def emitted (m : Memory) (s : State) : State := { s with obuf := m, olen := 64 }.complete .ok

theorem encodeSuccess_eq (u v : Fp) (s : State) :
    encodeSuccess u v s = .next (emitted (answerBytes u v s.obuf) s) := rfl

theorem exec_eEmit (hf : s.fsm = .eEmit) :
    exec .encode s = .next (emitted (answerBytes s.u s.v s.obuf) s) := by
  simp only [exec, execEncode, hf]
  rfl

end

end Sys2Proof.Laws
end

section
/-! The walk of `ENCODE` refines its big step (R250, R262): an iteration of `encodeLoop` is a round trip of the walk
from `E_LOOP`, with the answers arriving one at a time. -/
namespace Sys2Proof.Laws
open Sys2Proof Sys2Proof.Machine

/-! ### Turns of the core and the RNG source, as far as they are needed -/

/-- The state with the turns `es` still to come. -/
def listed (es : List Event) (s : State) : State := { s with events := es }

theorem listed_of_events {es : List Event} {s : State} (h : s.events = es) : listed es s = s := by
  rw [← h]
  rfl

/-- `Reaches s as t rest`: turns of the core and answers to its requests lead from `s` to `t`, where the answers are
those of `as` before `rest`. A turn of the core is the same whatever turns are still listed. -/
inductive Reaches : State → List RngAnswer → State → List RngAnswer → Prop
  | refl (s : State) (as : List RngAnswer) : Reaches s as s as
  | core {s u t : State} {as rest : List RngAnswer} (hes : u.events = s.events)
      (hcore : ∀ es, coreStep (listed es s) = .next (listed es u)) (h : Reaches u as t rest) :
      Reaches s as t rest
  | answer {s t : State} {a : RngAnswer} {as rest : List RngAnswer} (hreq : s.rngReq = true)
      (h : Reaches { s with rngIn := some a } as t rest) : Reaches s (a :: as) t rest

section
variable {s t u : State} {as mid rest : List RngAnswer}

theorem Reaches.trans (h : Reaches s as u mid) (h' : Reaches u mid t rest) : Reaches s as t rest := by
  induction h with
  | refl => exact h'
  | core hes hcore _ ih => exact .core hes hcore (ih h')
  | answer hreq _ ih => exact .answer hreq (ih h')

theorem Reaches.events (h : Reaches s as t rest) : t.events = s.events := by
  induction h with
  | refl => rfl
  | core hes _ _ ih => exact ih.trans hes
  | answer _ _ ih => exact ih

theorem run_of_step {n : Nat} (h : step s = .next u) :
    Host.Core.run Sys2Proof.core (n + 1) s = Host.Core.run Sys2Proof.core n u := by
  have hcore : Sys2Proof.core.step s = .next u := h
  refine (Host.Core.run.eq_2 Sys2Proof.core s n).trans ?_
  rw [hcore]

/-- The turns that lead from one state to another, listed, are a schedule that does so. -/
theorem Reaches.schedule (h : Reaches s as t rest) :
    ∃ sched, noHost sched = true ∧ rngAnswers sched ++ rest = as ∧
      Host.Core.run Sys2Proof.core sched.length (listed sched s) = .next (listed [] t) := by
  induction h with
  | refl s as => exact ⟨[], rfl, rfl, rfl⟩
  | @core s _ _ _ _ _ hcore _ ih =>
    obtain ⟨sched, hnoHost, hanswers, hrun⟩ := ih
    have hstep := run_of_step (n := sched.length) (s := listed (.core :: sched) s) (hcore sched)
    exact ⟨.core :: sched, hnoHost, hanswers, hstep.trans hrun⟩
  | @answer s _ a _ _ hreq _ ih =>
    obtain ⟨sched, hnoHost, hanswers, hrun⟩ := ih
    have hstep : step (listed (.rng a :: sched) s) = .next (listed sched { s with rngIn := some a }) :=
      congrArg Host.Outcome.next (if_pos hreq)
    exact ⟨.rng a :: sched, hnoHost, congrArg (a :: ·) hanswers, (run_of_step hstep).trans hrun⟩

end

/-! ### The state of the walk beside the state of the big step -/

/-- The walk stands at `f` with the target `p`, and is otherwise where the big step, at `b`, is. -/
structure Walking (b : State) (p : Point) (f : Fsm) (s : State) : Prop where
  frame : s.forgetDatapath = ({ b with fsm := f } : State).forgetDatapath
  target : s.p = p
  cmd : decode b.cmd = .ok .encode

/-- From `s` the walk reaches every end that `run` has, hidden registers apart, leaving the same answers. -/
def Realizes (s : State) (as : List RngAnswer) (run : EncodeRun) : Prop :=
  ∀ t rest, run = .ended (.next t) rest → ∃ t', Reaches s as t' rest ∧ t'.forgetDatapath = t.forgetDatapath

section
variable {b s s' t : State} {p : Point} {f f' : Fsm} {as mid rest : List RngAnswer} {run : EncodeRun}

theorem realizes_starved : Realizes s as .starved := fun _ _ h => by cases h

theorem Reaches.realizes (h : Reaches s as s' mid) (hrun : Realizes s' mid run) :
    Realizes s as run := by
  intro t rest hend
  obtain ⟨t', ht', hsame⟩ := hrun t rest hend
  exact ⟨t', h.trans ht', hsame⟩

/-- A value of a partial function is all the walk needs, as the big step has no next state without one. -/
theorem realizes_endFault {α : Type} {v : Except Fault α} {k : α → EncodeRun}
    (h : ∀ a, v = .ok a → Realizes s as (k a)) : Realizes s as (endFault v mid k) := by
  cases v with
  | error e => exact fun _ _ hend => by cases hend
  | ok a => exact h a rfl

theorem Walking.fsm_eq (h : Walking b p f s) : s.fsm = f := (congrArg State.fsm h.frame :)
theorem Walking.iter_eq (h : Walking b p f s) : s.iter = b.iter := (congrArg State.iter h.frame :)
theorem Walking.nmax_eq (h : Walking b p f s) : s.nmax = b.nmax := (congrArg State.nmax h.frame :)

/-- A step of `ENCODE` is the turn of a core that walks it. -/
theorem Walking.coreStep_eq (h : Walking b p f s) (hf : f.inEncode = true) (es : List Event) :
    coreStep (listed es s) = exec .encode (listed es s) := by
  have hcmd : s.cmd = b.cmd := (congrArg State.cmd h.frame :)
  have hin : s.fsm.inEncode = true := by rw [h.fsm_eq, hf]
  exact coreStep_ok (busy_of_inEncode (s := listed es s) hin) ((congrArg decode hcmd).trans h.cmd)

/-- An arrow of the walk that changes nothing but `FSM` and the hidden registers, the target apart. -/
theorem Walking.next (h : Walking b p f s)
    (hframe : s'.forgetDatapath = ({ s with fsm := f' } : State).forgetDatapath) (hp : s'.p = s.p) :
    Walking b p f' s' :=
  ⟨hframe.trans (congrArg (fun x : State => { x with fsm := f' }) h.frame :), hp.trans h.target, h.cmd⟩

/-- A change of hidden registers, the target apart. -/
theorem Walking.hidden (h : Walking b p f s) (hframe : s'.forgetDatapath = s.forgetDatapath) (hp : s'.p = s.p) :
    Walking b p f s' :=
  ⟨hframe.trans h.frame, hp.trans h.target, h.cmd⟩

/-- An arrow of the walk as the turn of the core. -/
theorem Walking.reaches (h : Walking b p f s) (hf : f.inEncode = true) (hes : s'.events = s.events)
    (hexec : ∀ es, exec .encode (listed es s) = .next (listed es s')) : Reaches s as s' as :=
  .core hes (fun es => (h.coreStep_eq hf es).trans (hexec es)) (.refl s' as)

/-- An arrow of the walk, before the rest of it. -/
theorem Walking.realizes_next (h : Walking b p f s) (hf : f.inEncode = true)
    (hexec : ∀ es, exec .encode (listed es s) = .next (listed es s'))
    (hframe : s'.forgetDatapath = ({ s with fsm := f' } : State).forgetDatapath) (hp : s'.p = s.p)
    (hrun : Walking b p f' s' → Realizes s' as run) : Realizes s as run :=
  (h.reaches (s' := s') hf (congrArg State.events hframe :) hexec).realizes (hrun (h.next hframe hp))

/-- The step with which the walk ends the command. -/
theorem Walking.realizes_ended (h : Walking b p f s) (hf : f.inEncode = true) (hes : s'.events = s.events)
    (hexec : ∀ es, exec .encode (listed es s) = .next (listed es s'))
    (hsame : s'.forgetDatapath = t.forgetDatapath) : Realizes s as (.ended (.next t) as) := fun _ _ hend => by
  cases hend
  exact ⟨s', h.reaches hf hes hexec, hsame⟩

/-- The step with which it fails (R305, R310). -/
theorem Walking.realizes_failed {c : Code} (h : Walking b p f s) (hf : f.inEncode = true)
    (hexec : ∀ es, exec .encode (listed es s) = .next (listed es (s.completeDriver c))) :
    Realizes s as (.ended (raiseDriver c b) as) :=
  h.realizes_ended (s' := s.completeDriver c) hf rfl hexec (congrArg (State.completeDriver · c) h.frame :)

/-! ### The draws (R81, R254, R259) -/

theorem drawBytes_succ_eq_failed {n : Nat} (h : drawBytes (n + 1) as = .failed rest) :
    as = .err :: rest ∨ ∃ c as', as = .ok c :: as' ∧ drawBytes n as' = .failed rest := by
  match as, h with
  | .err :: _, h =>
    cases h
    exact .inl rfl
  | .ok c :: as', h =>
    rw [drawBytes] at h
    split at h <;> cases h
    next hd => exact .inr ⟨c, as', rfl, hd⟩

theorem drawBytes_succ_eq_bytes {n : Nat} {bs : List Byte} (h : drawBytes (n + 1) as = .bytes bs rest) :
    ∃ c as' bs', as = .ok c :: as' ∧ bs = c :: bs' ∧ drawBytes n as' = .bytes bs' rest := by
  match as, h with
  | .ok c :: as', h =>
    rw [drawBytes] at h
    split at h <;> cases h
    next hd => exact ⟨c, as', _, rfl, rfl, hd⟩

/-- An answer comes to stand on the port of a core that draws. -/
theorem Walking.reaches_answer (h : Walking b p f s) (hf : f = .eDrawU ∨ f = .eDrawJ) (hin : s.rngIn = none)
    (a : RngAnswer) :
    Reaches s (a :: as) { s with rngIn := some a } as ∧ Walking b p f { s with rngIn := some a } :=
  ⟨.answer ((rngReq_iff s).2 ⟨h.fsm_eq ▸ hf, hin⟩) (.refl _ as), h.hidden rfl rfl⟩

/-- An `Err` answer ends the command. -/
theorem Walking.realizes_rngFailed (h : Walking b p f s) (hf : f = .eDrawU ∨ f = .eDrawJ) (hin : s.rngIn = none) :
    Realizes s (.err :: rest) (.ended (raiseDriver .rng b) rest) := by
  obtain ⟨hreach, hw⟩ := h.reaches_answer (as := rest) hf hin .err
  refine hreach.realizes (hw.realizes_ended (s' := s.startRead.completeDriver .rng) ?_ rfl (fun es => ?_) ?_)
  · rcases hf with rfl | rfl <;> rfl
  · exact exec_draw_failed (s := listed es { s with rngIn := some .err }) (h.fsm_eq ▸ hf) rfl
  · exact (congrArg (State.completeDriver · .rng) h.frame :)

/-- A byte of `U` with more to come. -/
theorem Walking.reaches_byte (h : Walking b p .eDrawU s) (hin : s.rngIn = none) (hlen : s.rngBuf.length < 31)
    (c : Byte) :
    Reaches s (.ok c :: as) { s with rngBuf := s.rngBuf ++ [c], rngIn := none } as ∧
      Walking b p .eDrawU { s with rngBuf := s.rngBuf ++ [c], rngIn := none } := by
  obtain ⟨hreach, hw⟩ := h.reaches_answer (as := as) (.inl rfl) hin (.ok c)
  refine ⟨hreach.trans (hw.reaches (s' := { s with rngBuf := s.rngBuf ++ [c], rngIn := none }) rfl rfl fun es => ?_),
    h.hidden rfl rfl⟩
  exact exec_eDrawU_more (s := listed es { s with rngIn := some (.ok c) }) h.fsm_eq rfl hlen

/-- A draw of `U` that fails, with `n + 1` bytes to come. -/
theorem Walking.realizes_drawU_failed {n : Nat} (h : Walking b p .eDrawU s) (hin : s.rngIn = none)
    (hlen : s.rngBuf.length + (n + 1) = 32) (hd : drawBytes (n + 1) as = .failed rest) :
    Realizes s as (.ended (raiseDriver .rng b) rest) := by
  induction n generalizing s as with
  | zero =>
    obtain rfl | ⟨c, as', -, hd'⟩ := drawBytes_succ_eq_failed hd
    · exact h.realizes_rngFailed (.inl rfl) hin
    · cases hd'
  | succ n ih =>
    obtain rfl | ⟨c, as', rfl, hd'⟩ := drawBytes_succ_eq_failed hd
    · exact h.realizes_rngFailed (.inl rfl) hin
    · obtain ⟨hreach, hw⟩ := h.reaches_byte (as := as') hin (by omega) c
      exact hreach.realizes (ih hw rfl (by simp only [List.length_append, List.length_singleton]; omega) hd')

/-- A draw of `U` that gets its bytes, with `n + 1` of them to come. -/
theorem Walking.reaches_checkU {n : Nat} {bs : List Byte} (h : Walking b p .eDrawU s) (hin : s.rngIn = none)
    (hlen : s.rngBuf.length + (n + 1) = 32) (hd : drawBytes (n + 1) as = .bytes bs rest) :
    ∃ s', Reaches s as s' rest ∧ Walking b p .eCheckU s' ∧ s'.u = fromBytes (s.rngBuf ++ bs) := by
  induction n generalizing s as bs with
  | zero =>
    obtain ⟨c, as', bs', rfl, rfl, hd'⟩ := drawBytes_succ_eq_bytes hd
    cases hd'
    have hlast : s.rngBuf.length = 31 := by omega
    obtain ⟨hreach, hw⟩ := h.reaches_answer (as := rest) (.inl rfl) hin (.ok c)
    refine ⟨{ s.startRead with u := fromBytes (s.rngBuf ++ [c]), fsm := .eCheckU },
      hreach.trans (hw.reaches rfl rfl fun es => ?_), h.next rfl rfl, rfl⟩
    exact exec_eDrawU_complete (s := listed es { s with rngIn := some (.ok c) }) h.fsm_eq rfl hlast
  | succ n ih =>
    obtain ⟨c, as', bs', rfl, rfl, hd'⟩ := drawBytes_succ_eq_bytes hd
    obtain ⟨hreach, hw⟩ := h.reaches_byte (as := as') hin (by omega) c
    obtain ⟨s', hreach', hw', hu⟩ :=
      ih hw rfl (by simp only [List.length_append, List.length_singleton]; omega) hd'
    exact ⟨s', hreach.trans hreach', hw', by rw [hu, List.append_assoc]; rfl⟩

/-- The draw of `J`, of one byte. -/
theorem Walking.realizes_drawJ {c : Byte} (h : Walking b p .eDrawJ s) (hin : s.rngIn = none)
    (hbuf : s.rngBuf = [])
    (hrun : ∀ s', Walking b p .eSample s' → s'.q = s.q → s'.u = s.u → s'.j = c.setWidth 2 → Realizes s' rest run) :
    Realizes s (.ok c :: rest) run := by
  obtain ⟨hreach, hw⟩ := h.reaches_answer (as := rest) (.inr rfl) hin (.ok c)
  refine hreach.realizes (hw.realizes_next (s' := { s.startRead with j := c.setWidth 2, fsm := .eSample }) rfl
    (fun es => ?_) rfl rfl fun hw' => hrun _ hw' rfl rfl rfl)
  exact exec_eDrawJ_complete (s := listed es { s with rngIn := some (.ok c) }) h.fsm_eq rfl hbuf

/-! ### The other states of an iteration -/

/-- `E_CHECK_U` (R255). -/
theorem Walking.realizes_checkU {again on : EncodeRun} (h : Walking b p .eCheckU s)
    (hagain : ∀ s', Walking b p .eLoop s' → Realizes s' as again)
    (hon : ∀ s', Walking b p .eMap s' → s'.u = s.u → Realizes s' as on) :
    Realizes s as (if singular s.u then again else on) := by
  split_ifs with hu
  · exact h.realizes_next (s' := { s with fsm := .eLoop }) rfl
      (fun es => exec_eCheckU_singular (s := listed es s) h.fsm_eq hu) rfl rfl (hagain _)
  · exact h.realizes_next (s' := { s with fsm := .eMap }) rfl
      (fun es => exec_eCheckU_regular (s := listed es s) h.fsm_eq hu) rfl rfl fun hw => hon _ hw rfl

/-- `E_MAP` and `E_SUB` (R256, R257). -/
theorem Walking.realizes_map {on : Point → EncodeRun} (h : Walking b p .eMap s)
    (hon : ∀ s', Walking b p .eCheckQ s' → s'.u = s.u → Realizes s' as (on s'.q)) :
    Realizes s as (endFault (mapF s.u) as fun o =>
      o.elim (.ended (raiseDriver .mapInv b) as) fun f => endFault (affineAdd p f.neg) as on) := by
  refine realizes_endFault fun o ho => ?_
  cases o with
  | none => exact h.realizes_failed rfl fun es => exec_eMap_none (s := listed es s) h.fsm_eq ho
  | some f =>
    refine h.realizes_next (s' := { s with xf := f.x, yf := f.y, fsm := .eSub }) rfl
      (fun es => exec_eMap_some (s := listed es s) h.fsm_eq ho) rfl rfl fun hw => ?_
    refine realizes_endFault fun q hq => ?_
    rw [← h.target] at hq
    exact hw.realizes_next (s' := { s with xf := f.x, yf := f.y, qx := q.x, qy := q.y, fsm := .eCheckQ }) rfl
      (fun es => exec_eSub (s := listed es { s with xf := f.x, yf := f.y, fsm := .eSub }) rfl hq) rfl rfl
      fun hw' => hon _ hw' rfl

/-- `E_CHECK_Q` (R258). -/
theorem Walking.realizes_checkQ {again on : EncodeRun} (h : Walking b p .eCheckQ s)
    (hagain : ∀ s', Walking b p .eLoop s' → Realizes s' as again)
    (hon : Walking b p .eDrawJ { s.startRead with fsm := .eDrawJ } →
      Realizes { s.startRead with fsm := .eDrawJ } as on) :
    Realizes s as (if s.q = infinity then again else on) := by
  split_ifs with hq
  · exact h.realizes_next (s' := { s with fsm := .eLoop }) rfl
      (fun es => exec_eCheckQ_infinity (s := listed es s) h.fsm_eq hq) rfl rfl (hagain _)
  · exact h.realizes_next (s' := { s.startRead with fsm := .eDrawJ }) rfl
      (fun es => exec_eCheckQ_draw (s := listed es s) h.fsm_eq hq) rfl rfl hon

theorem emitted_listed (m : Memory) (es : List Event) (s : State) :
    emitted m (listed es s) = listed es (emitted m s) := rfl

theorem Walking.emitted_eq (h : Walking b p f s) (m : Memory) :
    (emitted m s).forgetDatapath = (emitted m b).forgetDatapath :=
  (congrArg (emitted m) h.frame :)

/-- `E_EMIT` (R261). -/
theorem Walking.realizes_emit (h : Walking b p .eEmit s) : Realizes s as (.ended (encodeSuccess s.u s.v b) as) := by
  have hobuf : s.obuf = b.obuf := (congrArg State.obuf h.frame :)
  rw [encodeSuccess_eq, ← hobuf]
  refine h.realizes_ended (s' := emitted (answerBytes s.u s.v s.obuf) s) rfl rfl (fun es => ?_) ?_
  · exact (exec_eEmit (s := listed es s) h.fsm_eq).trans (congrArg Host.Outcome.next (emitted_listed _ es s))
  · exact h.emitted_eq _

/-- `E_SAMPLE`, and `E_EMIT` after a value (R260). -/
theorem Walking.realizes_sample {again : EncodeRun} (h : Walking b p .eSample s)
    (hagain : ∀ s', Walking b p .eLoop s' → Realizes s' as again) :
    Realizes s as (endFault (rSamp s.q s.j) as fun o =>
      o.elim again fun v => .ended (encodeSuccess s.u v b) as) := by
  refine realizes_endFault fun o ho => ?_
  cases o with
  | none =>
    exact h.realizes_next (s' := { s with fsm := .eLoop }) rfl
      (fun es => exec_eSample_none (s := listed es s) h.fsm_eq ho) rfl rfl (hagain _)
  | some v =>
    exact h.realizes_next (s' := { s with v := v, fsm := .eEmit }) rfl
      (fun es => exec_eSample_some (s := listed es s) h.fsm_eq ho) rfl rfl fun hw => hw.realizes_emit

/-! ### The loop and the whole command -/

/-- The walk from `E_LOOP`, `n` iterations before the cap (R253, R262). -/
theorem Walking.realizes_loop (n : Nat) (h : Walking b p .eLoop s) (hn : b.iter.toNat + n = b.nmax.toNat) :
    Realizes s as (encodeLoop n p b as) := by
  induction n generalizing b s as with
  | zero =>
    have hcap : s.iter = s.nmax := by
      rw [h.iter_eq, h.nmax_eq]
      exact BitVec.eq_of_toNat_eq hn
    exact h.realizes_failed rfl fun es => exec_eLoop_cap (s := listed es s) h.fsm_eq hcap
  | succ n ih =>
    have hcap : s.iter ≠ s.nmax := by
      rw [h.iter_eq, h.nmax_eq]
      intro heq
      rw [heq] at hn
      omega
    have hiter : (b.iter + 1).toNat = b.iter.toNat + 1 := toNat_add_one (n := b.nmax) (by omega)
    have again : ∀ as s', Walking { b with iter := b.iter + 1 } p .eLoop s' →
        Realizes s' as (encodeLoop n p { b with iter := b.iter + 1 } as) := fun _ _ hw =>
      ih hw (by simp only [hiter]; omega)
    have hstarted : Walking { b with iter := b.iter + 1 } p .eDrawU
        { s.startRead with iter := s.iter + 1, fsm := .eDrawU } :=
      ⟨(congrArg (fun x : State => { x with iter := x.iter + 1, fsm := .eDrawU }) h.frame :), h.target, h.cmd⟩
    refine (h.reaches (s' := { s.startRead with iter := s.iter + 1, fsm := .eDrawU }) rfl rfl fun es =>
      exec_eLoop_start (s := listed es s) h.fsm_eq hcap).realizes ?_
    rw [encodeLoop]
    rcases hd : drawBytes 32 as with ⟨bs, mid⟩ | mid | _
    · obtain ⟨s', hreach, hdrawn, hu⟩ := hstarted.reaches_checkU rfl rfl hd
      rw [startRead_rngBuf, List.nil_append] at hu
      dsimp only
      rw [← hu]
      refine hreach.realizes (hdrawn.realizes_checkU (again mid) fun s' hmap hu' => ?_)
      rw [← hu']
      refine hmap.realizes_map fun s' hcheckQ hu' => hcheckQ.realizes_checkQ (again mid) fun hdrawJ => ?_
      rw [← hu']
      rcases hd' : drawBytes 1 mid with ⟨js, left⟩ | left | _
      · obtain ⟨c, _, _, rfl, rfl, hd'⟩ := drawBytes_succ_eq_bytes hd'
        cases hd'
        refine hdrawJ.realizes_drawJ rfl rfl fun s' hsample hq hu' hj => ?_
        dsimp only [List.headD_cons]
        rw [← hj]
        exact hq ▸ hu' ▸ hsample.realizes_sample (again left)
      · obtain rfl | ⟨_, _, -, hd'⟩ := drawBytes_succ_eq_failed hd'
        · exact hdrawJ.realizes_rngFailed (.inr rfl) rfl
        · cases hd'
      · exact realizes_starved
    · exact hstarted.realizes_drawU_failed rfl rfl hd
    · exact realizes_starved

/-- The walk from its acceptance (R252, R262). -/
theorem realizes_encodeBig (hf : s.fsm = .eValidate) (hcmd : decode s.cmd = .ok .encode) :
    Realizes s as (encodeBig s as) := by
  have h : Walking s s.p .eValidate s := ⟨by rw [← hf], rfl, hcmd⟩
  by_cases hform : s.ilen ≠ 65 ∨ s.ibuf.read 0 ≠ 0x04
  · rw [encodeBig_point s as (.inl hform)]
    exact h.realizes_failed rfl fun es => exec_eValidate_badForm (s := listed es s) hf hform
  rcases hv : s.inputPoint.valid with _ | _
  · rw [encodeBig_point s as (.inr hv)]
    exact h.realizes_ended
      (s' := ({ s with px := s.inputPoint.x, py := s.inputPoint.y } : State).completeDriver .point) rfl rfl
      (fun es => exec_eValidate_invalid (s := listed es s) hf hform hv) rfl
  · rw [encodeBig_loop s as (not_or.2 ⟨hform, by simp [hv]⟩)]
    have hvalidated : Walking { s with iter := 0 } s.inputPoint .eLoop
        { s with px := s.inputPoint.x, py := s.inputPoint.y, iter := 0, fsm := .eLoop } := ⟨rfl, rfl, hcmd⟩
    refine Reaches.realizes ?_ (hvalidated.realizes_loop s.nmax.toNat (by simp))
    exact h.reaches rfl rfl fun es => exec_eValidate_valid (s := listed es s) hf hform hv

/-- Settles O49: the walk realizes the big step, and the turns it takes are the schedule. -/
theorem encodeRefinesBigStep : Obligations.EncodeRefinesBigStep := by
  intro s t as rest hf hes hcmd _ _ hend
  obtain ⟨t', hreach, hsame⟩ := realizes_encodeBig hf hcmd t rest hend
  obtain ⟨sched, hnoHost, hanswers, hrun⟩ := hreach.schedule
  have hnil : t'.events = [] := hreach.events.trans hes
  exact ⟨sched, t', hnoHost, hanswers, hrun.trans (congrArg Host.Outcome.next (listed_of_events hnil)), hsame⟩

end

end Sys2Proof.Laws
end

section
/-! The decoder and the encoder (R101, R112 to R120). A row of the opcode map is fixed by the opcode byte, and its mask and
its operand bits together are the whole word, so a legal word is its match bits and its operands. -/
namespace Sys2Proof.Laws
open Sys2Proof

section
variable {o : Opcode} {w : Word} {i : Instr}

/-! ### Rows and opcode bytes (R113) -/

theorem mem_opcodes (o : Opcode) : o ∈ Opcode.all := by
  cases o <;> decide

/-- No two rows share an opcode byte. -/
theorem opcodeByte_injective : Function.Injective Opcode.byte := fun o o' h =>
  List.inj_on_of_nodup_map (l := Opcode.all) (by decide) (mem_opcodes o) (mem_opcodes o') h

theorem selects_iff : o.selects w = true ↔ w &&& o.mask = o.matchBits := beq_iff_eq

/-- Any cut of a selected row's word agrees with the row's match bits under its mask. -/
theorem extractLsb'_of_selects (h : o.selects w = true) (start len : Nat) :
    w.extractLsb' start len &&& o.mask.extractLsb' start len = o.matchBits.extractLsb' start len := by
  rw [← selects_iff.1 h, BitVec.extractLsb'_and]

/-- Every mask holds the whole opcode byte. -/
theorem mask_byte (o : Opcode) : o.mask.extractLsb' 24 8 = BitVec.allOnes 8 := by
  cases o <;> rfl

theorem matchBits_byte (o : Opcode) : o.matchBits.extractLsb' 24 8 = o.byte := by
  cases o <;> rfl

theorem byte_of_selects (h : o.selects w = true) : w.extractLsb' 24 8 = o.byte := by
  have h := extractLsb'_of_selects h 24 8
  rwa [mask_byte, BitVec.and_allOnes, matchBits_byte] at h

theorem selects_of_find_row (h : Opcode.all.find? (fun o => o.selects w) = some o) : o.selects w = true :=
  List.find?_some (p := fun o : Opcode => o.selects w) h

/-- The search through the opcode map finds a row exactly when the word selects it (R117). -/
theorem find_row_iff : Opcode.all.find? (fun o => o.selects w) = some o ↔ o.selects w = true := by
  refine ⟨selects_of_find_row, fun h => ?_⟩
  obtain ⟨o', hfind⟩ := Option.isSome_iff_exists.1
    (List.find?_isSome (p := fun o : Opcode => o.selects w) |>.2 ⟨o, mem_opcodes o, h⟩)
  have hbyte : o'.byte = o.byte := (byte_of_selects (selects_of_find_row hfind)).symm.trans (byte_of_selects h)
  rw [hfind, opcodeByte_injective hbyte]

theorem find_row_none (h : ∀ o : Opcode, o.selects w = false) : Opcode.all.find? (fun o => o.selects w) = none :=
  List.find?_eq_none.2 fun o _ => by simp [h o]

/-! ### The decoder, case by case (R114 to R116) -/

/-- Steps 2 and 3 of R114, once the row is found. -/
theorem decode_of_selects (h : o.selects w = true) :
    decode w = if 15 ∈ (o.extract w).sourceFields then .error .reservedSource else .ok (o.extract w) := by
  simp only [decode, find_row_iff.2 h, List.contains_iff_mem]

theorem decode_eq_ok_iff :
    decode w = .ok i ↔ ∃ o : Opcode, o.selects w = true ∧ 15 ∉ (o.extract w).sourceFields ∧ o.extract w = i := by
  constructor
  · intro h
    rcases hfind : Opcode.all.find? (fun o => o.selects w) with _ | o
    · rw [decode, hfind] at h
      dsimp only at h
      split_ifs at h
    · have hsel := selects_of_find_row hfind
      rw [decode_of_selects hsel] at h
      split_ifs at h with h15
      exact ⟨o, hsel, h15, Except.ok.inj h⟩
  · rintro ⟨o, hsel, h15, rfl⟩
    rw [decode_of_selects hsel, if_neg h15]

/-- A defined opcode byte in a word that disagrees with its row (R116). -/
theorem decode_of_byte (hbyte : w.extractLsb' 24 8 = o.byte) (h : o.selects w = false) :
    decode w = .error .reservedBits := by
  have hnone : ∀ o' : Opcode, o'.selects w = false := fun o' => by
    by_contra hsel
    rw [Bool.not_eq_false] at hsel
    rw [opcodeByte_injective ((byte_of_selects hsel).symm.trans hbyte), h] at hsel
    cases hsel
  have hany : Opcode.all.any (fun o' => o'.byte == w.extractLsb' 24 8) = true :=
    List.any_eq_true.2 ⟨o, mem_opcodes o, beq_iff_eq.2 hbyte.symm⟩
  simp only [decode, find_row_none hnone, if_pos hany]

/-- An opcode byte of no row (R115). -/
theorem decode_of_no_byte (h : ∀ o : Opcode, o.byte ≠ w.extractLsb' 24 8) : decode w = .error .reservedOpcode := by
  have hnone : ∀ o : Opcode, o.selects w = false := fun o =>
    Bool.eq_false_iff.2 fun hsel => h o (byte_of_selects hsel).symm
  have hany : ¬ Opcode.all.any (fun o => o.byte == w.extractLsb' 24 8) = true := fun hany => by
    obtain ⟨o, -, ho⟩ := List.any_eq_true.1 hany
    exact h o (beq_iff_eq.1 ho)
  simp only [decode, find_row_none hnone, if_neg hany]

/-- The opcode bytes lie outside the reserved ranges (R115). -/
theorem byte_defined (o : Opcode) :
    o.byte.toNat ≤ 0x0A ∨ o.byte.toNat = 0x10 ∨ o.byte.toNat = 0x11 ∨ o.byte.toNat = 0x20 ∨
      (0x30 ≤ o.byte.toNat ∧ o.byte.toNat ≤ 0x33) ∨ o.byte.toNat = 0x40 ∨ o.byte.toNat = 0x50 ∨ o.byte.toNat = 0x51 := by
  cases o <;> decide

/-- Settles O15: the four cases of the decoder, by whether the opcode byte has a row and whether the word selects it. -/
theorem illegalWords : Obligations.IllegalWords := by
  refine fun w => ⟨fun hop => decode_of_no_byte fun o ho => ?_, fun o hbyte => ⟨fun h => ?_, fun h h15 => ?_,
    fun h h15 => ?_⟩⟩
  · have := byte_defined o
    rw [← ho] at hop
    omega
  · exact decode_of_byte hbyte (Bool.eq_false_iff.2 (mt selects_iff.1 h))
  · rw [decode_of_selects (selects_iff.2 h), if_pos h15]
  · rw [decode_of_selects (selects_iff.2 h), if_neg h15]

/-- Settles O5: the step raises `E_ILLEGAL`, which is not fatal, so the core is left idle. -/
theorem illegalWordCompletes : Obligations.IllegalWordCompletes := fun _ _ hb h =>
  ⟨(coreStep_error hb h).trans (raise_eq .illegal _), rfl⟩

/-- Settles O14: each word is run through the decoder. -/
theorem specWordsDecode : Obligations.SpecWordsDecode := by
  unfold Obligations.SpecWordsDecode
  decide

/-! ### The operand bits of a row (R102 to R111) -/

/-- The bits of a word that hold the operands of a row, by its format's picture: R3 and P3; R2 and M; C; I; BL; BS; S; Z. -/
def operandBits : Opcode → Word
  | .fadd | .fsub | .fmul | .padd => 0x00FFF000
  | .fsqr | .fneg | .finv | .fsqrt | .fmov | .gx | .x0 | .x1 | .fmap => 0x00FF0000
  | .feq => 0x000FF000
  | .fldi => 0x00F0FFFF
  | .fldb => 0x00F7F03F
  | .fstb => 0x00F7F000
  | .rsamp => 0x00FF0003
  | .nop | .encode | .decode => 0

/-- No bit of a word is neither fixed by the mask nor part of an operand (R116). -/
theorem mask_or_operandBits (o : Opcode) : o.mask ||| operandBits o = BitVec.allOnes 32 := by
  cases o <;> rfl

theorem matchBits_eq (o : Opcode) : o.matchBits = o.byte.setWidth 32 <<< 24 := by
  cases o <;> rfl

/-- A word of a row is the row's match bits and its operands. -/
theorem eq_of_selects (h : o.selects w = true) : w = o.byte.setWidth 32 <<< 24 ||| (w &&& operandBits o) := by
  rw [← matchBits_eq, ← selects_iff.1 h, ← BitVec.and_or_distrib_left, mask_or_operandBits, BitVec.and_allOnes]

/-- A cut of a word, put back in its place, is the word under a mask. -/
theorem extractLsb'_placed (w : Word) (start len : Nat) :
    (w.extractLsb' start len).setWidth 32 <<< start = w &&& (BitVec.allOnes len).setWidth 32 <<< start := by
  ext k hk
  by_cases h : start ≤ k
  · simp [Nat.not_lt.2 h, Nat.add_sub_cancel' h, BitVec.getLsbD_eq_getElem hk, Bool.and_comm]
  · simp [Nat.lt_of_not_le h]

theorem field1_placed (w : Word) : (field1 w).setWidth 32 <<< 20 = w &&& 0x00F00000 := extractLsb'_placed w 20 4
theorem field2_placed (w : Word) : (field2 w).setWidth 32 <<< 16 = w &&& 0x000F0000 := extractLsb'_placed w 16 4
theorem field3_placed (w : Word) : (field3 w).setWidth 32 <<< 12 = w &&& 0x0000F000 := extractLsb'_placed w 12 4
theorem fieldOff_placed (w : Word) : (fieldOff w).setWidth 32 <<< 12 = w &&& 0x0007F000 := extractLsb'_placed w 12 7
theorem fieldImm_placed (w : Word) : (fieldImm w).setWidth 32 = w &&& 0x0000FFFF := by
  simpa [fieldImm] using extractLsb'_placed w 0 16
theorem fieldLen_placed (w : Word) : (fieldLen w).setWidth 32 = w &&& 0x0000003F := by
  simpa [fieldLen] using extractLsb'_placed w 0 6
theorem fieldJ_placed (w : Word) : (fieldJ w).setWidth 32 = w &&& 0x00000003 := by
  simpa [fieldJ] using extractLsb'_placed w 0 2

/-- Encoding the fields of a word keeps its operand bits and puts the row's opcode byte above them. -/
theorem encode_extract (o : Opcode) (w : Word) :
    encode (o.extract w) = o.byte.setWidth 32 <<< 24 ||| (w &&& operandBits o) := by
  cases o <;>
    simp [encode, Opcode.extract, Instr.opcode, assemble, operandBits, field1_placed, field2_placed, field3_placed,
      fieldOff_placed, fieldImm_placed, fieldLen_placed, fieldJ_placed, BitVec.or_assoc, ← BitVec.and_or_distrib_left]

/-! ### The fields of a legal word are legal (R112) -/

theorem isDst_of_and {r : RegIdx} (h : r &&& 8 = 0) : isDst r = true := by
  revert r; decide

theorem isPoint_of_and {p : PointIdx} (h : p &&& 12 = 0) : isPoint p = true := by
  revert p; decide

theorem isSrc_of_ne {r : RegIdx} (h : r ≠ 15) : isSrc r = true := by
  revert r; decide

/-- The command of a selected row without a source field 15 is well-formed: the masks hold the high bits of destinations
and points. -/
theorem extract_wellFormed (h : o.selects w = true) (h15 : 15 ∉ (o.extract w).sourceFields) :
    (o.extract w).wellFormed = true := by
  have h1 : field1 w &&& field1 o.mask = field1 o.matchBits := extractLsb'_of_selects h 20 4
  have h2 : field2 w &&& field2 o.mask = field2 o.matchBits := extractLsb'_of_selects h 16 4
  have h3 : field3 w &&& field3 o.mask = field3 o.matchBits := extractLsb'_of_selects h 12 4
  have hsrc : ∀ r ∈ (o.extract w).sourceFields, isSrc r = true := fun r hr => isSrc_of_ne fun h => h15 (h ▸ hr)
  cases o with
  | nop | encode | decode => rfl
  | fadd | fsub | fmul | fsqr | fneg | finv | fsqrt | fmov | gx | x0 | x1 =>
    simpa [Opcode.extract, Instr.sourceFields, Instr.wellFormed, isDst_of_and h1] using hsrc
  | feq | fstb => simpa [Opcode.extract, Instr.sourceFields, Instr.wellFormed] using hsrc
  | fldi | fldb => exact isDst_of_and h1
  | padd =>
    simp only [Opcode.extract, Instr.wellFormed, isPoint_of_and h1, isPoint_of_and h2, isPoint_of_and h3, Bool.and_true]
  | fmap => simpa [Opcode.extract, Instr.sourceFields, Instr.wellFormed, isPoint_of_and h1] using hsrc
  | rsamp => simp only [Opcode.extract, Instr.wellFormed, isDst_of_and h1, isPoint_of_and h2, Bool.and_true]

/-- Settles O17: the word is its match bits and its operand bits, and so is the encoding of its fields. -/
theorem encodeDecode : Obligations.EncodeDecode := by
  intro w i h
  obtain ⟨o, hsel, h15, rfl⟩ := decode_eq_ok_iff.1 h
  exact ⟨(encode_extract o w).trans (eq_of_selects hsel).symm, extract_wellFormed hsel h15⟩

/-! ### The fields of an encoded command (R120) -/

/-- Cutting a placed field out of its place gives the field. -/
theorem extractLsb'_shiftLeft_self {n start : Nat} (x : BitVec n) (h : start + n ≤ 32) :
    (x.setWidth 32 <<< start).extractLsb' start n = x := by
  ext k hk
  have : start + k < 32 := by omega
  simp [this, BitVec.getLsbD_eq_getElem hk]

/-- Cutting beside a placed field gives zeros. -/
theorem extractLsb'_shiftLeft_disjoint {m n place start : Nat} (x : BitVec m)
    (h : start + n ≤ place ∨ place + m ≤ start) : (x.setWidth 32 <<< place).extractLsb' start n = 0 := by
  ext k hk
  have hout : start + k < place ∨ m ≤ start + k - place := by omega
  rcases hout with hlt | hge
  · simp [hlt]
  · simp [BitVec.getLsbD_of_ge x _ hge]

theorem extractLsb'_setWidth_self {n : Nat} (x : BitVec n) (h : n ≤ 32) : (x.setWidth 32).extractLsb' 0 n = x := by
  simpa using extractLsb'_shiftLeft_self (start := 0) x (by omega)

theorem extractLsb'_setWidth_disjoint {m n start : Nat} (x : BitVec m) (h : m ≤ start) :
    (x.setWidth 32).extractLsb' start n = 0 := by
  simpa using extractLsb'_shiftLeft_disjoint (place := 0) (n := n) x (.inr (by omega))

/-- The places of a format's fields do not overlap, so its row extracts what the encoder placed (R102 to R111). -/
theorem extract_encode (i : Instr) : i.opcode.extract (encode i) = i := by
  cases i <;>
    simp (disch := omega) [encode, Opcode.extract, Instr.opcode, assemble, field1, field2, field3, fieldOff, fieldImm,
      fieldLen, fieldJ, BitVec.extractLsb'_or, extractLsb'_shiftLeft_self, extractLsb'_shiftLeft_disjoint,
      extractLsb'_setWidth_self, extractLsb'_setWidth_disjoint]

/-- The word of a well-formed command selects its row, with no source field 15. -/
theorem encodeRow : ∀ i : Instr, EncodeRow.Statement i
  | .nop => EncodeRow.nop
  | .fadd rd ra rb => EncodeRow.fadd rd ra rb
  | .fsub rd ra rb => EncodeRow.fsub rd ra rb
  | .fmul rd ra rb => EncodeRow.fmul rd ra rb
  | .fsqr rd ra => EncodeRow.fsqr rd ra
  | .fneg rd ra => EncodeRow.fneg rd ra
  | .finv rd ra => EncodeRow.finv rd ra
  | .fsqrt rd ra => EncodeRow.fsqrt rd ra
  | .feq ra rb => EncodeRow.feq ra rb
  | .fmov rd ra => EncodeRow.fmov rd ra
  | .fldi rd imm => EncodeRow.fldi rd imm
  | .fldb rd off len => EncodeRow.fldb rd off len
  | .fstb ra off => EncodeRow.fstb ra off
  | .padd pd pa pb => EncodeRow.padd pd pa pb
  | .gx rd ra => EncodeRow.gx rd ra
  | .x0 rd ra => EncodeRow.x0 rd ra
  | .x1 rd ra => EncodeRow.x1 rd ra
  | .fmap pd ra => EncodeRow.fmap pd ra
  | .rsamp rd pa j => EncodeRow.rsamp rd pa j
  | .encode => EncodeRow.encode
  | .decode => EncodeRow.decode

/-- Settles O16: the encoding selects the command's row, and that row's fields are the command's. -/
theorem decodeEncode : Obligations.DecodeEncode := by
  intro i hwf
  obtain ⟨hsel, h15⟩ := encodeRow i hwf
  rw [decode_of_selects hsel, extract_encode, if_neg (by simpa using h15)]

end

end Sys2Proof.Laws
end

section
/-! The field arithmetic commands and the functions behind them: sums, products, inverses, square roots and the two fixed
addition chains (R140 to R160). -/
namespace Sys2Proof.Laws
open Sys2Proof Sys2Proof.Machine Sys2Proof.Claims

section
variable {x y c : Fp}

/-! ### The field functions as integers (R140 to R144) -/

theorem mulP_eq_iff (x y c : Fp) : mulP x y = c ↔ x.val * y.val % fieldP = c.val := Fin.ext_iff

theorem sqrP_eq_iff (y x : Fp) : sqrP y = x ↔ y.val * y.val % fieldP = x.val := mulP_eq_iff y y x

theorem eq_toFp_zero_iff (x : Fp) : x = toFp 0 ↔ x.val = 0 := Fin.ext_iff

theorem subP_val (x y : Fp) : (subP x y).val = if y.val ≤ x.val then x.val - y.val else x.val + fieldP - y.val := by
  have hx := x.isLt
  have hy := y.isLt
  rw [subP, toFp_val]
  split
  · next hle => rw [show x.val + fieldP - y.val = x.val - y.val + fieldP by omega, Nat.add_mod_right,
      Nat.mod_eq_of_lt (by omega)]
  · next hlt => exact Nat.mod_eq_of_lt (by omega)

theorem negP_val (x : Fp) : (negP x).val = if x.val = 0 then 0 else fieldP - x.val := by
  have hx := x.isLt
  rw [negP, toFp_val]
  split
  · next h0 => rw [h0, Nat.sub_zero, Nat.mod_self]
  · next h0 => exact Nat.mod_eq_of_lt (by omega)

/-- The inverse is the only value whose product with `x` is 1 (R145). -/
theorem mulP_eq_one_iff (hx : x ≠ toFp 0) : mulP x y = toFp 1 ↔ modP y = (modP x)⁻¹ := by
  have := Fact.mk fieldP_prime
  rw [← modP_inj, modP_mulP, modP_toFp, Nat.cast_one, mul_comm, mul_eq_one_iff_eq_inv₀ (ne_zero_iff.1 hx)]

/-! ### Square roots (R146, R148, R160) -/

/-- `sqrt_p` has the value `c` when `c` is a root of `x` and the power of `x` that R146 names. -/
theorem sqrtP_eq_some_iff (x c : Fp) :
    sqrtP x = some c ↔ sqrP c = x ∧ modP c = modP x ^ ((fieldP + 1) / 4) := by
  have hc : modP c = modP x ^ ((fieldP + 1) / 4) ↔ powP x ((fieldP + 1) / 4) = c := by
    rw [← modP_powP x _ (by decide), modP_inj, eq_comm]
  simp only [hc, sqrtP, Option.ite_none_right_eq_some, Option.some_inj]
  exact and_congr_left fun h => h ▸ Iff.rfl

/-- The candidate of R146 is a root of every square, by Fermat: `y^(P+1) = y^2`. -/
theorem sq_candidate_sq (z : ZMod fieldP) : ((z ^ 2) ^ ((fieldP + 1) / 4)) ^ 2 = z ^ 2 := by
  have := Fact.mk fieldP_prime
  calc ((z ^ 2) ^ ((fieldP + 1) / 4)) ^ 2 = z ^ (fieldP + 1) := by
        rw [← pow_mul, ← pow_mul, show 2 * ((fieldP + 1) / 4 * 2) = fieldP + 1 by decide]
    _ = z ^ 2 := by rw [pow_succ, ZMod.pow_card, sq]

theorem sqrtP_sqrP (y : Fp) : ∃ c, sqrtP (sqrP y) = some c := by
  obtain ⟨c, hc⟩ := modP_surjective (modP (sqrP y) ^ ((fieldP + 1) / 4))
  refine ⟨c, (sqrtP_eq_some_iff _ c).2 ⟨modP_inj.1 ?_, hc⟩⟩
  rw [modP_sqrP, hc, modP_sqrP, sq_candidate_sq]

theorem isSquareP_iff (x : Fp) : isSquareP x = true ↔ ∃ y, sqrP y = x := by
  rw [isSquareP, Option.isSome_iff_exists]
  constructor
  · rintro ⟨c, hc⟩
    exact ⟨c, ((sqrtP_eq_some_iff x c).1 hc).1⟩
  · rintro ⟨y, rfl⟩
    exact sqrtP_sqrP y

theorem sqrtP_eq_none_iff (x : Fp) : sqrtP x = none ↔ ¬ ∃ y, sqrP y = x := by
  rw [← isSquareP_iff, isSquareP, Bool.not_eq_true, Option.isSome_eq_false_iff, Option.isNone_iff_eq_none]

/-- With `k = (P+1)/4` the returned root `c = x^k` of `x = c^2` is the square of `c^k`. -/
theorem isSquareP_of_sqrtP (h : sqrtP x = some c) : isSquareP c = true := by
  obtain ⟨hsq, hpow⟩ := (sqrtP_eq_some_iff x c).1 h
  obtain ⟨w, hw⟩ := modP_surjective (modP c ^ ((fieldP + 1) / 4))
  refine (isSquareP_iff c).2 ⟨w, modP_inj.1 ?_⟩
  rw [modP_sqrP, hw, pow_right_comm, ← modP_sqrP, hsq, hpow]

/-- The negative of a non-zero square is no square, as `P` is 3 modulo 4 (R160). -/
theorem not_isSquareP_negP (h : isSquareP c = true) (h0 : c ≠ toFp 0) : isSquareP (negP c) = false := by
  have := Fact.mk fieldP_prime
  obtain ⟨w, rfl⟩ := (isSquareP_iff c).1 h
  refine Bool.eq_false_iff.2 fun hneg => ?_
  obtain ⟨z, hz⟩ := (isSquareP_iff _).1 hneg
  have hw : modP w ≠ 0 := fun hw => ne_zero_iff.1 h0 (by rw [modP_sqrP, hw, zero_pow (by decide)])
  have hzw : modP z ^ 2 = -modP w ^ 2 := by rw [← modP_sqrP, hz, modP_negP, modP_sqrP]
  exact ZMod.mod_four_ne_three_of_sq_eq_neg_sq' hw hzw (by decide)

/-- The returned root of a non-zero value is not zero. -/
theorem sqrtP_ne_zero (h : sqrtP x = some c) (hx : x ≠ toFp 0) : c ≠ toFp 0 := by
  rintro rfl
  exact hx ((sqrtP_eq_some_iff x _).1 h).1.symm

/-- Settles O24: `sqrt_p` has the values of `sqrtP_eq_some_iff`, and the root is the square, not its negative. -/
theorem squareRoots : Obligations.SquareRoots := by
  intro x
  refine ⟨isSquareP_iff x, fun c h => ?_, (isSquareP_iff _).2 ⟨toFp 0, rfl⟩⟩
  obtain ⟨hsq, hpow⟩ := (sqrtP_eq_some_iff x c).1 h
  refine ⟨hsq, hpow, fun hx => ?_⟩
  have hc := isSquareP_of_sqrtP h
  exact ⟨hc, not_isSquareP_negP hc (sqrtP_ne_zero h ((eq_toFp_zero_iff x).not.2 hx))⟩

/-! ### The addition chains (R149, R150) -/

/-- `y` is the `e`-th power of `x`. -/
def IsPower (x : Fp) (e : Nat) (y : Fp) : Prop := modP y = modP x ^ e

theorem isPower_one (x : Fp) : IsPower x 1 x := (pow_one _).symm

/-- A multiplication of a chain adds the exponents. -/
theorem IsPower.mul {m n e : Nat} (hy : IsPower x m y) (hc : IsPower x n c) (he : m + n = e) :
    IsPower x e (mulP y c) := by
  rw [IsPower, modP_mulP, hy, hc, ← pow_add, he]

/-- `k` squarings of a chain shift the exponent by `k` bits. -/
theorem IsPower.sqrN {m : Nat} (hy : IsPower x m y) (k : Nat) : IsPower x (m * 2 ^ k) (sqrN k y) := by
  rw [IsPower, modP_sqrN, hy, ← pow_mul]

/-- The inversion chain (R149): the exponents are blocks of ones, `2^k - 1`, shifted and joined; `hk` is the
block of `k` ones, the others have the chain's own names. -/
theorem invChain_isPower (x : Fp) : IsPower x (fieldP - 2) (invChain x) := by
  have h1 := isPower_one x
  have h2 : IsPower x (2 ^ 2 - 1) _ := h1.mul (h1.sqrN 1) (by norm_num)
  have h3 : IsPower x (2 ^ 3 - 1) _ := h1.mul (h2.sqrN 1) (by norm_num)
  have h6 : IsPower x (2 ^ 6 - 1) _ := h3.mul (h3.sqrN 3) (by norm_num)
  have h12 : IsPower x (2 ^ 12 - 1) _ := (h6.sqrN 6).mul h6 (by norm_num)
  have h15 : IsPower x (2 ^ 15 - 1) _ := (h12.sqrN 3).mul h3 (by norm_num)
  have h16 : IsPower x (2 ^ 16 - 1) _ := (h15.sqrN 1).mul h1 (by norm_num)
  have h32 : IsPower x (2 ^ 32 - 1) _ := (h16.sqrN 16).mul h16 (by norm_num)
  have i53 := h32.sqrN 15
  have h47 : IsPower x (2 ^ 47 - 1) _ := h15.mul i53 (by norm_num)
  have u1 : IsPower x ((2 ^ 32 - 1) * 2 ^ 32 + 1) _ := (i53.sqrN 17).mul h1 (by norm_num)
  have u2 := (u1.sqrN 143).mul h47 rfl
  have u3 := h47.mul (u2.sqrN 47) rfl
  exact (u3.sqrN 2).mul h1 (by norm_num [fieldP])

/-- The square-root chain (R150): blocks of ones that double, then two single ones shifted in. -/
theorem sqrtChain_isPower (x : Fp) : IsPower x ((fieldP + 1) / 4) (sqrtChain x) := by
  have h1 := isPower_one x
  have h2 : IsPower x (2 ^ 2 - 1) _ := h1.mul (h1.sqrN 1) (by norm_num)
  have h4 : IsPower x (2 ^ 4 - 1) _ := h2.mul (h2.sqrN 2) (by norm_num)
  have h8 : IsPower x (2 ^ 8 - 1) _ := h4.mul (h4.sqrN 4) (by norm_num)
  have h16 : IsPower x (2 ^ 16 - 1) _ := (h8.sqrN 8).mul h8 (by norm_num)
  have h32 : IsPower x (2 ^ 32 - 1) _ := (h16.sqrN 16).mul h16 (by norm_num)
  have v1 : IsPower x ((2 ^ 32 - 1) * 2 ^ 32 + 1) _ := (h32.sqrN 32).mul h1 (by norm_num)
  have v2 := (v1.sqrN 96).mul h1 rfl
  have he : (((2 ^ 32 - 1) * 2 ^ 32 + 1) * 2 ^ 96 + 1) * 2 ^ 94 = (fieldP + 1) / 4 := by decide
  exact he ▸ v2.sqrN 94

/-- Settles O25: the powers read off the two chains. -/
theorem additionChains : Obligations.AdditionChains := fun x => ⟨invChain_isPower x, sqrtChain_isPower x⟩

end

section
variable {s : State} {rd ra rb : RegIdx} {d : Fin 8} {a b : Fp}

/-! ### The commands (R152 to R159) -/

/-- Settles O20: each command writes the value of its field function (R140 to R144) to the destination. -/
theorem fieldArithmeticResults : Obligations.FieldArithmeticResults := by
  intro rd ra rb s d a b hd ha hb
  exact ⟨⟨addP a b, rfl, withR3_ok hd ha hb⟩, ⟨subP a b, subP_val a b, withR3_ok hd ha hb⟩,
    ⟨mulP a b, rfl, withR3_ok hd ha hb⟩, ⟨sqrP a, rfl, withR2_ok hd ha⟩, ⟨negP a, negP_val a, withR2_ok hd ha⟩⟩

theorem exec_finv_zero (hd : dstOf rd = some d) (ha : s.source ra = some a) (h0 : a = toFp 0) :
    exec (.finv rd ra) s = .next (failed .domain s) := by
  rw [exec, execFinv, withR2_ok hd ha, if_pos h0]
  rfl

theorem exec_finv_inverse (hd : dstOf rd = some d) (ha : s.source ra = some a) (h0 : a ≠ toFp 0) :
    ∃ y, modP y = (modP a)⁻¹ ∧ exec (.finv rd ra) s = .next (succeeded { s with regs := s.regs.set d y }) := by
  obtain ⟨y, hy, hinv⟩ := invP_ok h0
  refine ⟨y, hinv, ?_⟩
  rw [exec, execFinv, withR2_ok hd ha, if_neg h0, hy]
  rfl

/-- Settles O21: 0 is refused, and every other source has exactly one inverse (R145). -/
theorem finvResult : Obligations.FinvResult := by
  intro rd ra s d a hd ha
  refine ⟨fun h0 => exec_finv_zero hd ha ((eq_toFp_zero_iff a).2 h0), fun h0 => ?_⟩
  have ha0 : a ≠ toFp 0 := (eq_toFp_zero_iff a).not.2 h0
  obtain ⟨y, hy, hexec⟩ := exec_finv_inverse hd ha ha0
  have hinv (z : Fp) : a.val * z.val % fieldP = 1 ↔ modP z = (modP a)⁻¹ :=
    (mulP_eq_iff a z (toFp 1)).symm.trans (mulP_eq_one_iff ha0)
  exact ⟨y, (hinv y).2 hy, fun z hz => modP_inj.1 (((hinv z).1 hz).trans hy.symm), hexec⟩

theorem exec_fsqrt (hd : dstOf rd = some d) (ha : s.source ra = some a) :
    exec (.fsqrt rd ra) s = finish (s.setNullable d (sqrtP a)) := withR2_ok hd ha

/-- Settles O22: `sqrt_p` of a square is its root (R146), of any other value `⊥`. -/
theorem fsqrtResult : Obligations.FsqrtResult := by
  intro rd ra s d a hd ha
  simp only [← sqrP_eq_iff]
  constructor
  · rintro ⟨y, rfl⟩
    obtain ⟨c, hc⟩ := sqrtP_sqrP y
    obtain ⟨hsq, hpow⟩ := (sqrtP_eq_some_iff _ c).1 hc
    refine ⟨c, hsq, hpow, ?_⟩
    rw [exec_fsqrt hd ha, hc]
    rfl
  · intro h
    rw [exec_fsqrt hd ha, (sqrtP_eq_none_iff a).2 h]
    rfl

theorem exec_feq (ha : s.source ra = some a) (hb : s.source rb = some b) :
    exec (.feq ra rb) s = .next (succeeded { s with flagT := eqP a b }) := withC_ok ha hb

/-- Settles O23: `T` is the comparison of the two integers (R147). -/
theorem feqResult : Obligations.FeqResult := by
  intro ra rb s a b ha hb
  rw [exec_feq ha hb, eqP]
  exact ⟨fun h => by rw [decide_eq_true h], fun h => by rw [decide_eq_false h]⟩

end

end Sys2Proof.Laws
end

section
/-! Byte strings as big-endian integers (R9, R170, R171), and the commands that move field values: `NOP`, `FMOV`, `FLDI`,
`FLDB` and `FSTB` (R172 to R176). -/
namespace Sys2Proof.Laws
open Sys2Proof Sys2Proof.Machine Sys2Proof.Claims

section
variable {bs : List Byte} {x : Fp} {i : Nat}

/-! ### The integer of a byte string (R170) -/

theorem bytesToNat_concat (bs : List Byte) (b : Byte) : bytesToNat (bs ++ [b]) = bytesToNat bs * 256 + b.toNat := by
  simp [bytesToNat]

theorem bytesToNat_zero_cons (bs : List Byte) : bytesToNat (0 :: bs) = bytesToNat bs := rfl

theorem bytesToNat_replicate_zero_append (n : Nat) (bs : List Byte) :
    bytesToNat (List.replicate n 0 ++ bs) = bytesToNat bs := by
  induction n with
  | zero => rfl
  | succ n ih => rw [List.replicate_succ, List.cons_append, bytesToNat_zero_cons, ih]

/-- The positional value, by induction from the last byte: one more byte multiplies every earlier weight by 256. -/
theorem bytesToNat_eq_sum (bs : List Byte) :
    bytesToNat bs = ∑ i ∈ Finset.range bs.length, (bs.getD i 0).toNat * 256 ^ (bs.length - 1 - i) := by
  induction bs using List.reverseRecOn with
  | nil => rfl
  | append_singleton bs b ih =>
    have hlast : ((bs ++ [b]).getD bs.length 0).toNat * 256 ^ (bs.length + 1 - 1 - bs.length) = b.toNat := by simp
    have hinit : ∀ i ∈ Finset.range bs.length,
        ((bs ++ [b]).getD i 0).toNat * 256 ^ (bs.length + 1 - 1 - i) =
          (bs.getD i 0).toNat * 256 ^ (bs.length - 1 - i) * 256 := by
      intro i hi
      have hlt := Finset.mem_range.1 hi
      rw [List.getD_append _ _ _ _ hlt, mul_assoc, ← pow_succ,
        show bs.length - 1 - i + 1 = bs.length + 1 - 1 - i by omega]
    rw [bytesToNat_concat, ih, List.length_append, List.length_singleton, Finset.sum_range_succ, hlast,
      Finset.sum_congr rfl hinit, Finset.sum_mul]

/-! ### The bytes of an integer (R171) -/

/-- The `n` low bytes of `v`, most significant first. -/
def natToBytes (n v : Nat) : List Byte := (List.range n).map fun i => BitVec.ofNat 8 (v / 256 ^ (n - 1 - i))

theorem toBytes_eq_natToBytes (x : Fp) : toBytes x = natToBytes 32 x.val := rfl

theorem natToBytes_succ (n v : Nat) : natToBytes (n + 1) v = natToBytes n (v / 256) ++ [BitVec.ofNat 8 v] := by
  have hinit : ∀ i ∈ List.range n, v / 256 ^ (n + 1 - 1 - i) = v / 256 / 256 ^ (n - 1 - i) := by
    intro i hi
    have hlt := List.mem_range.1 hi
    rw [Nat.div_div_eq_div_mul, ← pow_succ', show n - 1 - i + 1 = n + 1 - 1 - i by omega]
  have hmap := List.map_congr_left fun i hi => congrArg (BitVec.ofNat 8) (hinit i hi)
  rw [natToBytes, List.range_succ, List.map_append, hmap, natToBytes]
  simp

theorem bytesToNat_natToBytes (n v : Nat) : bytesToNat (natToBytes n v) = v % 256 ^ n := by
  induction n generalizing v with
  | zero => rw [pow_zero, Nat.mod_one]; rfl
  | succ n ih =>
    rw [natToBytes_succ, bytesToNat_concat, ih, BitVec.toNat_ofNat, pow_succ' 256, Nat.mod_mul (a := 256)]
    omega

theorem natToBytes_bytesToNat (bs : List Byte) : natToBytes bs.length (bytesToNat bs) = bs := by
  induction bs using List.reverseRecOn with
  | nil => rfl
  | append_singleton bs b ih =>
    have hdiv : (bytesToNat bs * 256 + b.toNat) / 256 = bytesToNat bs := by omega
    have hlow : BitVec.ofNat 8 (bytesToNat bs * 256 + b.toNat) = b :=
      BitVec.eq_of_toNat_eq (by rw [BitVec.toNat_ofNat]; omega)
    rw [List.length_append, List.length_singleton, bytesToNat_concat, natToBytes_succ, hdiv, hlow, ih]

/-! ### Field values and their 32 bytes -/

theorem byteOf_toNat (x : Fp) (i : Nat) : (byteOf x i).toNat = x.val / 256 ^ (31 - i) % 256 := BitVec.toNat_ofNat ..

theorem getD_toBytes (x : Fp) (h : i < 32) : (toBytes x).getD i 0 = byteOf x i := by
  rw [List.getD_eq_getElem _ _ (by rwa [length_toBytes]), getElem_toBytes x i h]

/-- Nothing is cut off: the prime is below `256 ^ 32`. -/
theorem bytesToNat_toBytes (x : Fp) : bytesToNat (toBytes x) = x.val := by
  have hP : fieldP < 256 ^ 32 := by decide
  rw [toBytes_eq_natToBytes, bytesToNat_natToBytes, Nat.mod_eq_of_lt (x.isLt.trans hP)]

theorem fromBytes_val (bs : List Byte) : (fromBytes bs).val = bytesToNat bs % fieldP := rfl

theorem fromBytes_toBytes (x : Fp) : fromBytes (toBytes x) = x := by
  rw [fromBytes, bytesToNat_toBytes, toFp_val_self]

/-- Only a string that denotes a reduced integer is the string of a field value. -/
theorem toBytes_fromBytes_iff (h : bs.length = 32) : toBytes (fromBytes bs) = bs ↔ bytesToNat bs < fieldP := by
  constructor
  · intro heq
    rw [← heq, bytesToNat_toBytes]
    exact (fromBytes bs).isLt
  · intro hlt
    rw [toBytes_eq_natToBytes, fromBytes_val, Nat.mod_eq_of_lt hlt, ← h, natToBytes_bytesToNat]

/-- Settles O29: the bytes of an integer and the integer of the bytes undo each other up to `256 ^ 32`, and reduction
modulo the prime is what is lost. -/
theorem bytesRoundTrip : Obligations.BytesRoundTrip := by
  refine ⟨fun x => ⟨length_toBytes x, fromBytes_toBytes x, fun i hi => ?_⟩, fun bs => ?_,
    fun bs => toBytes_fromBytes_iff, fun n bs => ?_⟩
  · rw [getD_toBytes x hi, byteOf_toNat]
  · rw [fromBytes_val, bytesToNat_eq_sum]
  · rw [fromBytes, bytesToNat_replicate_zero_append, fromBytes]

end

section
variable {s : State} {m : Memory} {rd ra : RegIdx} {d : Fin 8} {a : Fp} {off : BitVec 7} {len : BitVec 6}

/-! ### Byte strings in a buffer (R9) -/

theorem getD_readBytes (m : Memory) (off : Nat) {n i : Nat} (h : i < n) :
    (m.readBytes off n).getD i 0 = m.read (off + i) := by
  rw [List.getD_eq_getElem _ _ (by rwa [length_readBytes])]
  simp [Memory.readBytes]

theorem bytesToNat_readBytes (m : Memory) (off n : Nat) :
    bytesToNat (m.readBytes off n) = ∑ i ∈ Finset.range n, (m.read (off + i)).toNat * 256 ^ (n - 1 - i) := by
  rw [bytesToNat_eq_sum, length_readBytes]
  exact Finset.sum_congr rfl fun i hi => by rw [getD_readBytes m off (Finset.mem_range.1 hi)]

theorem read_writeBytes_toBytes {o i : Nat} (hm : m.wf = true) (ho : o ≤ 33) (hi : i < 32) (x : Fp) :
    (m.writeBytes o (toBytes x)).read (o + i) = byteOf x i := by
  rw [read_writeBytes _ _ _ _ hm (by rw [length_toBytes, bufSize]; omega), length_toBytes, if_pos (by omega),
    Nat.add_sub_cancel_left, getD_toBytes x hi]

theorem read_writeBytes_toBytes_outside {o b : Nat} (hm : m.wf = true) (ho : o ≤ 33) (hb : b < o ∨ o + 32 ≤ b)
    (x : Fp) : (m.writeBytes o (toBytes x)).read b = m.read b := by
  rw [read_writeBytes _ _ _ _ hm (by rw [length_toBytes, bufSize]; omega), length_toBytes, if_neg (by omega)]

/-! ### The commands (R172 to R176) -/

theorem exec_fldb_outOfRange (hd : dstOf rd = some d) (h : 32 < len.toNat ∨ bufSize < off.toNat + len.toNat) :
    exec (.fldb rd off len) s = .next (failed .range s) := by
  rw [exec, execFldb, withDst_ok hd, if_pos h]
  rfl

theorem exec_fldb_inRange (hd : dstOf rd = some d) (hlen : len.toNat ≤ 32) (hoff : off.toNat + len.toNat ≤ bufSize) :
    exec (.fldb rd off len) s =
      .next (succeeded { s with regs := s.regs.set d (fromBytes (s.ibuf.readBytes off.toNat len.toNat)) }) := by
  rw [exec, execFldb, withDst_ok hd, if_neg (by omega)]
  rfl

/-- Settles O27: within the bounds the bytes are read and reduced (R170), past them nothing is. -/
theorem fldbResult : Obligations.FldbResult := by
  intro rd off len s d hd
  refine ⟨exec_fldb_outOfRange hd, fun hlen hoff => ⟨_, ?_, exec_fldb_inRange hd hlen hoff⟩⟩
  rw [fromBytes_val, bytesToNat_readBytes]

theorem exec_fstb_outOfRange (ha : s.source ra = some a) (h : 33 < off.toNat) :
    exec (.fstb ra off) s = .next (failed .range s) := by
  rw [exec, execFstb, withSrc_ok ha, if_pos h]
  rfl

theorem exec_fstb_inRange (ha : s.source ra = some a) (h : off.toNat ≤ 33) :
    exec (.fstb ra off) s = .next (succeeded { s with obuf := s.obuf.writeBytes off.toNat (toBytes a) }) := by
  rw [exec, execFstb, withSrc_ok ha, if_neg (by omega)]
  rfl

/-- Settles O28: the 32 bytes of the source (R171) stand at the offset, and every other byte stays. -/
theorem fstbResult : Obligations.FstbResult := by
  intro ra off s a ha hwf
  refine ⟨exec_fstb_outOfRange ha, fun hoff => ⟨_, ?_, fun i hi => ?_, fun b hb => ?_, exec_fstb_inRange ha hoff⟩⟩
  · exact writeBytes_wf _ _ _ hwf (by rw [length_toBytes, bufSize]; omega)
  · rw [read_writeBytes_toBytes hwf hoff hi, byteOf_toNat]
  · exact read_writeBytes_toBytes_outside hwf hoff hb a

/-- A 16-bit immediate is below the prime, so it is loaded unreduced (R174). -/
theorem toFp_imm_val (imm : BitVec 16) : (toFp imm.toNat).val = imm.toNat := by
  have hP : 2 ^ 16 < fieldP := by decide
  exact Nat.mod_eq_of_lt (imm.isLt.trans hP)

/-- Settles O26: the moves write the operand they name, and `NOP` writes nothing. -/
theorem moveResults : Obligations.MoveResults := by
  intro rd ra imm s d a hd ha
  exact ⟨rfl, withR2_ok hd ha, toFp imm.toNat, toFp_imm_val imm, withDst_ok hd⟩

end

end Sys2Proof.Laws
end

section
/-! The sum of two valid points case by case (R191), and the group of the curve that it is the sum of (R192). -/
namespace Sys2Proof.Laws
open Sys2Proof.Machine

/-! ### The cases of `AffineAdd` (R191) -/

/-- What `AffineAdd` can answer. The chord and the tangent are one case: the line of slope `lam` through two points of the
curve, whose second equation is the first one times `y1 + y2`, divided by `x2 - x1` on the curve. -/
inductive IsSum : Point → Point → Point → Prop where
  | infinityLeft (q : Point) : IsSum infinity q q
  | infinityRight (p : Point) : IsSum p infinity p
  | opposite {p q : Point} (hp : p ≠ infinity) (hq : q ≠ infinity) (hx : modP p.x = modP q.x)
      (hy : modP p.y = -modP q.y) : IsSum p q infinity
  | line {p q : Point} {lam : Fp} (hp : p ≠ infinity) (hq : q ≠ infinity)
      (hne : ¬ (modP p.x = modP q.x ∧ modP p.y = -modP q.y))
      (hslope : modP lam * (modP q.x - modP p.x) = modP q.y - modP p.y)
      (hcubic : modP lam * (modP p.y + modP q.y) =
        modP p.x ^ 2 + modP p.x * modP q.x + modP q.x ^ 2 - 3) : IsSum p q (chordPoint lam p q)

section
variable {K : Type} [Field K] {b x1 y1 x2 y2 lam : K}

/-- Two points of the curve with the same `x` are equal or opposite. -/
theorem y_eq_or_eq_neg (h1 : y1 ^ 2 = x1 ^ 3 - 3 * x1 + b) (h2 : y2 ^ 2 = x2 ^ 3 - 3 * x2 + b) (hx : x1 = x2) :
    y1 = y2 ∨ y1 = -y2 :=
  sq_eq_sq_iff_eq_or_eq_neg.1 (by rw [h1, h2, hx])

/-- A chord of the curve, with `x2 - x1` cancelled in the difference of the two curve equations. -/
theorem chord_cubic (h1 : y1 ^ 2 = x1 ^ 3 - 3 * x1 + b) (h2 : y2 ^ 2 = x2 ^ 3 - 3 * x2 + b) (hx : x1 ≠ x2)
    (hl : lam * (x2 - x1) = y2 - y1) : lam * (y1 + y2) = x1 ^ 2 + x1 * x2 + x2 ^ 2 - 3 := by
  refine mul_left_cancel₀ (sub_ne_zero.2 hx.symm) ?_
  linear_combination (y1 + y2) * hl + h2 - h1

end

theorem mul_invP {x y : Fp} (h : invP x = .ok y) : modP x * modP y = 1 := by
  have := Fact.mk fieldP_prime
  obtain ⟨h0, hinv⟩ := invP_eq_ok h
  rw [hinv, mul_inv_cancel₀ h0]

/-- A value of `AffineAdd` comes from one of its cases. -/
theorem isSum_of_affineAdd {p q r : Point} (h : affineAdd p q = .ok r) : IsSum p q r := by
  have := Fact.mk fieldP_prime
  rw [affineAdd] at h
  split_ifs at h with hv hp hq hopp hx
  all_goals simp only [Bool.not_eq_true', Bool.not_eq_false, Bool.and_eq_true] at hv
  · obtain rfl := Except.ok.inj h
    exact hp ▸ .infinityLeft _
  · obtain rfl := Except.ok.inj h
    exact hq ▸ .infinityRight _
  · obtain rfl := Except.ok.inj h
    exact .opposite hp hq (by rw [hopp.1]) (by rw [hopp.2, modP_negP])
  all_goals
    have h1 := valid_onCurve hv.1 hp
    have h2 := valid_onCurve hv.2 hq
    have hne : ¬ (modP p.x = modP q.x ∧ modP p.y = -modP q.y) := by rwa [← modP_negP, modP_inj, modP_inj]
    obtain ⟨i, hi, ht⟩ := withValue_eq_ok h
    obtain rfl := Except.ok.inj ht
    have hinv := mul_invP hi
  · have hx' : modP p.x = modP q.x := by rw [hx]
    have hy : modP p.y = modP q.y := (y_eq_or_eq_neg h1 h2 hx').resolve_right fun hy => hne ⟨hx', hy⟩
    refine .line hp hq hne (by rw [← hx', ← hy]; ring) ?_
    simp only [modP_mulP, modP_addP, modP_sqrP, modP_toFp, modP_curveA, ← hx', ← hy] at hinv ⊢
    push_cast at hinv ⊢
    linear_combination (3 * modP p.x ^ 2 - 3) * hinv
  · have hx' : modP p.x ≠ modP q.x := modP_injective.ne hx
    have hslope : modP (mulP (subP q.y p.y) i) * (modP q.x - modP p.x) = modP q.y - modP p.y := by
      rw [modP_subP] at hinv
      rw [modP_mulP, modP_subP]
      linear_combination (modP q.y - modP p.y) * hinv
    exact .line hp hq hne hslope (chord_cubic h1 h2 hx' hslope)

/-! ### The group of the curve (R192) -/

/-- The curve of R190 as Mathlib's Weierstrass curve. -/
def curve : WeierstrassCurve.Affine (ZMod fieldP) := ⟨0, 0, 0, -3, modP curveB⟩

theorem curve_equation_iff (x y : ZMod fieldP) : curve.Equation x y ↔ y ^ 2 = x ^ 3 - 3 * x + modP curveB := by
  rw [WeierstrassCurve.Affine.equation_iff]
  simp only [curve]
  ring_nf

theorem curve_negY (x y : ZMod fieldP) : curve.negY x y = -y := by
  simp [WeierstrassCurve.Affine.negY, curve]

theorem curve_addX (x1 x2 lam : ZMod fieldP) : curve.addX x1 x2 lam = lam ^ 2 - x1 - x2 := by
  simp [WeierstrassCurve.Affine.addX, curve]

theorem curve_addY (x1 x2 y1 lam : ZMod fieldP) :
    curve.addY x1 x2 y1 lam = lam * (x1 - (lam ^ 2 - x1 - x2)) - y1 := by
  rw [WeierstrassCurve.Affine.addY, WeierstrassCurve.Affine.negAddY, curve_negY, curve_addX]
  ring

/-- A valid point other than infinity is a non-singular point: it has `y ≠ 0`. -/
theorem nonsingular_of_valid {p : Point} (h : p.valid = true) (h0 : p ≠ infinity) :
    curve.Nonsingular (modP p.x) (modP p.y) := by
  have := Fact.mk fieldP_prime
  refine (WeierstrassCurve.Affine.nonsingular_iff' ..).2 ⟨(curve_equation_iff _ _).2 (valid_onCurve h h0), .inr ?_⟩
  simpa [curve] using And.intro two_ne_zero (valid_y_ne_zero h h0)

/-- The element of the group that a valid point stands for, `(0, 0)` for its zero (R23, R191). -/
def groupPoint (p : Point) : curve.Point :=
  if h : p.valid = true ∧ p ≠ infinity then .some _ _ (nonsingular_of_valid h.1 h.2) else 0

@[simp] theorem groupPoint_infinity : groupPoint infinity = 0 := dif_neg (by simp)

theorem groupPoint_of_valid {p : Point} (h : p.valid = true) (h0 : p ≠ infinity) :
    groupPoint p = .some _ _ (nonsingular_of_valid h h0) := dif_pos ⟨h, h0⟩

/-- The curve has no point at `(0, 0)` (R190). -/
theorem ne_infinity_of_nonsingular {p : Point} (h : curve.Nonsingular (modP p.x) (modP p.y)) : p ≠ infinity := by
  rintro rfl
  have hb := (curve_equation_iff _ _).1 h.1
  refine (ne_zero_iff.1 curveB_ne_zero) ?_
  simpa [infinity] using hb.symm

/-- A point with the coordinates of a group element stands for it. -/
theorem groupPoint_eq_some {p : Point} {x y : ZMod fieldP} (h : curve.Nonsingular x y) (hx : modP p.x = x)
    (hy : modP p.y = y) : groupPoint p = .some x y h := by
  subst hx hy
  exact groupPoint_of_valid (valid_of_onCurve ((curve_equation_iff _ _).1 h.1)) (ne_infinity_of_nonsingular h)

theorem groupPoint_injective {p q : Point} (hp : p.valid = true) (hq : q.valid = true)
    (h : groupPoint p = groupPoint q) : p = q := by
  by_cases hp0 : p = infinity <;> by_cases hq0 : q = infinity
  · rw [hp0, hq0]
  · rw [hp0, groupPoint_infinity, groupPoint_of_valid hq hq0] at h
    exact absurd h.symm (WeierstrassCurve.Affine.Point.some_ne_zero _)
  · rw [hq0, groupPoint_infinity, groupPoint_of_valid hp hp0] at h
    exact absurd h (WeierstrassCurve.Affine.Point.some_ne_zero _)
  · rw [groupPoint_of_valid hp hp0, groupPoint_of_valid hq hq0, WeierstrassCurve.Affine.Point.some.injEq] at h
    obtain ⟨hx, hy⟩ := h
    cases p
    cases q
    rw [Point.mk.injEq]
    exact ⟨modP_injective hx, modP_injective hy⟩

theorem groupPoint_neg {p : Point} (hp : p.valid = true) : groupPoint p.neg = -groupPoint p := by
  by_cases hp0 : p = infinity
  · subst hp0
    rw [show infinity.neg = infinity by decide, groupPoint_infinity, WeierstrassCurve.Affine.Point.neg_zero]
  · rw [groupPoint_of_valid hp hp0, WeierstrassCurve.Affine.Point.neg_some]
    exact groupPoint_eq_some _ rfl (by rw [curve_negY, Point.neg, modP_negP])

theorem curve_slope_eq [Fact fieldP.Prime] {x1 y1 x2 y2 lam : ZMod fieldP} (hne : ¬ (x1 = x2 ∧ y1 = -y2))
    (hslope : lam * (x2 - x1) = y2 - y1) (hcubic : lam * (y1 + y2) = x1 ^ 2 + x1 * x2 + x2 ^ 2 - 3) :
    curve.slope x1 x2 y1 y2 = lam := by
  by_cases hx : x1 = x2
  · subst hx
    obtain rfl : y2 = y1 := by linear_combination -hslope
    have hy : y2 ≠ -y2 := fun hy => hne ⟨rfl, hy⟩
    rw [WeierstrassCurve.Affine.slope_of_Y_ne rfl (by rwa [curve_negY]), curve_negY,
      div_eq_iff (sub_ne_zero.2 hy)]
    simp only [curve]
    linear_combination -hcubic
  · rw [WeierstrassCurve.Affine.slope_of_X_ne hx, div_eq_iff (sub_ne_zero.2 hx)]
    linear_combination hslope

/-- `AffineAdd` is the sum of the group. -/
theorem groupPoint_affineAdd [Fact fieldP.Prime] {p q r : Point} (hp : p.valid = true) (hq : q.valid = true)
    (h : affineAdd p q = .ok r) : groupPoint r = groupPoint p + groupPoint q := by
  cases isSum_of_affineAdd h with
  | infinityLeft => rw [groupPoint_infinity, zero_add]
  | infinityRight => rw [groupPoint_infinity, add_zero]
  | opposite hp0 hq0 hx hy =>
    rw [groupPoint_infinity, groupPoint_of_valid hp hp0, groupPoint_of_valid hq hq0,
      WeierstrassCurve.Affine.Point.add_of_Y_eq hx (by rw [curve_negY, hy])]
  | line hp0 hq0 hne hslope hcubic =>
    rw [groupPoint_of_valid hp hp0, groupPoint_of_valid hq hq0,
      WeierstrassCurve.Affine.Point.add_some (by rwa [curve_negY])]
    refine groupPoint_eq_some _ ?_ ?_
    · rw [curve_addX, curve_slope_eq hne hslope hcubic]
      simp [chordPoint]
    · rw [curve_addY, curve_slope_eq hne hslope hcubic]
      simp [chordPoint]

/-- On valid points `AffineAdd` answers the one valid point that stands for the sum of the group. -/
theorem affineAdd_eq_ok_iff [Fact fieldP.Prime] {p q r : Point} (hp : p.valid = true) (hq : q.valid = true) :
    affineAdd p q = .ok r ↔ r.valid = true ∧ groupPoint r = groupPoint p + groupPoint q := by
  refine ⟨fun h => ⟨affineAdd_valid h, groupPoint_affineAdd hp hq h⟩, fun ⟨hr, h⟩ => ?_⟩
  obtain ⟨t, ht⟩ := affineAdd_ok hp hq
  rw [ht, groupPoint_injective (affineAdd_valid ht) hr ((groupPoint_affineAdd hp hq ht).trans h.symm)]

/-- Settles O35: valid points with `AffineAdd` inherit the laws of the group of the curve. -/
theorem affineAddLaws : Obligations.AffineAddLaws := by
  have := Fact.mk fieldP_prime
  intro p q hp hq
  have hpn := neg_valid hp
  obtain ⟨r, hr⟩ := affineAdd_ok hp hq
  refine ⟨⟨r, hr, affineAdd_valid hr⟩, ?_, ?_, hpn, ?_, by decide, ?_⟩
  · rw [affineAdd_eq_ok_iff hp infinity_valid, groupPoint_infinity, add_zero]
    exact ⟨hp, rfl⟩
  · rw [affineAdd_eq_ok_iff infinity_valid hp, groupPoint_infinity, zero_add]
    exact ⟨hp, rfl⟩
  · rw [affineAdd_eq_ok_iff hp hpn, groupPoint_neg hp, groupPoint_infinity, add_neg_cancel]
    exact ⟨infinity_valid, rfl⟩
  · rw [hr, eq_comm, affineAdd_eq_ok_iff hq hp, add_comm]
    exact (affineAdd_eq_ok_iff hp hq).1 hr

/-- Settles O36: associativity of the group of the curve. -/
theorem affineAddAssociative : Obligations.AffineAddAssociative := by
  have := Fact.mk fieldP_prime
  intro p q r pq qr hp hq hr hpq hqr
  obtain ⟨hpqv, hpqg⟩ := (affineAdd_eq_ok_iff hp hq).1 hpq
  obtain ⟨hqrv, hqrg⟩ := (affineAdd_eq_ok_iff hq hr).1 hqr
  obtain ⟨t, ht⟩ := affineAdd_ok hpqv hr
  rw [ht, eq_comm, affineAdd_eq_ok_iff hp hqrv, hqrg, ← add_assoc, ← hpqg]
  exact (affineAdd_eq_ok_iff hpqv hr).1 ht

end Sys2Proof.Laws
end

section
/-! The complete formulas of the point adder compute `AffineAdd` (R193 to R196), and `PADD` writes its value (R197). -/
namespace Sys2Proof.Laws
open Sys2Proof Sys2Proof.Machine Sys2Proof.Claims

/-! ### The complete formulas (R194) -/

section
variable {K : Type} [CommRing K]

/-- The three coordinates that the 43 steps leave, as polynomials in their inputs. -/
def completeX (b X1 Y1 Z1 X2 Y2 Z2 : K) : K :=
  (X1 * Y2 + X2 * Y1) * (Y1 * Y2 + 3 * (X1 * Z2 + X2 * Z1 - b * (Z1 * Z2))) -
    3 * (Y1 * Z2 + Y2 * Z1) * (b * (X1 * Z2 + X2 * Z1) - 3 * (Z1 * Z2) - X1 * X2)

def completeY (b X1 Y1 Z1 X2 Y2 Z2 : K) : K :=
  (Y1 * Y2 + 3 * (X1 * Z2 + X2 * Z1 - b * (Z1 * Z2))) * (Y1 * Y2 - 3 * (X1 * Z2 + X2 * Z1 - b * (Z1 * Z2))) +
    9 * (X1 * X2 - Z1 * Z2) * (b * (X1 * Z2 + X2 * Z1) - 3 * (Z1 * Z2) - X1 * X2)

def completeZ (b X1 Y1 Z1 X2 Y2 Z2 : K) : K :=
  (Y1 * Z2 + Y2 * Z1) * (Y1 * Y2 - 3 * (X1 * Z2 + X2 * Z1 - b * (Z1 * Z2))) +
    3 * (X1 * Y2 + X2 * Y1) * (X1 * X2 - Z1 * Z2)

variable {b x y z x1 y1 x2 y2 lam : K}

/-- On a line of slope `lam` the formulas give the chord point, scaled by the third coordinate. With `b` and `y2`
eliminated, the difference of the two sides is a multiple of the line's cubic relation. -/
theorem completeX_line (h1 : y1 ^ 2 = x1 ^ 3 - 3 * x1 + b) (hslope : lam * (x2 - x1) = y2 - y1)
    (hcubic : lam * (y1 + y2) = x1 ^ 2 + x1 * x2 + x2 ^ 2 - 3) :
    completeX b x1 y1 1 x2 y2 1 = completeZ b x1 y1 1 x2 y2 1 * (lam ^ 2 - x1 - x2) := by
  obtain rfl : b = y1 ^ 2 - x1 ^ 3 + 3 * x1 := by linear_combination -h1
  obtain rfl : y2 = lam * (x2 - x1) + y1 := by linear_combination -hslope
  rw [completeX, completeZ]
  linear_combination (6 * y1 - 3 * x1 * (x1 + x2) * y1 - 4 * lam * y1 ^ 2 +
    (3 * lam - 3 * lam * x1 ^ 2 - lam ^ 2 * y1) * (x2 - x1)) * hcubic

theorem completeY_line (h1 : y1 ^ 2 = x1 ^ 3 - 3 * x1 + b) (hslope : lam * (x2 - x1) = y2 - y1)
    (hcubic : lam * (y1 + y2) = x1 ^ 2 + x1 * x2 + x2 ^ 2 - 3) :
    completeY b x1 y1 1 x2 y2 1 =
      completeZ b x1 y1 1 x2 y2 1 * (lam * (x1 - (lam ^ 2 - x1 - x2)) - y1) := by
  have hX := completeX_line h1 hslope hcubic
  obtain rfl : b = y1 ^ 2 - x1 ^ 3 + 3 * x1 := by linear_combination -h1
  obtain rfl : y2 = lam * (x2 - x1) + y1 := by linear_combination -hslope
  rw [completeX, completeZ] at hX
  rw [completeY, completeZ]
  linear_combination -lam * hX + (9 * (x1 ^ 2 - 1) ^ 2 - 12 * x1 * y1 ^ 2) * hcubic

/-- On the curve the third coordinate is `(x2 - x1) ^ 3` times the `y` of the difference of the two points. -/
theorem completeZ_eq (h1 : y1 ^ 2 = x1 ^ 3 - 3 * x1 + b) (h2 : y2 ^ 2 = x2 ^ 3 - 3 * x2 + b) :
    completeZ b x1 y1 1 x2 y2 1 =
      (y1 + y2) ^ 3 - (y1 + y2) * (2 * x1 + x2) * (x2 - x1) ^ 2 - y1 * (x2 - x1) ^ 3 := by
  rw [completeZ]
  linear_combination -(y1 + 2 * y2) * h1 - (2 * y1 + y2) * h2

theorem completeZ_opposite (h1 : y1 ^ 2 = x1 ^ 3 - 3 * x1 + b) (h2 : y2 ^ 2 = x2 ^ 3 - 3 * x2 + b)
    (hx : x1 = x2) (hy : y1 = -y2) : completeZ b x1 y1 1 x2 y2 1 = 0 := by
  rw [completeZ_eq h1 h2, hx, hy]
  ring

/-- `(0, 1, 0)` is neutral on the left: the other triple comes out, scaled by its `Y` (R193). -/
theorem completeX_neutral : completeX b 0 1 0 x y z = y * x := by
  rw [completeX]
  ring

theorem completeY_neutral : completeY b 0 1 0 x y z = y * y := by
  rw [completeY]
  ring

theorem completeZ_neutral : completeZ b 0 1 0 x y z = y * z := by
  rw [completeZ]
  ring

end

/-- Where no point of the curve has `y = 0` the formulas are complete: the third coordinate is 0 for opposite points only,
since otherwise the difference of the two points would have `y = 0`. -/
theorem completeZ_ne_zero {K : Type} [Field K] {b x1 y1 x2 y2 : K} (hroot : ∀ x : K, x ^ 3 - 3 * x + b ≠ 0)
    (h1 : y1 ^ 2 = x1 ^ 3 - 3 * x1 + b) (h2 : y2 ^ 2 = x2 ^ 3 - 3 * x2 + b) (hne : ¬ (x1 = x2 ∧ y1 = -y2)) : completeZ b x1 y1 1 x2 y2 1 ≠ 0 := by
  rw [completeZ_eq h1 h2]
  by_cases hx : x1 = x2
  · have hsum : y1 + y2 ≠ 0 := fun hs => hne ⟨hx, eq_neg_of_add_eq_zero_left hs⟩
    simpa [hx] using hsum
  · intro hz
    have hd : x2 - x1 ≠ 0 := sub_ne_zero.2 (Ne.symm hx)
    obtain ⟨l, hl⟩ : ∃ l, l * (x2 - x1) = -y2 - y1 := ⟨_, div_mul_cancel₀ _ hd⟩
    have hdiff := chord_onCurve hx h1 (by rwa [neg_sq]) hl
    refine hroot _ (hdiff.symm.trans (sq_eq_zero_iff.2 ?_))
    refine mul_left_cancel₀ (pow_ne_zero 3 hd) ?_
    linear_combination hz + ((x2 - x1) ^ 2 * (2 * x1 + x2) -
      ((l * (x2 - x1)) ^ 2 - l * (x2 - x1) * (y1 + y2) + (y1 + y2) ^ 2)) * hl

/-! ### The datapath (R193 to R196) -/

theorem modP_zero : modP (toFp 0) = 0 := by rw [modP_toFp, Nat.cast_zero]

theorem modP_one : modP (toFp 1) = 1 := by rw [modP_toFp, Nat.cast_one]

/-- The 43 steps compute the polynomials (R194). -/
theorem modP_projAdd_X (p q : Proj) : modP (projAdd p q).X =
    completeX (modP curveB) (modP p.X) (modP p.Y) (modP p.Z) (modP q.X) (modP q.Y) (modP q.Z) := by
  simp only [projAdd, completeX, modP_addP, modP_subP, modP_mulP]
  ring

theorem modP_projAdd_Y (p q : Proj) : modP (projAdd p q).Y =
    completeY (modP curveB) (modP p.X) (modP p.Y) (modP p.Z) (modP q.X) (modP q.Y) (modP q.Z) := by
  simp only [projAdd, completeY, modP_addP, modP_subP, modP_mulP]
  ring

theorem modP_projAdd_Z (p q : Proj) : modP (projAdd p q).Z =
    completeZ (modP curveB) (modP p.X) (modP p.Y) (modP p.Z) (modP q.X) (modP q.Y) (modP q.Z) := by
  simp only [projAdd, completeZ, modP_addP, modP_subP, modP_mulP]
  ring

theorem projAdd_comm (p q : Proj) : projAdd p q = projAdd q p := by
  have hX : (projAdd p q).X = (projAdd q p).X := modP_injective <| by
    rw [modP_projAdd_X, modP_projAdd_X, completeX, completeX]
    ring
  have hY : (projAdd p q).Y = (projAdd q p).Y := modP_injective <| by
    rw [modP_projAdd_Y, modP_projAdd_Y, completeY, completeY]
    ring
  have hZ : (projAdd p q).Z = (projAdd q p).Z := modP_injective <| by
    rw [modP_projAdd_Z, modP_projAdd_Z, completeZ, completeZ]
    ring
  exact Proj.mk.injEq .. ▸ ⟨hX, hY, hZ⟩

theorem lift_infinity : lift infinity = ⟨toFp 0, toFp 1, toFp 0⟩ := if_pos rfl

theorem lift_of_ne {p : Point} (h : p ≠ infinity) : lift p = ⟨p.x, p.y, toFp 1⟩ := if_neg h

/-- Recovery of a triple with `Z = 0` (R355). -/
theorem recover_infinity {t : Proj} (hz : modP t.Z = 0) : recover t = .ok infinity :=
  if_pos (not_ne_iff.1 fun h => ne_zero_iff.1 h hz)

/-- Recovery of a triple that is a point scaled by `Z` (R195). -/
theorem recover_eq_ok {t : Proj} {r : Point} (hz : modP t.Z ≠ 0) (hx : modP t.X = modP t.Z * modP r.x)
    (hy : modP t.Y = modP t.Z * modP r.y) : recover t = .ok r := by
  obtain ⟨i, hi, -⟩ := invP_ok (ne_zero_iff.2 hz)
  have hinv := mul_invP hi
  have hX : mulP t.X i = r.x := modP_injective (by rw [modP_mulP, hx]; linear_combination modP r.x * hinv)
  have hY : mulP t.Y i = r.y := modP_injective (by rw [modP_mulP, hy]; linear_combination modP r.y * hinv)
  rw [recover, if_neg (ne_zero_iff.2 hz), hi, withValue_ok, hX, hY]

theorem hardwareAdd_comm (p q : Point) : hardwareAdd p q = hardwareAdd q p := by
  rw [hardwareAdd, projAdd_comm, hardwareAdd]

/-- The neutral triple `(0, 1, 0)` on the left: the complete formulas scale the other point by its `y`, which is not 0. -/
theorem hardwareAdd_infinity_left {q : Point} (hq : q.valid = true) : hardwareAdd infinity q = .ok q := by
  rw [hardwareAdd, lift_infinity]
  by_cases hq0 : q = infinity
  · subst hq0
    refine recover_infinity ?_
    rw [modP_projAdd_Z, lift_infinity, modP_zero, modP_one, completeZ_neutral, mul_zero]
  · rw [lift_of_ne hq0]
    refine recover_eq_ok ?_ ?_ ?_
    all_goals simp only [modP_projAdd_X, modP_projAdd_Y, modP_projAdd_Z, modP_zero, modP_one, completeX_neutral,
      completeY_neutral, completeZ_neutral, mul_one]
    exact valid_y_ne_zero hq hq0

/-- `g` has no root, over the whole field. -/
theorem cubic_ne_zero (x : ZMod fieldP) : x ^ 3 - 3 * x + modP curveB ≠ 0 := by
  obtain ⟨x, rfl⟩ := modP_surjective x
  rw [← modP_curveG]
  exact curveG_ne_zero x

/-- Settles O37: in each case of `AffineAdd` the complete formulas give its value, scaled by a third coordinate that is 0
exactly when the sum is infinity. -/
theorem hardwareAddIsAffineAdd : Obligations.HardwareAddIsAffineAdd := by
  have := Fact.mk fieldP_prime
  intro p q hp hq
  obtain ⟨r, hr⟩ := affineAdd_ok hp hq
  rw [hr]
  cases isSum_of_affineAdd hr with
  | infinityLeft => exact hardwareAdd_infinity_left hq
  | infinityRight => rw [hardwareAdd_comm, hardwareAdd_infinity_left hp]
  | opposite hp0 hq0 hx hy =>
    rw [hardwareAdd, lift_of_ne hp0, lift_of_ne hq0]
    refine recover_infinity ?_
    rw [modP_projAdd_Z, modP_one, completeZ_opposite (valid_onCurve hp hp0) (valid_onCurve hq hq0) hx hy]
  | line hp0 hq0 hne hslope hcubic =>
    have hcurve := valid_onCurve hp hp0
    rw [hardwareAdd, lift_of_ne hp0, lift_of_ne hq0]
    refine recover_eq_ok ?_ ?_ ?_
    · rw [modP_projAdd_Z, modP_one]
      exact completeZ_ne_zero cubic_ne_zero hcurve (valid_onCurve hq hq0) hne
    · rw [modP_projAdd_X, modP_projAdd_Z, modP_one, completeX_line hcurve hslope hcubic]
      simp [chordPoint]
    · rw [modP_projAdd_Y, modP_projAdd_Z, modP_one, completeY_line hcurve hslope hcubic]
      simp [chordPoint]

/-! ### `PADD` (R197) -/

section
variable {s : State} {pd pa pb : PointIdx} {d a b : Fin 4}

theorem exec_padd_domain (hd : pointOf pd = some d) (ha : pointOf pa = some a) (hb : pointOf pb = some b)
    (h : (s.point a).valid = false ∨ (s.point b).valid = false) :
    exec (.padd pd pa pb) s = .next (failed .domain s) := by
  have hv : (!((s.point a).valid && (s.point b).valid)) = true := by
    rcases h with h | h <;> simp [h]
  rw [exec, execPadd, withP3_ok hd ha hb, if_pos hv]
  rfl

theorem exec_padd_sum (hd : pointOf pd = some d) (ha : pointOf pa = some a) (hb : pointOf pb = some b)
    (hav : (s.point a).valid = true) (hbv : (s.point b).valid = true) {r : Point}
    (hr : affineAdd (s.point a) (s.point b) = .ok r) :
    exec (.padd pd pa pb) s = finish (s.setPointResult d r) := by
  rw [exec, execPadd, withP3_ok hd ha hb, if_neg (by simp [hav, hbv]), hr, orFault_ok]

end

/-- Settles O30: the domain check is validity of both sources, and on valid sources the sum exists and is valid. -/
theorem paddResult : Obligations.PaddResult := by
  intro pd pa pb s d a b hd ha hb
  refine ⟨exec_padd_domain hd ha hb, fun hav hbv => ?_⟩
  obtain ⟨r, hr⟩ := affineAdd_ok hav hbv
  exact ⟨r, hr, affineAdd_valid hr, exec_padd_sum hd ha hb hav hbv hr⟩

end Sys2Proof.Laws
end

section
/-! The forward map `f` and its helpers (R210 to R215): off the singular values `g(X1(u)) = -(u^3)^2 g(X0(u))`, so exactly
one of `g(X0(u))`, `g(X1(u))` is a square and `f` always has a value (R214). -/
namespace Sys2Proof.Laws
open Sys2Proof.Machine

section
variable {u x x' s : Fp}

/-! ### `X0` and `X1` (R211, R212) -/

theorem modP_mapDenominator (u : Fp) : modP (mapDenominator u) = modP u ^ 4 - modP u ^ 2 := by
  rw [mapDenominator, modP_subP, modP_sqrP, modP_sqrP, ← pow_mul]

/-- `X0(u)` is the solution of R211's equation with the denominators cleared. -/
theorem x0P_equation (h : singular u = false) (hx : x0P u = .ok x) :
    3 * modP x * (modP u ^ 4 - modP u ^ 2) = modP curveB * (modP u ^ 4 - modP u ^ 2 + 1) := by
  have := Fact.mk fieldP_prime
  obtain ⟨z, hz, hval⟩ := x0P_ok h
  obtain rfl : x = z := Except.ok.inj (hx.symm.trans hz)
  have ha : (-3 : ZMod fieldP) * (-3)⁻¹ = 1 := mul_inv_cancel₀ (modP_curveA ▸ ne_zero_iff.1 curveA_ne_zero)
  have ht := mul_inv_cancel₀ (mapDenominator_ne_zero h)
  rw [modP_curveA] at hval
  rw [← modP_mapDenominator, hval]
  linear_combination modP curveB * (modP (mapDenominator u) + 1) * ha - 3 * modP curveB * (-3)⁻¹ * ht

theorem singular_ne_zero (h : singular u = false) : modP u ≠ 0 := fun h0 => by
  simp [(singular_iff u).2 (.inl h0)] at h

/-- The identity behind the map: `g(-u^2 x) = -(u^3)^2 g(x)` for the `x` of R211. -/
theorem cubic_second {K : Type} [CommRing K] {b u x : K} (hx : 3 * x * (u ^ 4 - u ^ 2) = b * (u ^ 4 - u ^ 2 + 1)) :
    (-u ^ 2 * x) ^ 3 - 3 * (-u ^ 2 * x) + b = -(u ^ 3) ^ 2 * (x ^ 3 - 3 * x + b) := by
  linear_combination -(1 + u ^ 2) * hx

/-! ### One square among two values (R160, R214) -/

theorem isSquareP_iff_isSquare (y : Fp) : isSquareP y = true ↔ IsSquare (modP y) := by
  rw [isSquareP_iff, isSquare_iff_exists_sq]
  constructor
  · rintro ⟨z, rfl⟩
    exact ⟨modP z, modP_sqrP z⟩
  · rintro ⟨z, hz⟩
    obtain ⟨z, rfl⟩ := modP_surjective z
    exact ⟨z, modP_inj.1 ((modP_sqrP z).trans hz.symm)⟩

/-- A factor `-w^2` turns squares into non-squares and back, as `P` is 3 modulo 4 (Euler's criterion). -/
theorem isSquare_neg_sq_mul_iff {w z : ZMod fieldP} (hw : w ≠ 0) (hz : z ≠ 0) :
    IsSquare (-w ^ 2 * z) ↔ ¬ IsSquare z := by
  have := Fact.mk fieldP_prime
  have hne : -w ^ 2 * z ≠ 0 := mul_ne_zero (neg_ne_zero.2 (pow_ne_zero 2 hw)) hz
  have hodd : Odd (fieldP / 2) := by decide
  have hpow : (-w ^ 2 * z) ^ (fieldP / 2) = -z ^ (fieldP / 2) := by
    rw [mul_pow, hodd.neg_pow, ← pow_mul, show 2 * (fieldP / 2) = fieldP - 1 by decide,
      ZMod.pow_card_sub_one_eq_one hw, neg_one_mul]
  have h1 : (-1 : ZMod fieldP) ≠ 1 := fun h => two_ne_zero (by linear_combination -h)
  rw [ZMod.euler_criterion fieldP hne, ZMod.euler_criterion fieldP hz, hpow]
  rcases ZMod.pow_div_two_eq_neg_one_or_one fieldP hz with h | h <;> rw [h]
  · simp [h1]
  · simp [h1]

/-- Exactly one of `g(X0(u))`, `g(X1(u))` is a square (R214). -/
theorem isSquareP_curveG_second (h : singular u = false) (hx : x0P u = .ok x)
    (hx' : modP x' = -modP u ^ 2 * modP x) : isSquareP (curveG x') = !isSquareP (curveG x) := by
  have := Fact.mk fieldP_prime
  have htwist : modP (curveG x') = -(modP u ^ 3) ^ 2 * modP (curveG x) := by
    rw [modP_curveG, modP_curveG, hx', cubic_second (x0P_equation h hx)]
  have hiff := isSquare_neg_sq_mul_iff (pow_ne_zero 3 (singular_ne_zero h)) (curveG_ne_zero x)
  rw [← htwist, ← isSquareP_iff_isSquare, ← isSquareP_iff_isSquare] at hiff
  rw [Bool.eq_iff_iff, hiff, Bool.not_eq_true', Bool.not_eq_true]

/-! ### The value of `f` (R213) -/

theorem mapF_singular (h : singular u = true) : mapF u = .ok (some infinity) := by
  rw [mapF, if_pos h]

theorem mapF_first (h : singular u = false) (hx : x0P u = .ok x) (hs : sqrtP (curveG x) = some s) :
    mapF u = .ok (some ⟨x, s⟩) := by
  rw [mapF, if_neg (by simp [h]), hx, withValue_ok, hs, Option.elim_some]

theorem mapF_second (h : singular u = false) (hx : x0P u = .ok x) (hs : sqrtP (curveG x) = none)
    (hx' : x1P u = .ok x') (hs' : sqrtP (curveG x') = some s) : mapF u = .ok (some ⟨x', negP s⟩) := by
  rw [mapF, if_neg (by simp [h]), hx, withValue_ok, hs, Option.elim_none, secondBranch, hx', withValue_ok, hs',
    Option.map_some]

/-- The `y` of the first branch is a square, that of the second is not: a root of `sqrt_p` is a square, and it is not 0
because `g` has no root. -/
theorem isSquareP_root (hs : sqrtP (curveG x) = some s) : isSquareP s = true ∧ isSquareP (negP s) = false :=
  have hsq := isSquareP_of_sqrtP hs
  ⟨hsq, not_isSquareP_negP hsq (sqrtP_ne_zero hs (ne_zero_iff.2 (curveG_ne_zero x)))⟩

/-- A point with a root of `g` as `y` is not infinity. -/
theorem mk_ne_infinity (hs : modP s ^ 2 = modP (curveG x)) : (⟨x, s⟩ : Point) ≠ infinity := by
  intro h
  obtain rfl : s = toFp 0 := congrArg Point.y h
  exact curveG_ne_zero x (by rw [← hs, modP_zero, zero_pow (by decide)])

/-- Settles O38: the one square among `g(X0(u))`, `g(X1(u))` decides the branch, and its root is the `y` or its negative. -/
theorem mapAlwaysHasValue : Obligations.MapAlwaysHasValue := by
  intro u h
  obtain ⟨x, x', hx, hx', hval⟩ := x1P_ok h
  have hone := isSquareP_curveG_second h hx hval
  rcases hs : sqrtP (curveG x) with _ | s
  · have hsq : isSquareP (curveG x) = false := by rw [isSquareP, hs, Option.isSome_none]
    rw [hsq] at hone
    obtain ⟨s, hs'⟩ := Option.isSome_iff_exists.1 hone
    have hf := mapF_second h hx hs hx' hs'
    refine ⟨x, x', _, hx, hx', by rw [hsq, hone]; rfl, hf, mapF_valid hf, mk_ne_infinity ?_, ?_⟩
    · rw [modP_negP, neg_sq, sqrtP_sq hs']
    · rw [(isSquareP_root hs').2, hsq]
  · have hsq : isSquareP (curveG x) = true := by rw [isSquareP, hs, Option.isSome_some]
    rw [hsq] at hone
    have hf := mapF_first h hx hs
    refine ⟨x, x', _, hx, hx', by rw [hsq, hone]; rfl, hf, mapF_valid hf, mk_ne_infinity (sqrtP_sq hs), ?_⟩
    rw [(isSquareP_root hs).1, hsq]

/-- `f` has a value everywhere, infinity exactly at the singular values (R213, R214). -/
theorem mapF_some (u : Fp) : ∃ p, mapF u = .ok (some p) ∧ (p = infinity ↔ singular u = true) := by
  rcases h : singular u with _ | _
  · obtain ⟨-, -, p, -, -, -, hp, -, hne, -⟩ := mapAlwaysHasValue u h
    exact ⟨p, hp, by simp [hne]⟩
  · exact ⟨infinity, mapF_singular h, by simp⟩

/-! ### The sign of `u` (R215) -/

theorem sqrP_negP (u : Fp) : sqrP (negP u) = sqrP u :=
  modP_inj.1 (by rw [modP_sqrP, modP_negP, neg_sq, modP_sqrP])

theorem singular_negP (u : Fp) : singular (negP u) = singular u := by
  have h0 : -modP u = 0 ↔ modP u = 0 := neg_eq_zero
  have h1 : -modP u = 1 ↔ modP u = -1 := neg_eq_iff_eq_neg
  rw [Bool.eq_iff_iff, singular_iff, singular_iff, modP_negP, h0, h1, neg_inj, or_comm (a := modP u = -1)]

/-- Settles O39: the definitions use `u` through `u^2` and the singularity test only. -/
theorem mapIsEven : Obligations.MapIsEven := by
  intro u
  have h0 : x0P (negP u) = x0P u := by rw [x0P, x0P, mapDenominator, mapDenominator, sqrP_negP]
  have h1 : x1P (negP u) = x1P u := by rw [x1P, x1P, h0, sqrP_negP]
  exact ⟨h0, h1, by rw [mapF, mapF, secondBranch, secondBranch, h0, h1, singular_negP]⟩

end

end Sys2Proof.Laws
end

section
/-! The commands `GX`, `X0`, `X1` and `FMAP` (R216 to R219), and the states of `ENCODE` and `DECODE` around the map (R255 to
R258, R264 to R268). -/
namespace Sys2Proof.Laws
open Sys2Proof Sys2Proof.Machine Sys2Proof.Claims

/-! ### Values as integers -/

theorem eq_toFp_iff {n : Nat} (h : n < fieldP) (x : Fp) : x = toFp n ↔ x.val = n := by
  rw [Fin.ext_iff, toFp_val, Nat.mod_eq_of_lt h]

/-- The singular values as integers (R213). -/
theorem singular_iff_val (u : Fp) : singular u = true ↔ u.val = 0 ∨ u.val = 1 ∨ u.val = fieldP - 1 := by
  simp only [singular, Bool.or_eq_true, decide_eq_true_eq, or_assoc, eq_toFp_iff (show 0 < fieldP by decide),
    eq_toFp_iff (show 1 < fieldP by decide), eq_toFp_iff (show fieldP - 1 < fieldP by decide)]

theorem singular_eq_false (u : Fp) (h0 : u.val ≠ 0) (h1 : u.val ≠ 1) (h2 : u.val ≠ fieldP - 1) :
    singular u = false := by
  rw [← Bool.not_eq_true, singular_iff_val]
  exact not_or.2 ⟨h0, not_or.2 ⟨h1, h2⟩⟩

theorem eq_infinity_iff (p : Point) : p = infinity ↔ p.x.val = 0 ∧ p.y.val = 0 := by
  rw [infinity, Point.mk.injEq, eq_toFp_zero_iff, eq_toFp_zero_iff]

/-! ### The commands (R216 to R219) -/

section
variable {s : State} {rd ra : RegIdx} {pd : PointIdx} {d : Fin 8} {k : Fin 4} {u x : Fp} {p : Point}

/-- Settles O31: `GX` writes `g` of its source (R210). -/
theorem gxResult : Obligations.GxResult := by
  intro rd ra s d a hd ha
  refine ⟨curveG a, ?_, withR2_ok hd ha⟩
  rw [modP_curveG, curveB, modP_toFp]
  norm_cast

theorem exec_x0_singular (hd : dstOf rd = some d) (ha : s.source ra = some u) (h : singular u = true) :
    exec (.x0 rd ra) s = .next (failed .domain s) := by
  rw [exec, execX0, withR2_ok hd ha, if_pos h]
  rfl

theorem exec_x1_singular (hd : dstOf rd = some d) (ha : s.source ra = some u) (h : singular u = true) :
    exec (.x1 rd ra) s = .next (failed .domain s) := by
  rw [exec, execX1, withR2_ok hd ha, if_pos h]
  rfl

theorem exec_x0_value (hd : dstOf rd = some d) (ha : s.source ra = some u) (h : singular u = false)
    (hx : x0P u = .ok x) : exec (.x0 rd ra) s = .next (succeeded { s with regs := s.regs.set d x }) := by
  rw [exec, execX0, withR2_ok hd ha, if_neg (by simp [h]), hx]
  rfl

theorem exec_x1_value (hd : dstOf rd = some d) (ha : s.source ra = some u) (h : singular u = false)
    (hx : x1P u = .ok x) : exec (.x1 rd ra) s = .next (succeeded { s with regs := s.regs.set d x }) := by
  rw [exec, execX1, withR2_ok hd ha, if_neg (by simp [h]), hx]
  rfl

/-- Settles O32: the domain check is singularity of the source, and off it `X0` solves `x0P_equation`. -/
theorem mapHelperResults : Obligations.MapHelperResults := by
  intro rd ra s d u hd ha
  constructor
  · intro h
    have h := (singular_iff_val u).2 h
    exact ⟨exec_x0_singular hd ha h, exec_x1_singular hd ha h⟩
  · intro h0 h1 h2
    have h := singular_eq_false u h0 h1 h2
    obtain ⟨x, x', hx, hx', hval⟩ := x1P_ok h
    refine ⟨x, x', ?_, ?_, hval, exec_x0_value hd ha h hx, exec_x1_value hd ha h hx'⟩
    · rw [← modP_mapDenominator]
      exact mapDenominator_ne_zero h
    · linear_combination -x0P_equation h hx

theorem exec_fmap (hd : pointOf pd = some k) (ha : s.source ra = some u) (hp : mapF u = .ok (some p)) :
    exec (.fmap pd ra) s = finish (s.setPointResult k p) := by
  rw [exec, execFmap, withM_ok hd ha, hp, orFault_ok, Option.elim_some]

/-- Settles O33: `f` always has a value, and it is infinity, which sets `I`, exactly at the singular sources. -/
theorem fmapResult : Obligations.FmapResult := by
  intro pd ra s d u hd ha
  obtain ⟨p, hp, hinf⟩ := mapF_some u
  refine ⟨p, hp, mapF_valid hp, ?_⟩
  rw [exec_fmap hd ha hp, decide_eq_decide.2 ((singular_iff_val u).symm.trans hinf.symm)]
  rfl

end

/-! ### `ENCODE` from `E_CHECK_U` to `E_CHECK_Q` (R255 to R258) -/

/-- Settles O45 by the equations of the four states; `f` has a value by `mapF_some`, the difference by `affineAdd_ok`. -/
theorem encodeMapAndSubtract : Obligations.EncodeMapAndSubtract := by
  intro s
  refine ⟨fun hf hu => exec_eCheckU_singular hf ((singular_iff_val s.u).2 hu), fun hf h0 h1 h2 =>
    exec_eCheckU_regular hf (by simp [singular_eq_false s.u h0 h1 h2]), fun hf => ?_, fun hf hp hq => ?_,
    fun hf hq => exec_eCheckQ_infinity hf ((eq_infinity_iff s.q).2 hq), fun hf hq =>
    exec_eCheckQ_draw hf fun h => not_and_or.2 hq ((eq_infinity_iff s.q).1 h)⟩
  · obtain ⟨p, hp, -⟩ := mapF_some s.u
    exact ⟨p, hp, exec_eMap_some hf hp⟩
  · obtain ⟨q, hq⟩ := affineAdd_ok hp (neg_valid hq)
    exact ⟨q, hq, exec_eSub hf hq⟩

/-! ### `DECODE` (R264 to R268) -/

section
variable {s : State} {p : Point}

theorem exec_dValidate (hf : s.fsm = .dValidate) : exec .decode s = decValidate s := by
  simp only [exec, execDecode, hf]

theorem exec_dValidate_badLength (hf : s.fsm = .dValidate) (h : s.ilen ≠ 64) :
    exec .decode s = .next (s.completeDriver .encoding) :=
  (exec_dValidate hf).trans (if_pos h)

theorem exec_dValidate_parse (hf : s.fsm = .dValidate) (h : s.ilen = 64) :
    exec .decode s = .next { s with
      u := fromBytes (s.ibuf.readBytes 0 32), v := fromBytes (s.ibuf.readBytes 32 32), fsm := .dMapU } :=
  (exec_dValidate hf).trans (if_neg (not_not.2 h))

theorem exec_dMapU (hf : s.fsm = .dMapU) (hp : mapF s.u = .ok (some p)) :
    exec .decode s = .next { s with xf := p.x, yf := p.y, fsm := .dMapV } := by
  simp only [exec, execDecode, hf, decMapU, hp, orFault_ok, Option.elim_some]

theorem exec_dMapV (hf : s.fsm = .dMapV) (hp : mapF s.v = .ok (some p)) :
    exec .decode s = .next { s with qx := p.x, qy := p.y, fsm := .dAdd } := by
  simp only [exec, execDecode, hf, decMapV, hp, orFault_ok, Option.elim_some]

theorem exec_dAdd (hf : s.fsm = .dAdd) (hp : affineAdd s.f s.q = .ok p) :
    exec .decode s = .next { s with px := p.x, py := p.y, fsm := .dEmit } := by
  simp only [exec, execDecode, hf, decAdd, hp, orFault_ok]

theorem exec_dEmit (hf : s.fsm = .dEmit) :
    exec .decode s =
      .next (succeeded ({ s with obuf := s.obuf.writeBytes 0 (sec1 s.p), olen := 65 }.setI s.p)) := by
  simp only [exec, execDecode, hf]
  rfl

end

/-- A byte string written to a buffer reads back (R9). -/
theorem readBytes_writeBytes (m : Memory) (off : Nat) (bs : List Byte) (hm : m.wf = true)
    (h : off + bs.length ≤ bufSize) : (m.writeBytes off bs).readBytes off bs.length = bs := by
  refine List.ext_getElem (length_readBytes _ _ _) fun i _ hi => ?_
  rw [← List.getD_eq_getElem _ 0, getD_readBytes _ _ hi, read_writeBytes m off bs _ hm h, if_pos (by omega),
    Nat.add_sub_cancel_left, List.getD_eq_getElem]

theorem length_sec1 (p : Point) : (sec1 p).length = 65 := by
  simp [sec1]

/-- Settles O47 by the equations of the five states; the 65 bytes of the sum fill `OBUF`. -/
theorem decodeStates : Obligations.DecodeStates := by
  intro s
  have hlen : s.ilen.toNat = 64 ↔ s.ilen = 64 := (BitVec.toNat_inj (y := 64#8) :)
  rw [ne_eq, hlen]
  refine ⟨exec_dValidate_badLength, exec_dValidate_parse, fun hf => ?_, fun hf => ?_, fun hf hp hq => ?_,
    fun hf hwf => ?_⟩
  · obtain ⟨p, hp, -⟩ := mapF_some s.u
    exact ⟨p, hp, exec_dMapU hf hp⟩
  · obtain ⟨p, hp, -⟩ := mapF_some s.v
    exact ⟨p, hp, exec_dMapV hf hp⟩
  · obtain ⟨p, hp⟩ := affineAdd_ok hp hq
    exact ⟨p, hp, exec_dAdd hf hp⟩
  · have hfit : 0 + (sec1 s.p).length ≤ bufSize := by simp [length_sec1, bufSize]
    refine ⟨_, writeBytes_wf _ _ _ hwf hfit, length_sec1 s.p ▸ readBytes_writeBytes _ _ _ hwf hfit, fun a ha => ?_, ?_⟩
    · rw [read_writeBytes _ _ _ _ hwf hfit, length_sec1, if_neg (by omega)]
    · have hI : decide (s.p = infinity) = decide (s.px.val = 0 ∧ s.py.val = 0) :=
        decide_eq_decide.2 (eq_infinity_iff s.p)
      rw [exec_dEmit hf, State.setI, hI]

end Sys2Proof.Laws
end

section
/-! From a safe state every step has a next state, and none newly raises `F_MAPINV` (R307, R309, R353 to R355): every
partial function is asked for inside its domain, and `f` always has a value. -/
namespace Sys2Proof.Laws
open Sys2Proof Sys2Proof.Machine

/-- The outcome is a next state whose code is not `F_MAPINV`. -/
def GoesOn (o : Out) : Prop := ∃ t, o = .next t ∧ t.err ≠ .mapInv

section
variable {s t : State} {o : Out}

/-! ### Outcomes that go on -/

theorem goesOn_next (ho : o = .next t) (ht : t.err ≠ .mapInv) : GoesOn o := ⟨t, ho, ht⟩

theorem goesOn_finish : GoesOn (finish s) := goesOn_next (finish_eq s) (by simp)

theorem goesOn_raise {c : Code} (hc : c ≠ .mapInv) : GoesOn (raise c s) := goesOn_next rfl hc

theorem goesOn_raiseDriver {c : Code} (hc : c ≠ .mapInv) : GoesOn (raiseDriver c s) := goesOn_next rfl hc

/-- A walk that goes on keeps the clear code of a running command (R26). -/
theorem goesOn_walk (he : s.err = .ok) (ho : o = .next t) (ht : t.err = s.err) : GoesOn o :=
  goesOn_next ho (by rw [ht, he]; simp)

theorem goesOn_orFault {α : Type} {v : Except Fault α} {k : α → Out} (hv : ∃ a, v = .ok a)
    (hk : ∀ a, GoesOn (k a)) : GoesOn (orFault v k) := by
  obtain ⟨a, rfl⟩ := hv
  exact hk a

theorem goesOn_ite {p : Prop} [Decidable p] {a b : Out} (ha : GoesOn a) (hb : ¬ p → GoesOn b) :
    GoesOn (if p then a else b) := by
  split_ifs with h
  · exact ha
  · exact hb h

theorem goesOn_withR3 {rd ra rb : RegIdx} {k : Fin 8 → Fp → Fp → Out} (h : ∀ d a b, GoesOn (k d a b)) :
    GoesOn (withR3 rd ra rb s k) := by
  rcases withR3_cases rd ra rb s k with ⟨d, a, b, -, -, -, hk⟩ | hk <;> rw [hk]
  · exact h d a b
  · exact goesOn_raise (by simp)

theorem goesOn_withR2 {rd ra : RegIdx} {k : Fin 8 → Fp → Out} (h : ∀ d a, GoesOn (k d a)) :
    GoesOn (withR2 rd ra s k) := by
  rcases withR2_cases rd ra s k with ⟨d, a, -, -, hk⟩ | hk <;> rw [hk]
  · exact h d a
  · exact goesOn_raise (by simp)

theorem goesOn_withC {ra rb : RegIdx} {k : Fp → Fp → Out} (h : ∀ a b, GoesOn (k a b)) :
    GoesOn (withC ra rb s k) := by
  rcases withC_cases ra rb s k with ⟨a, b, -, -, hk⟩ | hk <;> rw [hk]
  · exact h a b
  · exact goesOn_raise (by simp)

theorem goesOn_withDst {rd : RegIdx} {k : Fin 8 → Out} (h : ∀ d, GoesOn (k d)) : GoesOn (withDst rd s k) := by
  rcases withDst_cases rd s k with ⟨d, -, hk⟩ | hk <;> rw [hk]
  · exact h d
  · exact goesOn_raise (by simp)

theorem goesOn_withSrc {ra : RegIdx} {k : Fp → Out} (h : ∀ a, GoesOn (k a)) : GoesOn (withSrc ra s k) := by
  rcases withSrc_cases ra s k with ⟨a, -, hk⟩ | hk <;> rw [hk]
  · exact h a
  · exact goesOn_raise (by simp)

theorem goesOn_withP3 {pd pa pb : PointIdx} {k : Fin 4 → Point → Point → Out} (h : ∀ d p q, GoesOn (k d p q)) :
    GoesOn (withP3 pd pa pb s k) := by
  rcases withP3_cases pd pa pb s k with ⟨d, a, b, -, -, -, hk⟩ | hk <;> rw [hk]
  · exact h d _ _
  · exact goesOn_raise (by simp)

theorem goesOn_withM {pd : PointIdx} {ra : RegIdx} {k : Fin 4 → Fp → Out} (h : ∀ d a, GoesOn (k d a)) :
    GoesOn (withM pd ra s k) := by
  rcases withM_cases pd ra s k with ⟨d, a, -, -, hk⟩ | hk <;> rw [hk]
  · exact h d a
  · exact goesOn_raise (by simp)

theorem goesOn_withS {rd : RegIdx} {pa : PointIdx} {k : Fin 8 → Point → Out} (h : ∀ d p, GoesOn (k d p)) :
    GoesOn (withS rd pa s k) := by
  rcases withS_cases rd pa s k with ⟨d, a, -, -, hk⟩ | hk <;> rw [hk]
  · exact h d _
  · exact goesOn_raise (by simp)

/-! ### The commands of one step -/

theorem exists_x0P {u : Fp} (h : ¬ singular u = true) : ∃ x, x0P u = .ok x := by
  obtain ⟨x, hx, -⟩ := x0P_ok (eq_false_of_ne_true h)
  exact ⟨x, hx⟩

theorem exists_x1P {u : Fp} (h : ¬ singular u = true) : ∃ x, x1P u = .ok x := by
  obtain ⟨-, x, -, hx, -⟩ := x1P_ok (eq_false_of_ne_true h)
  exact ⟨x, hx⟩

/-- Every command but `ENCODE` and `DECODE` completes, with a code other than `F_MAPINV`: the check before each partial
function is its domain (R307, R353, R354). -/
theorem exec_goesOn (i : Instr) (s : State) (he : i ≠ .encode) (hd : i ≠ .decode) : GoesOn (exec i s) := by
  cases i with
  | nop => exact goesOn_finish
  | fadd => exact goesOn_withR3 fun _ _ _ => goesOn_finish
  | fsub => exact goesOn_withR3 fun _ _ _ => goesOn_finish
  | fmul => exact goesOn_withR3 fun _ _ _ => goesOn_finish
  | fsqr => exact goesOn_withR2 fun _ _ => goesOn_finish
  | fneg => exact goesOn_withR2 fun _ _ => goesOn_finish
  | finv =>
    exact goesOn_withR2 fun _ _ => goesOn_ite (goesOn_raise (by simp)) fun h =>
      goesOn_orFault ((invP_ok h).imp fun _ hy => hy.1) fun _ => goesOn_finish
  | fsqrt => exact goesOn_withR2 fun _ _ => goesOn_finish
  | feq => exact goesOn_withC fun _ _ => goesOn_finish
  | fmov => exact goesOn_withR2 fun _ _ => goesOn_finish
  | fldi => exact goesOn_withDst fun _ => goesOn_finish
  | fldb => exact goesOn_withDst fun _ => goesOn_ite (goesOn_raise (by simp)) fun _ => goesOn_finish
  | fstb => exact goesOn_withSrc fun _ => goesOn_ite (goesOn_raise (by simp)) fun _ => goesOn_finish
  | padd =>
    rw [exec, execPadd]
    refine goesOn_withP3 fun _ p q => goesOn_ite (goesOn_raise (by simp)) fun h => ?_
    obtain ⟨hp, hq⟩ : p.valid = true ∧ q.valid = true := by simpa using h
    exact goesOn_orFault (affineAdd_ok hp hq) fun _ => goesOn_finish
  | gx => exact goesOn_withR2 fun _ _ => goesOn_finish
  | x0 =>
    exact goesOn_withR2 fun _ _ => goesOn_ite (goesOn_raise (by simp)) fun h =>
      goesOn_orFault (exists_x0P h) fun _ => goesOn_finish
  | x1 =>
    exact goesOn_withR2 fun _ _ => goesOn_ite (goesOn_raise (by simp)) fun h =>
      goesOn_orFault (exists_x1P h) fun _ => goesOn_finish
  | fmap =>
    refine goesOn_withM fun _ u => ?_
    obtain ⟨p, hp, -⟩ := mapF_some u
    rw [hp]
    exact goesOn_finish
  | rsamp =>
    rw [exec, execRsamp]
    refine goesOn_withS fun _ p => goesOn_ite (goesOn_raise (by simp)) fun h => ?_
    obtain ⟨hp, h0⟩ : p.valid = true ∧ p ≠ infinity := by simpa using h
    exact goesOn_orFault (rSamp_ok hp h0 _) fun _ => goesOn_finish
  | encode => exact absurd rfl he
  | decode => exact absurd rfl hd

/-! ### The walks of `ENCODE` and `DECODE` -/

theorem goesOn_eValidate (he : s.err = .ok) : GoesOn (encValidate s) := by
  rw [encValidate]
  refine goesOn_ite (goesOn_raiseDriver (by simp)) fun _ => goesOn_ite (goesOn_raiseDriver (by simp)) fun _ => ?_
  exact goesOn_ite (goesOn_raiseDriver (by simp)) fun _ => goesOn_walk he rfl rfl

theorem goesOn_eLoop (he : s.err = .ok) : GoesOn (encLoop s) :=
  goesOn_ite (goesOn_raiseDriver (by simp)) fun _ => goesOn_walk he rfl rfl

theorem goesOn_eDrawU (he : s.err = .ok) : GoesOn (encDrawU s) := by
  rw [encDrawU]
  rcases rngRead_cases s 32 with ⟨-, hr⟩ | ⟨-, hr⟩ | ⟨b, -, -, hr⟩ | ⟨b, -, -, hr⟩ <;> rw [hr]
  · exact goesOn_walk he rfl rfl
  · exact goesOn_raiseDriver (by simp)
  · exact goesOn_walk he rfl rfl
  · exact goesOn_walk he rfl rfl

theorem goesOn_eDrawJ (he : s.err = .ok) : GoesOn (encDrawJ s) := by
  rw [encDrawJ]
  rcases rngRead_cases s 1 with ⟨-, hr⟩ | ⟨-, hr⟩ | ⟨b, -, -, hr⟩ | ⟨b, -, -, hr⟩ <;> rw [hr]
  · exact goesOn_walk he rfl rfl
  · exact goesOn_raiseDriver (by simp)
  · exact goesOn_walk he rfl rfl
  · exact goesOn_walk he rfl rfl

theorem goesOn_eSample (he : s.err = .ok) (hq : s.q.valid = true ∧ s.q ≠ infinity) : GoesOn (encSample s) :=
  goesOn_orFault (rSamp_ok hq.1 hq.2 s.j) fun o => by
    cases o with
    | none => exact goesOn_walk he rfl rfl
    | some v => exact goesOn_walk he rfl rfl

/-- A core step of `ENCODE` from a safe state goes on: the datapath registers are in the domains of `AffineAdd` and the
sampler where these are asked for (R257, R260). -/
theorem encode_goesOn (h : s.Safe) (hs : s.fsm.inEncode = true) : GoesOn (exec .encode s) := by
  obtain ⟨hc, hd⟩ := h
  obtain ⟨-, he⟩ := hc.busy_clear (busy_of_inEncode hs)
  cases hf : s.fsm <;> rw [hf] at hs
  case eValidate => exact exec_eValidate hf ▸ goesOn_eValidate he
  case eLoop => exact exec_eLoop hf ▸ goesOn_eLoop he
  case eDrawU => exact exec_eDrawU hf ▸ goesOn_eDrawU he
  case eCheckU => exact goesOn_walk he (exec_eCheckU hf) rfl
  case eMap =>
    obtain ⟨p, hp, -⟩ := mapF_some s.u
    exact goesOn_walk he (exec_eMap_some hf hp) rfl
  case eSub =>
    obtain ⟨q, hq⟩ := affineAdd_ok (hd.target (by rw [hf]; rfl)) (neg_valid (hd.image hf))
    exact goesOn_walk he (exec_eSub hf hq) rfl
  case eCheckQ =>
    exact exec_eCheckQ hf ▸ goesOn_ite (goesOn_walk he rfl rfl) fun _ => goesOn_walk he rfl rfl
  case eDrawJ => exact exec_eDrawJ hf ▸ goesOn_eDrawJ he
  case eSample => exact exec_eSample hf ▸ goesOn_eSample he (hd.sampled (.inr hf))
  case eEmit => exact goesOn_next (exec_eEmit hf) (by simp [emitted, State.complete])
  all_goals cases hs

/-- A core step of `DECODE` from a safe state goes on: the two images are valid points (R267). -/
theorem decode_goesOn (h : s.Safe) (hs : s.fsm.inDecode = true) : GoesOn (exec .decode s) := by
  obtain ⟨hc, hd⟩ := h
  obtain ⟨-, he⟩ := hc.busy_clear (busy_of_inDecode hs)
  cases hf : s.fsm <;> rw [hf] at hs
  case dValidate =>
    exact exec_dValidate hf ▸ goesOn_ite (goesOn_raiseDriver (by simp)) fun _ => goesOn_walk he rfl rfl
  case dMapU =>
    obtain ⟨p, hp, -⟩ := mapF_some s.u
    exact goesOn_walk he (exec_dMapU hf hp) rfl
  case dMapV =>
    obtain ⟨p, hp, -⟩ := mapF_some s.v
    exact goesOn_walk he (exec_dMapV hf hp) rfl
  case dAdd =>
    obtain ⟨hfirst, hsecond⟩ := hd.images hf
    obtain ⟨p, hp⟩ := affineAdd_ok hfirst hsecond
    exact goesOn_walk he (exec_dAdd hf hp) rfl
  case dEmit => exact goesOn_next (exec_dEmit hf) (by simp)
  all_goals cases hs

/-! ### The turns -/

/-- A step with a next state that does not newly raise `F_MAPINV`. -/
def Proceeds (s : State) (o : Out) : Prop := ∃ t, o = .next t ∧ (t.err = .mapInv → s.err = .mapInv)

theorem GoesOn.proceeds (h : GoesOn o) : Proceeds s o := by
  obtain ⟨t, ho, ht⟩ := h
  exact ⟨t, ho, fun he => absurd he ht⟩

theorem coreStep_proceeds (h : s.Safe) : Proceeds s (coreStep s) := by
  rcases hb : s.busy with _ | _
  · exact ⟨s, coreStep_idle hb, id⟩
  refine GoesOn.proceeds ?_
  rcases hcmd : decode s.cmd with e | i
  · exact coreStep_error hb hcmd ▸ goesOn_raise (by simp)
  rw [coreStep_ok hb hcmd]
  by_cases he : i = .encode
  · subst he
    exact encode_goesOn h (inEncode_of_cmd h.1 hb hcmd)
  by_cases hd : i = .decode
  · subst hd
    exact decode_goesOn h (inDecode_of_cmd h.1 hb hcmd)
  exact exec_goesOn i s he hd

/-- A host write leaves `ERR` or clears it (R26, R340). -/
theorem hostWrite_err (t : Target) (w : Word) (s : State) :
    (hostWrite t w s).err = s.err ∨ (hostWrite t w s).err = .ok := by
  rcases hostWrite_cases t w s with hw | ⟨-, -, -, hw⟩ | ⟨-, hw⟩ | ⟨-, -, hw⟩ | ⟨-, -, hw⟩ | ⟨-, -, hw⟩ |
    ⟨-, -, hw⟩ | ⟨i, -, -, hw⟩ <;> rw [hw]
  · exact .inl rfl
  · exact .inr rfl
  · exact .inl rfl
  · exact .inr rfl
  all_goals exact .inl rfl

theorem hostStep_err (a : HostAccess) (s : State) : (hostStep a s).err = s.err ∨ (hostStep a s).err = .ok := by
  cases a with
  | read off z =>
    rw [hostStep]
    split_ifs
    · obtain ⟨r, n, hr⟩ := hostRead_eq (targetOf off) s
      exact .inl (hr ▸ rfl)
    · exact .inl rfl
  | write off z w =>
    rw [hostStep]
    split_ifs
    · exact hostWrite_err _ w s
    · exact .inl rfl

theorem rngStep_err (a : RngAnswer) (s : State) : (rngStep a s).err = s.err := by
  rw [rngStep]
  split_ifs <;> rfl

theorem eventStep_proceeds (e : Event) (h : s.Safe) : Proceeds s (eventStep e s) := by
  cases e with
  | core => exact coreStep_proceeds h
  | host a =>
    refine ⟨_, rfl, fun he => ?_⟩
    rcases hostStep_err a s with hs | hs
    · exact hs ▸ he
    · exact absurd (hs.symm.trans he) (by simp)
  | rng a => exact ⟨_, rfl, fun he => rngStep_err a s ▸ he⟩
  | rst => exact ⟨_, rfl, fun he => absurd he (by simp [State.toReset, State.reset])⟩

end

/-- Settles O53: whichever agent takes the turn, its step from a safe state proceeds. -/
theorem safeStatesStep : Obligations.SafeStatesStep := by
  intro s h
  cases hes : s.events with
  | nil => exact step_nil hes ▸ coreStep_proceeds h
  | cons e es =>
    rw [step_cons hes]
    exact eventStep_proceeds e (s := { s with events := es }) (safe_setEnvironment h es s.resp s.freeCount s.ie)

end Sys2Proof.Laws
end

section
/-! The sampler `r_samp` (R230 to R233) as the inverse of the map. With `omega = 1 - 3x/b` and `v = u^2`, `x` is `X0(u)`
when `omega (v^2 - v) = -1` and `X1(u)` when `omega (v - 1) = v^2`: two quadratics in `v` with the discriminant
`omega^2 - 4 omega`. The sampler takes the one that `y` selects and returns a square root of one of its roots. -/
namespace Sys2Proof.Laws
open Sys2Proof Sys2Proof.Machine Sys2Proof.Claims

/-! ### Square roots of squares (R146, R160) -/

theorem sq_eq_sq_iff_negP (x y : Fp) : modP x ^ 2 = modP y ^ 2 ↔ x = y ∨ x = negP y := by
  have := Fact.mk fieldP_prime
  rw [sq_eq_sq_iff_eq_or_eq_neg, ← modP_negP, modP_inj, modP_inj]

theorem negP_negP (y : Fp) : negP (negP y) = y := modP_inj.1 (by rw [modP_negP, modP_negP, neg_neg])

/-- Of the two roots of `y^2`, `sqrt_p` returns the one that is a square. -/
theorem sqrtP_sqrP_eq (y : Fp) : sqrtP (sqrP y) = some (if isSquareP y then y else negP y) := by
  obtain ⟨c, hc⟩ := sqrtP_sqrP y
  have hsq := isSquareP_of_sqrtP hc
  rw [hc, Option.some_inj]
  rcases (sq_eq_sq_iff_negP c y).1 (by rw [sqrtP_sq hc, modP_sqrP]) with rfl | rfl
  · rw [if_pos hsq]
  · split_ifs with hy
    · by_contra hne
      have h0 : y ≠ toFp 0 := by
        rintro rfl
        exact hne (by decide)
      simp [not_isSquareP_negP hy h0] at hsq
    · rfl

theorem sqrtP_sqrP_cases (y : Fp) : sqrtP (sqrP y) = some y ∨ sqrtP (sqrP y) = some (negP y) := by
  rw [sqrtP_sqrP_eq]
  split_ifs
  · exact .inl rfl
  · exact .inr rfl

section
variable {p : Point} {u x c : Fp} {j : BitVec 2}

/-! ### The branches of `f`, told apart by `y` (R213, R215) -/

/-- Off the singular values `f` is one of its two branches, each with a root of `g` (R213). -/
theorem mapF_cases (hu : singular u = false) :
    (∃ x s, x0P u = .ok x ∧ sqrtP (curveG x) = some s ∧ mapF u = .ok (some ⟨x, s⟩)) ∨
      ∃ x s, x1P u = .ok x ∧ sqrtP (curveG x) = some s ∧ mapF u = .ok (some ⟨x, negP s⟩) := by
  obtain ⟨x, x', hx, hx', hval⟩ := x1P_ok hu
  have hone := isSquareP_curveG_second hu hx hval
  rcases hs : sqrtP (curveG x) with _ | s
  · rw [isSquareP, isSquareP, hs] at hone
    obtain ⟨s, hs'⟩ := Option.isSome_iff_exists.1 hone
    exact .inr ⟨x', s, hx', hs', mapF_second hu hx hs hx' hs'⟩
  · exact .inl ⟨x, s, hx, hs, mapF_first hu hx hs⟩

theorem sqrtP_curveG_eq (h : p.valid = true) (h0 : p ≠ infinity) :
    sqrtP (curveG p.x) = some (if isSquareP p.y then p.y else negP p.y) := by
  have hg : curveG p.x = sqrP p.y := modP_inj.1 (by rw [modP_curveG, modP_sqrP, valid_onCurve h h0])
  rw [hg, sqrtP_sqrP_eq]

/-- Off the singular values `f(u)` is the valid point with `x = X0(u)` and a square `y`, or with `x = X1(u)` and a
non-square `y`. -/
theorem mapF_eq_some_iff (hu : singular u = false) (h : p.valid = true) (h0 : p ≠ infinity) :
    mapF u = .ok (some p) ↔ (if isSquareP p.y then x0P u else x1P u) = .ok p.x := by
  constructor
  · intro hf
    rcases mapF_cases hu with ⟨x, s, hx, hs, hf'⟩ | ⟨x, s, hx, hs, hf'⟩ <;>
      obtain rfl := Option.some.inj (Except.ok.inj (hf.symm.trans hf'))
    · rw [if_pos (isSquareP_root hs).1, hx]
    · rw [(isSquareP_root hs).2, if_neg Bool.false_ne_true, hx]
  · have hroot := sqrtP_curveG_eq h h0
    split_ifs at hroot ⊢ with hy <;> intro hx
    · exact mapF_first hu hx hroot
    · obtain ⟨x, x', hx0, hx1, hval⟩ := x1P_ok hu
      obtain rfl : x' = p.x := Except.ok.inj (hx1.symm.trans hx)
      have hone := isSquareP_curveG_second hu hx0 hval
      have hnone : sqrtP (curveG x) = none := by
        rw [isSquareP, hroot, Option.isSome_some, isSquareP] at hone
        simpa using hone.symm
      rw [mapF_second hu hx0 hnone hx1 hroot, negP_negP]

/-! ### The equations of the branches (R211, R212, R233) -/

/-- `omega = 1 + (a x)/b` (R230, step 1). -/
def omegaOf (x : Fp) : ZMod fieldP := 1 + modP curveA * modP x * (modP curveB)⁻¹

theorem curveB_mul_omegaOf (x : Fp) : modP curveB * omegaOf x = modP curveB - 3 * modP x := by
  have := Fact.mk fieldP_prime
  have hb := mul_inv_cancel₀ (ne_zero_iff.1 curveB_ne_zero)
  rw [omegaOf, modP_curveA]
  linear_combination -3 * modP x * hb

theorem omegaOf_injective : Function.Injective omegaOf := by
  have := Fact.mk fieldP_prime
  intro x y h
  refine modP_injective (mul_left_cancel₀ (ne_zero_iff.1 curveA_ne_zero) ?_)
  rw [modP_curveA]
  linear_combination curveB_mul_omegaOf y - curveB_mul_omegaOf x + modP curveB * h

theorem omegaOf_x0P (hu : singular u = false) (hx : x0P u = .ok x) :
    omegaOf x * (modP u ^ 4 - modP u ^ 2) = -1 := by
  have := Fact.mk fieldP_prime
  refine mul_left_cancel₀ (ne_zero_iff.1 curveB_ne_zero) ?_
  linear_combination (modP u ^ 4 - modP u ^ 2) * curveB_mul_omegaOf x - x0P_equation hu hx

theorem sq_sub_one_ne_zero (hu : singular u = false) : modP u ^ 2 - 1 ≠ 0 := by
  intro h
  refine mapDenominator_ne_zero hu ?_
  rw [modP_mapDenominator]
  linear_combination modP u ^ 2 * h

theorem omegaOf_x1P (hu : singular u = false) (hx : x1P u = .ok x) : omegaOf x * (modP u ^ 2 - 1) = modP u ^ 4 := by
  have := Fact.mk fieldP_prime
  obtain ⟨x0, x', hx0, hx1, hval⟩ := x1P_ok hu
  obtain rfl : x' = x := Except.ok.inj (hx1.symm.trans hx)
  refine mul_left_cancel₀ (ne_zero_iff.1 curveB_ne_zero) ?_
  have h0 := x0P_equation hu hx0
  linear_combination (modP u ^ 2 - 1) * curveB_mul_omegaOf x' - 3 * (modP u ^ 2 - 1) * hval + h0

theorem x0P_eq_iff (hu : singular u = false) :
    x0P u = .ok x ↔ omegaOf x * (modP u ^ 4 - modP u ^ 2) = -1 := by
  have := Fact.mk fieldP_prime
  refine ⟨omegaOf_x0P hu, fun h => ?_⟩
  obtain ⟨z, hz, -⟩ := x0P_ok hu
  have ht := mapDenominator_ne_zero hu
  rw [modP_mapDenominator] at ht
  rw [hz, omegaOf_injective (mul_right_cancel₀ ht ((omegaOf_x0P hu hz).trans h.symm))]

theorem x1P_eq_iff (hu : singular u = false) :
    x1P u = .ok x ↔ omegaOf x * (modP u ^ 2 - 1) = modP u ^ 4 := by
  have := Fact.mk fieldP_prime
  refine ⟨omegaOf_x1P hu, fun h => ?_⟩
  obtain ⟨-, z, -, hz, -⟩ := x1P_ok hu
  rw [hz, omegaOf_injective (mul_right_cancel₀ (sq_sub_one_ne_zero hu) ((omegaOf_x1P hu hz).trans h.symm))]

/-- The value `-b/a` of `x` at which `omega` is 0 (R211, R233). -/
def omegaZero : Fp := toFp 0x73976747E368DBF83BF93F1C7CDD823ECC5F023B441BE5A76944BEBF629B756E

theorem omegaOf_omegaZero : omegaOf omegaZero = 0 := by
  have := Fact.mk fieldP_prime
  have h3 : modP (mulP (toFp 3) omegaZero) = modP curveB := congrArg modP (by decide)
  rw [modP_mulP, modP_toFp, Nat.cast_ofNat] at h3
  refine mul_left_cancel₀ (ne_zero_iff.1 curveB_ne_zero) ?_
  linear_combination curveB_mul_omegaOf omegaZero - h3

theorem not_isSquareP_curveG_omegaZero : isSquareP (curveG omegaZero) = false := by decide +kernel

/-- No valid point has `x = -b/a`, as `g` is not a square there (R233: evaluated). -/
theorem omegaOf_ne_zero (h : p.valid = true) (h0 : p ≠ infinity) : omegaOf p.x ≠ 0 := by
  intro hw
  have hx : p.x = omegaZero := omegaOf_injective (hw.trans omegaOf_omegaZero.symm)
  have hno := not_isSquareP_curveG_omegaZero
  rw [← hx, isSquareP, sqrtP_curveG_eq h h0] at hno
  cases hno

/-! ### The roots that the sampler looks for -/

/-- The leading coefficient of the quadratic of the branch that `y` selects, `omega v^2 - omega v + 1` or
`v^2 - omega v + omega` (R230, step 4: the factor is the inverse of twice this). -/
def leading (p : Point) : ZMod fieldP := if isSquareP p.y then omegaOf p.x else 1

/-- `c^2` is a root of the branch's quadratic, by the formula for the roots: `2 * leading * c^2 - omega` squares to the
discriminant. -/
def IsSample (p : Point) (c : Fp) : Prop :=
  (2 * leading p * modP c ^ 2 - omegaOf p.x) ^ 2 = omegaOf p.x ^ 2 - 4 * omegaOf p.x

/-- In the square branch the quadratic, times `4 omega`, is the equation of `X0`. -/
theorem isSample_iff_first (hw : omegaOf p.x ≠ 0) (hy : isSquareP p.y = true) :
    IsSample p c ↔ omegaOf p.x * (modP c ^ 4 - modP c ^ 2) = -1 := by
  have := Fact.mk fieldP_prime
  rw [IsSample, leading, if_pos hy]
  constructor
  · intro h
    refine mul_left_cancel₀ (mul_ne_zero (pow_ne_zero 2 two_ne_zero) hw) ?_
    linear_combination h
  · intro h
    linear_combination 4 * omegaOf p.x * h

/-- In the other branch the quadratic, times 4, is the equation of `X1`. -/
theorem isSample_iff_second (hy : ¬ isSquareP p.y = true) :
    IsSample p c ↔ omegaOf p.x * (modP c ^ 2 - 1) = modP c ^ 4 := by
  have := Fact.mk fieldP_prime
  rw [IsSample, leading, if_neg hy]
  constructor
  · intro h
    refine mul_left_cancel₀ (pow_ne_zero 2 two_ne_zero) ?_
    linear_combination -h
  · intro h
    linear_combination -4 * h

theorem singular_denominator (h : singular u = true) : modP u ^ 4 - modP u ^ 2 = 0 := by
  rcases (singular_iff u).1 h with h | h | h <;> rw [h] <;> norm_num

/-- A singular value solves neither equation: 0 only the second one, and only with `omega = 0`. -/
theorem IsSample.not_singular (hs : IsSample p c) (hw : omegaOf p.x ≠ 0) : singular c = false := by
  have := Fact.mk fieldP_prime
  refine Bool.eq_false_iff.2 fun hc => ?_
  have hden := singular_denominator hc
  by_cases hy : isSquareP p.y = true
  · have h := (isSample_iff_first hw hy).1 hs
    rw [hden, mul_zero] at h
    exact neg_ne_zero.2 one_ne_zero h.symm
  · have h := (isSample_iff_second hy).1 hs
    have h6 : modP c ^ 6 = 0 := by linear_combination omegaOf p.x * hden - modP c ^ 2 * h
    rw [pow_eq_zero_iff (by decide)] at h6
    rw [h6] at h
    exact hw (by linear_combination -h)

theorem isSample_iff_mapF_of_not_singular (h : p.valid = true) (h0 : p ≠ infinity) (hc : singular c = false) :
    IsSample p c ↔ mapF c = .ok (some p) := by
  rw [mapF_eq_some_iff hc h h0]
  split_ifs with hy
  · rw [isSample_iff_first (omegaOf_ne_zero h h0) hy, x0P_eq_iff hc]
  · rw [isSample_iff_second hy, x1P_eq_iff hc]

/-- The values that the sampler looks for are the preimages under `f` that are not singular. -/
theorem isSample_iff_mapF (h : p.valid = true) (h0 : p ≠ infinity) :
    IsSample p c ↔ singular c = false ∧ mapF c = .ok (some p) := by
  rw [← and_iff_right_of_imp fun hs : IsSample p c => hs.not_singular (omegaOf_ne_zero h h0)]
  exact and_congr_right (isSample_iff_mapF_of_not_singular h h0)

/-! ### The sampler, step by step (R230) -/

theorem omegaP_ok (x : Fp) : ∃ w, omegaP x = .ok w ∧ modP w = omegaOf x := by
  obtain ⟨ib, hib, eb⟩ := invP_ok curveB_ne_zero
  refine ⟨_, by rw [omegaP, hib, withValue_ok], ?_⟩
  rw [modP_addP, modP_mulP, modP_mulP, eb, modP_toFp, Nat.cast_one, omegaOf]

/-- Off the guard of R233 the factor of step 4 is the inverse of twice the leading coefficient. -/
theorem rootFactor_ok {w : Fp} (hw : modP w = omegaOf p.x) (h0 : omegaOf p.x ≠ 0) :
    ∃ k, rootFactor w p.y = .ok (some k) ∧ 2 * leading p * modP k = 1 := by
  have := Fact.mk fieldP_prime
  rw [rootFactor, leading]
  split_ifs with hy hg
  · rw [← modP_inj, modP_mulP, modP_toFp, modP_zero, hw] at hg
    exact absurd hg (mul_ne_zero (by exact_mod_cast two_ne_zero) h0)
  · obtain ⟨k, hk, -⟩ := invP_ok hg
    refine ⟨k, by rw [hk, withValue_ok], ?_⟩
    rw [← mul_invP hk, modP_mulP, modP_toFp, hw, Nat.cast_ofNat]
  · obtain ⟨k, hk, -⟩ := invP_ok (x := toFp 2) (by decide)
    refine ⟨k, by rw [hk, withValue_ok], ?_⟩
    have h2 := mul_invP hk
    rwa [modP_toFp, Nat.cast_ofNat, ← mul_one (2 : ZMod fieldP)] at h2

/-- The first root with the sign of bit 1 of the selector (R230, step 3). -/
def firstRoot (s : Fp) (j : BitVec 2) : Fp := if j = 2 ∨ j = 3 then negP s else s

/-- The sampler on a valid point other than infinity, without its partial functions: the guard of R233 is dead. -/
theorem rSamp_eq (h : p.valid = true) (h0 : p ≠ infinity) :
    ∃ w k, modP w = omegaOf p.x ∧ 2 * leading p * modP k = 1 ∧ ∀ j, rSamp p j =
      .ok ((sqrtP (subP (sqrP w) (mulP (toFp 4) w))).bind fun s => lastRoot w (firstRoot s j) k j) := by
  obtain ⟨w, hw, ew⟩ := omegaP_ok p.x
  obtain ⟨k, hk, ek⟩ := rootFactor_ok ew (omegaOf_ne_zero h h0)
  refine ⟨w, k, ew, ek, fun j => ?_⟩
  rw [rSamp, if_neg (by simp [h, h0]), hw, withValue_ok]
  cases sqrtP (subP (sqrP w) (mulP (toFp 4) w)) with
  | none => rw [Option.elim_none, Option.bind_none]
  | some s => rw [Option.elim_some, hk, withValue_ok, Option.bind_some, Option.bind_some, firstRoot]

theorem modP_discriminant {w : Fp} (hw : modP w = omegaOf p.x) :
    modP (subP (sqrP w) (mulP (toFp 4) w)) = omegaOf p.x ^ 2 - 4 * omegaOf p.x := by
  rw [modP_subP, modP_sqrP, modP_mulP, modP_toFp, hw, Nat.cast_ofNat]

theorem modP_firstRoot_sq (s : Fp) (j : BitVec 2) : modP (firstRoot s j) ^ 2 = modP s ^ 2 := by
  rw [firstRoot]
  split_ifs
  · rw [modP_negP, neg_sq]
  · rfl

theorem lastRoot_sq {w s k : Fp} (hc : lastRoot w s k j = some c) : modP c ^ 2 = (modP w + modP s) * modP k := by
  obtain ⟨z, hz, rfl⟩ := Option.map_eq_some_iff.1 hc
  rw [← modP_addP, ← modP_mulP, ← sqrtP_sq hz]
  split_ifs
  · rw [modP_negP, neg_sq]
  · rfl

/-- A selector with bit 0 clear returns the second root as it is. -/
theorem lastRoot_of_sq {w s k : Fp} (h : modP c ^ 2 = (modP w + modP s) * modP k) (h1 : ¬ (j = 1 ∨ j = 3)) :
    lastRoot w s k j = some c ∨ lastRoot w s k j = some (negP c) := by
  have hc : mulP (addP w s) k = sqrP c := modP_inj.1 (by rw [modP_mulP, modP_addP, modP_sqrP, h])
  rw [lastRoot, hc]
  simp only [if_neg h1, Option.map_id']
  exact sqrtP_sqrP_cases c

/-- A value of the sampler is a value it looks for. -/
theorem rSamp_isSample (h : p.valid = true) (h0 : p ≠ infinity) (hc : rSamp p j = .ok (some c)) : IsSample p c := by
  obtain ⟨w, k, hw, hk, hj⟩ := rSamp_eq h h0
  obtain ⟨s, hs, hlast⟩ := Option.bind_eq_some_iff.1 (Except.ok.inj ((hj j).symm.trans hc))
  have hroot : modP (firstRoot s j) ^ 2 = omegaOf p.x ^ 2 - 4 * omegaOf p.x := by
    rw [modP_firstRoot_sq, sqrtP_sq hs, modP_discriminant hw]
  have hdouble : 2 * leading p * modP c ^ 2 = omegaOf p.x + modP (firstRoot s j) := by
    linear_combination 2 * leading p * lastRoot_sq hlast + (omegaOf p.x + modP (firstRoot s j)) * hk +
      2 * leading p * modP k * hw
  rw [IsSample, hdouble, add_sub_cancel_left, hroot]

/-- Every value that the sampler looks for is found up to sign, with the first sign that makes `s1 = 2 * leading * c^2 -
omega`. -/
theorem IsSample.exists_rSamp (hs : IsSample p c) (h : p.valid = true) (h0 : p ≠ infinity) :
    ∃ j : BitVec 2, rSamp p j = .ok (some c) ∨ rSamp p j = .ok (some (negP c)) := by
  obtain ⟨w, k, hw, hk, hj⟩ := rSamp_eq h h0
  obtain ⟨r, hr⟩ := modP_surjective (2 * leading p * modP c ^ 2 - omegaOf p.x)
  have hd : subP (sqrP w) (mulP (toFp 4) w) = sqrP r :=
    modP_inj.1 (by rw [modP_discriminant hw, modP_sqrP, hr, hs])
  have hsq : modP c ^ 2 = (modP w + modP r) * modP k := by
    rw [hr, hw]
    linear_combination -modP c ^ 2 * hk
  have found (j : BitVec 2) (s : Fp) (hroot : sqrtP (sqrP r) = some s) (hfirst : firstRoot s j = r)
      (h1 : ¬ (j = 1 ∨ j = 3)) : rSamp p j = .ok (some c) ∨ rSamp p j = .ok (some (negP c)) := by
    rw [hj, hd, hroot, Option.bind_some, hfirst]
    exact (lastRoot_of_sq hsq h1).imp (congrArg _) (congrArg _)
  rcases sqrtP_sqrP_cases r with hroot | hroot
  · exact ⟨0, found 0 r hroot rfl (by decide)⟩
  · exact ⟨2, found 2 (negP r) hroot (negP_negP r) (by decide)⟩

/-! ### The statements (R231, R232) -/

/-- A value of the sampler comes from a point in its domain (R230). -/
theorem rSamp_domain {o : Option Fp} (ho : rSamp p j = .ok o) : p.valid = true ∧ p ≠ infinity := by
  by_cases hdom : (!p.valid || decide (p = infinity)) = true
  · rw [rSamp, if_pos hdom] at ho
    cases ho
  · simpa using hdom

/-- Settles O40: a value solves the equation of its branch, so it is a preimage. -/
theorem samplerGivesPreimages : Obligations.SamplerGivesPreimages := by
  intro p j v hv
  obtain ⟨h, h0⟩ := rSamp_domain hv
  exact ((isSample_iff_mapF h h0).1 (rSamp_isSample h h0 hv)).symm

/-- Settles O41: a preimage solves the equation of its branch, and the sampler finds every solution. -/
theorem samplerFindsPreimage : Obligations.SamplerFindsPreimage := by
  intro u p hu hf
  have h := mapF_valid hf
  have h0 : p ≠ infinity := by
    obtain ⟨q, hq, hinf⟩ := mapF_some u
    obtain rfl := Option.some.inj (Except.ok.inj (hf.symm.trans hq))
    simp [hinf, hu]
  exact ((isSample_iff_mapF h h0).2 ⟨hu, hf⟩).exists_rSamp h h0

theorem firstRoot_xor_one (s : Fp) (j : BitVec 2) : firstRoot s (j ^^^ 1) = firstRoot s j := by
  have hj : (j ^^^ 1 = 2 ∨ j ^^^ 1 = 3) ↔ (j = 2 ∨ j = 3) := by revert j; decide
  simp only [firstRoot, hj]

/-- Flipping bit 0 of the selector flips the sign of the second root (R230, step 6). -/
theorem lastRoot_xor_one (w s k : Fp) (j : BitVec 2) : lastRoot w s k (j ^^^ 1) = (lastRoot w s k j).map negP := by
  have hj : (j ^^^ 1 = 1 ∨ j ^^^ 1 = 3) ↔ ¬ (j = 1 ∨ j = 3) := by revert j; decide
  simp only [lastRoot, hj, Option.map_map]
  refine congrArg (Option.map · _) (funext fun c => ?_)
  by_cases h : j = 1 ∨ j = 3
  · simp only [Function.comp_apply, if_pos h, if_neg (not_not.2 h), negP_negP]
  · simp only [Function.comp_apply, if_neg h, if_pos h]

/-- Settles O42: bit 0 of the selector is used in the sign of the second root only. -/
theorem samplerPairs : Obligations.SamplerPairs := by
  intro p j h h0
  obtain ⟨w, k, -, -, hj⟩ := rSamp_eq h h0
  refine ⟨_, hj j, ?_⟩
  rw [hj, Option.map_bind]
  simp only [firstRoot_xor_one, lastRoot_xor_one]
  rfl

end

section
variable {s : State} {rd : RegIdx} {pa : PointIdx} {j : BitVec 2} {d : Fin 8} {a : Fin 4}

theorem exec_rsamp_outside (hd : dstOf rd = some d) (ha : pointOf pa = some a)
    (h : (s.point a).valid = false ∨ s.point a = infinity) :
    exec (.rsamp rd pa j) s = .next (failed .domain s) := by
  rw [exec, execRsamp, withS_ok hd ha, if_pos (by simpa using h)]
  rfl

theorem exec_rsamp_value {v : Option Fp} (hd : dstOf rd = some d) (ha : pointOf pa = some a)
    (h : (s.point a).valid = true) (h0 : s.point a ≠ infinity) (hv : rSamp (s.point a) j = .ok v) :
    exec (.rsamp rd pa j) s = finish (s.setNullable d v) := by
  rw [exec, execRsamp, withS_ok hd ha, if_neg (by simp [h, h0]), hv, orFault_ok]

/-- Settles O34: on its domain the sampler has a value or `⊥` by `rSamp_ok`, and `setNullable` writes it. -/
theorem rsampResult : Obligations.RsampResult := by
  intro rd pa j s d a hd ha
  refine ⟨exec_rsamp_outside hd ha, fun h h0 => ?_⟩
  obtain ⟨o, ho⟩ := rSamp_ok h h0 j
  cases o with
  | none => exact .inl ⟨ho, exec_rsamp_value hd ha h h0 ho⟩
  | some v => exact .inr ⟨v, ho, exec_rsamp_value hd ha h h0 ho⟩

end

end Sys2Proof.Laws
end

section
/-! The two ends of the driver: what `ENCODE` emits (R260, R261), the walk of `DECODE` beside its big step (R250, R270,
R272), and the round trip (R271), in which `f(u) + (p - f(u)) = p` by the group law. -/
namespace Sys2Proof.Laws
open Sys2Proof Sys2Proof.Machine Sys2Proof.Claims

/-! ### Consecutive byte strings in a buffer (R9) -/

theorem writeBytes_append (m : Memory) (off : Nat) (bs cs : List Byte) :
    m.writeBytes off (bs ++ cs) = (m.writeBytes off bs).writeBytes (off + bs.length) cs := by
  induction bs generalizing m off with
  | nil => rfl
  | cons b bs ih =>
    rw [List.cons_append, Memory.writeBytes, ih, Memory.writeBytes, List.length_cons, Nat.add_right_comm, Nat.add_assoc]

theorem readBytes_add (m : Memory) (off a b : Nat) :
    m.readBytes off (a + b) = m.readBytes off a ++ m.readBytes (off + a) b := by
  simp only [Memory.readBytes, List.range_add, List.map_append, List.map_map, Function.comp_def, Nat.add_assoc]

/-! ### The answer of `ENCODE` (R260, R261) -/

section
variable {m : Memory} {u v : Fp}

theorem length_answer (u v : Fp) : (toBytes u ++ toBytes v).length = 64 := by
  rw [List.length_append, length_toBytes, length_toBytes]

theorem answer_fits (u v : Fp) : 0 + (toBytes u ++ toBytes v).length ≤ bufSize := by
  rw [length_answer, bufSize]
  omega

theorem answerBytes_eq (u v : Fp) (m : Memory) : answerBytes u v m = m.writeBytes 0 (toBytes u ++ toBytes v) := by
  rw [writeBytes_append, length_toBytes, answerBytes]

theorem emitted_obuf (m : Memory) (s : State) : (emitted m s).obuf = m := rfl

theorem answerBytes_wf (hm : m.wf = true) : (answerBytes u v m).wf = true :=
  answerBytes_eq u v m ▸ writeBytes_wf m 0 _ hm (answer_fits u v)

theorem readBytes_answerBytes (hm : m.wf = true) : (answerBytes u v m).readBytes 0 64 = toBytes u ++ toBytes v := by
  rw [answerBytes_eq, ← length_answer u v]
  exact readBytes_writeBytes m 0 _ hm (answer_fits u v)

theorem read_answerBytes_above {a : Nat} (hm : m.wf = true) (ha : 64 ≤ a) :
    (answerBytes u v m).read a = m.read a := by
  rw [answerBytes_eq, read_writeBytes m 0 _ a hm (answer_fits u v), length_answer, if_neg (by omega)]

end

/-- Settles O46: the sampler answers on its domain, and the 64 bytes of `U` and `V` stand in `OBUF`. -/
theorem encodeSampleAndEmit : Obligations.EncodeSampleAndEmit := by
  intro s
  refine ⟨fun hf hq h0 => ?_, fun hf hwf => ⟨answerBytes s.u s.v s.obuf, answerBytes_wf hwf, readBytes_answerBytes hwf,
    fun a ha => read_answerBytes_above hwf ha, exec_eEmit hf⟩⟩
  obtain ⟨o, ho⟩ := rSamp_ok hq h0 s.j
  cases o with
  | none => exact .inl ⟨ho, exec_eSample_none hf ho⟩
  | some v => exact .inr ⟨v, ho, exec_eSample_some hf ho⟩

/-! ### `DECODE` as one big step (R270, R272) -/

/-- The state a successful `DECODE` of the point `p` leaves, hidden registers apart (R268). -/
def decodedPoint (p : Point) (s : State) : State :=
  ({ s with obuf := s.obuf.writeBytes 0 (sec1 p), olen := 65 }.setI p).complete .ok

theorem decodedPoint_obuf (p : Point) (s : State) :
    (decodedPoint p s).obuf = s.obuf.writeBytes 0 (sec1 p) := by
  rw [decodedPoint, complete_obuf, setI_obuf]

section
variable {s t : State} {p f h : Point}

theorem decodeBig_badLength (hlen : s.ilen ≠ 64) : decodeBig s = .next (s.completeDriver .encoding) := if_pos hlen

theorem decodeBig_value (hlen : s.ilen = 64) (hu : mapF (fromBytes (s.ibuf.readBytes 0 32)) = .ok (some f))
    (hv : mapF (fromBytes (s.ibuf.readBytes 32 32)) = .ok (some h)) (hp : affineAdd f h = .ok p) :
    decodeBig s = .next (decodedPoint p s) := by
  rw [decodeBig, if_neg (not_not.2 hlen), hu, orFault_ok, Option.elim_some, hv, orFault_ok, Option.elim_some, hp,
    orFault_ok]
  rfl

/-- The sum of two values of `f` always exists: they are valid points (R214, R215). -/
theorem mapF_sum (u v : Fp) : ∃ f h p, mapF u = .ok (some f) ∧ mapF v = .ok (some h) ∧ affineAdd f h = .ok p := by
  obtain ⟨f, hf, -⟩ := mapF_some u
  obtain ⟨h, hh, -⟩ := mapF_some v
  obtain ⟨p, hp⟩ := affineAdd_ok (mapF_valid hf) (mapF_valid hh)
  exact ⟨f, h, p, hf, hh, hp⟩

/-- One arrow of the walk of `DECODE` is one step of a run. -/
theorem run_decode {n : Nat} (hes : s.events = []) (hs : s.fsm.inDecode = true) (hcmd : decode s.cmd = .ok .decode)
    (ht : exec .decode s = .next t) :
    Host.Core.run Sys2Proof.core (n + 1) s = Host.Core.run Sys2Proof.core n t :=
  run_of_step ((step_nil hes).trans ((coreStep_ok (busy_of_inDecode hs) hcmd).trans ht))

/-- The walk of a `DECODE` with 64 input bytes, arrow by arrow (R264 to R268). -/
theorem run_decode_walk (hf : s.fsm = .dValidate) (hes : s.events = []) (hcmd : decode s.cmd = .ok .decode)
    (hlen : s.ilen = 64) (hu : mapF (fromBytes (s.ibuf.readBytes 0 32)) = .ok (some f))
    (hv : mapF (fromBytes (s.ibuf.readBytes 32 32)) = .ok (some h)) (hp : affineAdd f h = .ok p) :
    ∃ t, Host.Core.run Sys2Proof.core 5 s = .next t ∧ t.forgetDatapath = (decodedPoint p s).forgetDatapath :=
  ⟨_, calc
    _ = _ := run_decode hes (by rw [hf]; rfl) hcmd (exec_dValidate_parse hf hlen)
    _ = _ := run_decode hes rfl hcmd (exec_dMapU rfl hu)
    _ = _ := run_decode hes rfl hcmd (exec_dMapV rfl hv)
    _ = _ := run_decode hes rfl hcmd (exec_dAdd rfl hp)
    _ = _ := run_decode hes rfl hcmd (exec_dEmit rfl), rfl⟩

end

/-- Settles O48: the walk computes what the big step does, and `f` and the sum always have a value. -/
theorem decodeRefinesBigStep : Obligations.DecodeRefinesBigStep := by
  intro s hf hes _ hcmd
  by_cases hlen : s.ilen = 64
  · obtain ⟨f, h, p, hu, hv, hp⟩ :=
      mapF_sum (fromBytes (s.ibuf.readBytes 0 32)) (fromBytes (s.ibuf.readBytes 32 32))
    obtain ⟨t, hrun, hsame⟩ := run_decode_walk hf hes hcmd hlen hu hv hp
    have hfsm : t.fsm = .idle := (congrArg State.fsm hsame :)
    refine ⟨decodedPoint p s, t, decodeBig_value hlen hu hv hp, ?_, hsame, (congrArg State.done hsame :),
      Bool.eq_false_iff.2 fun hb => ((busy_iff t).1 hb).1 hfsm⟩
    rw [hlen]
    exact hrun
  · have hlen' : s.ilen.toNat ≠ 64 := fun h => hlen (BitVec.eq_of_toNat_eq h)
    refine ⟨s.completeDriver .encoding, s.completeDriver .encoding, decodeBig_badLength hlen, ?_, rfl, rfl,
      complete_not_busy s .encoding⟩
    rw [if_neg hlen']
    exact run_decode hes (by rw [hf]; rfl) hcmd (exec_dValidate_badLength hf hlen)

/-! ### The round trip (R271) -/

/-- `(u, v)` encodes `p`: `v` is a sample of `p - f(u)` (R256, R257, R260). -/
def Encodes (p : Point) (u v : Fp) : Prop :=
  ∃ f q j, mapF u = .ok (some f) ∧ affineAdd p f.neg = .ok q ∧ rSamp q j = .ok (some v)

/-- When the run of `ENCODE` succeeds, its answer encodes `p` and has been written over the buffer `m`. -/
def SucceedsWith (p : Point) (m : Memory) (run : EncodeRun) : Prop :=
  ∀ t rest, run = .ended (.next t) rest → t.err = .ok → ∃ u v, Encodes p u v ∧ t.obuf = answerBytes u v m

section
variable {p f q : Point} {u v : Fp} {m : Memory} {s t : State} {as rest : List RngAnswer}

/-- `f(u) + (p - f(u)) = p` in the group of the curve (R192). -/
theorem affineAdd_sub_cancel (hp : p.valid = true) (hf : f.valid = true) (hq : affineAdd p f.neg = .ok q) :
    affineAdd f q = .ok p := by
  have := Fact.mk fieldP_prime
  obtain ⟨hqv, hqg⟩ := (affineAdd_eq_ok_iff hp (neg_valid hf)).1 hq
  rw [affineAdd_eq_ok_iff hf hqv, hqg, groupPoint_neg hf]
  exact ⟨hp, by abel⟩

/-- What encodes `p` decodes to `p`: a sample is a preimage (R231). -/
theorem Encodes.decodes (h : Encodes p u v) (hp : p.valid = true) :
    ∃ f q, mapF u = .ok (some f) ∧ mapF v = .ok (some q) ∧ affineAdd f q = .ok p := by
  obtain ⟨f, q, j, hu, hq, hv⟩ := h
  exact ⟨f, q, hu, (samplerGivesPreimages q j v hv).1, affineAdd_sub_cancel hp (mapF_valid hu) hq⟩

theorem succeedsWith_starved : SucceedsWith p m .starved := fun _ _ h => by cases h

theorem succeedsWith_failed {c : Code} (hc : c ≠ .ok) : SucceedsWith p m (.ended (raiseDriver c s) as) := by
  rintro t rest ⟨⟩ he
  exact absurd he hc

theorem succeedsWith_ite {c : Prop} [Decidable c] {a b : EncodeRun} (ha : SucceedsWith p m a)
    (hb : SucceedsWith p m b) : SucceedsWith p m (if c then a else b) := by
  split_ifs
  · exact ha
  · exact hb

theorem succeedsWith_endFault {α : Type} {x : Except Fault α} {k : α → EncodeRun}
    (h : ∀ a, x = .ok a → SucceedsWith p m (k a)) : SucceedsWith p m (endFault x as k) := by
  cases x with
  | error e => exact fun _ _ hend => by cases hend
  | ok a => exact h a rfl

theorem succeedsWith_encodeSuccess (h : Encodes p u v) :
    SucceedsWith p s.obuf (.ended (encodeSuccess u v s) as) := by
  rw [encodeSuccess_eq]
  rintro t rest ⟨⟩ -
  exact ⟨u, v, h, emitted_obuf _ s⟩

/-- The loop of `ENCODE` succeeds with an encoding of its target only (R262). -/
theorem encodeLoop_succeedsWith (n : Nat) (p : Point) (s : State) (as : List RngAnswer) :
    SucceedsWith p s.obuf (encodeLoop n p s as) := by
  induction n generalizing s as with
  | zero => exact succeedsWith_failed (by simp)
  | succ n ih =>
    have again (as : List RngAnswer) := ih { s with iter := s.iter + 1 } as
    rw [encodeLoop]
    rcases drawBytes 32 as with ⟨bs, mid⟩ | mid | _
    · refine succeedsWith_ite (again mid) (succeedsWith_endFault fun o hu => ?_)
      cases o with
      | none => exact succeedsWith_failed (by simp)
      | some f =>
        refine succeedsWith_endFault fun q hq => succeedsWith_ite (again mid) ?_
        rcases drawBytes 1 mid with ⟨js, left⟩ | left | _
        · refine succeedsWith_endFault fun o hv => ?_
          cases o with
          | none => exact again left
          | some v => exact succeedsWith_encodeSuccess ⟨f, q, _, hu, hq, hv⟩
        · exact succeedsWith_failed (by simp)
        · exact succeedsWith_starved
    · exact succeedsWith_failed (by simp)
    · exact succeedsWith_starved

/-- A successful `ENCODE` had a valid input with the first byte of R269, and its answer encodes the input point. -/
theorem encodeBig_success (hend : encodeBig s as = .ended (.next t) rest) (he : t.err = .ok) :
    s.ibuf.read 0 = 0x04 ∧ s.inputPoint.valid = true ∧
      ∃ u v, Encodes s.inputPoint u v ∧ t.obuf = answerBytes u v s.obuf := by
  by_cases h : (s.ilen ≠ 65 ∨ s.ibuf.read 0 ≠ 0x04) ∨ s.inputPoint.valid = false
  · rw [encodeBig_point s as h] at hend
    cases hend
    cases he
  · rw [encodeBig_loop s as h] at hend
    obtain ⟨hform, hvalid⟩ := not_or.1 h
    exact ⟨not_not.1 (not_or.1 hform).2, by simpa using hvalid,
      encodeLoop_succeedsWith s.nmax.toNat s.inputPoint { s with iter := 0 } as t rest hend he⟩

/-- The two halves of the input of a `DECODE` that has been given the answer of an `ENCODE` (R170, R171). -/
theorem fromBytes_answer (h : m.readBytes 0 64 = toBytes u ++ toBytes v) :
    fromBytes (m.readBytes 0 32) = u ∧ fromBytes (m.readBytes 32 32) = v := by
  have hsplit := (readBytes_add m 0 32 32).symm.trans h
  obtain ⟨hu, hv⟩ := List.append_inj hsplit (by rw [length_readBytes, length_toBytes])
  exact ⟨by rw [hu, fromBytes_toBytes], by rw [← Nat.zero_add 32, hv, fromBytes_toBytes]⟩

theorem readBytes_decodedPoint (hs : s.obuf.wf = true) : (decodedPoint p s).obuf.readBytes 0 65 = sec1 p := by
  have h := readBytes_writeBytes s.obuf 0 (sec1 p) hs (by rw [length_sec1, bufSize])
  rwa [length_sec1, ← decodedPoint_obuf] at h

/-- The SEC1 string of the input point is the input, when that is reduced (R252, R269). -/
theorem sec1_inputPoint (h4 : s.ibuf.read 0 = 0x04) (hx : bytesToNat (s.ibuf.readBytes 1 32) < fieldP)
    (hy : bytesToNat (s.ibuf.readBytes 33 32) < fieldP) : sec1 s.inputPoint = s.ibuf.readBytes 0 65 := by
  have hfirst : s.ibuf.readBytes 0 1 = [0x04] := congrArg (fun b => [b]) h4
  rw [sec1, State.inputPoint, (toBytes_fromBytes_iff (length_readBytes _ _ _)).2 hx,
    (toBytes_fromBytes_iff (length_readBytes _ _ _)).2 hy, readBytes_add _ 0 1 64, hfirst,
    readBytes_add _ (0 + 1) 32 32]
  rfl

end

/-- Settles O51: the answer of `ENCODE` encodes the input point, and what encodes a point decodes to it. -/
theorem roundTrip : Obligations.RoundTrip := by
  intro s t c as rest hs hend he hc hlen hinput
  obtain ⟨h4, hvalid, u, v, henc, hobuf⟩ := encodeBig_success hend he
  rw [hobuf, readBytes_answerBytes hs] at hinput
  obtain ⟨hu, hv⟩ := fromBytes_answer hinput
  obtain ⟨f, q, hf, hq, hsum⟩ := henc.decodes hvalid
  have hbytes := readBytes_decodedPoint (p := s.inputPoint) hc
  refine ⟨decodedPoint s.inputPoint c, ?_, rfl, rfl, hbytes, fun hx hy => hbytes.trans (sec1_inputPoint h4 hx hy)⟩
  exact decodeBig_value (BitVec.eq_of_toNat_eq hlen) (hu ▸ hf) (hv ▸ hq) hsum

end Sys2Proof.Laws
end

section
/-! Every step of a busy core is an arrow of the transition table (R251). -/
namespace Sys2Proof.Laws
open Sys2Proof Sys2Proof.Machine Sys2Proof.Claims

/-- The step from `s` to `t` goes along an arrow of R251, with the code that the arrow names. -/
def IsArrow (s t : State) : Prop := (t.fsm, t.err) ∈ transitions s.fsm

section
variable {s t : State}

theorem eq_eValidate {f : Fsm} (hin : f.inEncode = true) (hloop : f.inLoop = false) : f = .eValidate := by
  simpa [Fsm.inLoop, hin] using hloop

/-- The arrows from the states of `ENCODE` (R252 to R261). -/
theorem encodeMove_isArrow (hs : s.fsm.inEncode = true) (he : s.err = .ok) (h : EncodeMove s t) : IsArrow s t := by
  unfold IsArrow
  cases h with
  | refused hf => exact eq_eValidate hs hf ▸ .tail _ (.head _)
  | validated hf => simp [eq_eValidate hs hf, he, transitions]
  | capReached hf => exact hf ▸ .tail _ (.head _)
  | waiting hf => rcases hf with hf | hf <;> simp [hf, he, transitions]
  | rngFailed hf => rcases hf with hf | hf <;> exact hf ▸ .tail _ (.head _)
  | again hf => rcases hf with hf | hf | hf <;> simp [hf, he, transitions]
  | mapFailed hf => exact hf ▸ .tail _ (.head _)
  | emitted hf => exact hf ▸ .head _
  | started hf | byte hf | drawnU hf | checkedU hf | mapped hf | subtracted hf | checkedQ hf | drawnJ hf | sampled hf =>
    simp [hf, he, transitions]

theorem exec_dAdd_eq (hf : s.fsm = .dAdd) : exec .decode s = decAdd s := by
  simp only [exec, execDecode, hf]

/-- The arrows from the states of `DECODE` (R264 to R268); `f` always has a value, so none goes to `FATAL`. -/
theorem decode_isArrow (hs : s.fsm.inDecode = true) (he : s.err = .ok) (h : exec .decode s = .next t) :
    IsArrow s t := by
  unfold IsArrow
  cases hf : s.fsm <;> rw [hf] at hs
  case dValidate =>
    by_cases hlen : s.ilen = 64
    · cases (exec_dValidate_parse hf hlen).symm.trans h
      simp [he, transitions]
    · cases (exec_dValidate_badLength hf hlen).symm.trans h
      exact .tail _ (.head _)
  case dMapU =>
    obtain ⟨p, hp, -⟩ := mapF_some s.u
    cases (exec_dMapU hf hp).symm.trans h
    simp [he, transitions]
  case dMapV =>
    obtain ⟨p, hp, -⟩ := mapF_some s.v
    cases (exec_dMapV hf hp).symm.trans h
    simp [he, transitions]
  case dAdd =>
    obtain ⟨p, -, h⟩ := orFault_eq_next ((exec_dAdd_eq hf).symm.trans h)
    cases h
    simp [he, transitions]
  case dEmit =>
    cases (exec_dEmit hf).symm.trans h
    exact .head _
  all_goals cases hs

/-- A completion of a one-step command goes to `IDLE` or `FATAL` as its code says (R305, R310). -/
theorem complete_isArrow {c : Code} (w : State) (hf : s.fsm = .exec)
    (hc : c ∈ [Code.ok, .illegal, .range, .domain, .mapInv]) : IsArrow s (w.complete c) := by
  unfold IsArrow
  rw [hf, complete_fsm, complete_err]
  revert c
  decide

theorem codesOf_subset {i : Instr} (he : i ≠ .encode) (hd : i ≠ .decode) :
    codesOf i ⊆ [Code.ok, .illegal, .range, .domain, .mapInv] := by
  cases i with
  | encode => exact absurd rfl he
  | decode => exact absurd rfl hd
  | _ => simp [codesOf]

/-- The arrows from `EXEC`. -/
theorem commandEnds_isArrow {i : Instr} {o : Out} (hf : s.fsm = .exec) (he : i ≠ .encode) (hd : i ≠ .decode)
    (ho : CommandEnds i s o) (ht : o = .next t) : IsArrow s t := by
  rcases ho t ht with ⟨c, rfl | hc, rfl⟩ | ⟨w, -, rfl⟩
  · exact complete_isArrow s hf (by simp)
  · exact complete_isArrow s hf (codesOf_subset he hd hc)
  · exact complete_isArrow w hf (by simp)

end

/-- Settles O55: `CMD` tells which of the three families of arrows the step belongs to. -/
theorem transitionTable : Obligations.TransitionTable := by
  intro s t h hb ht
  obtain ⟨-, hclear⟩ := h.busy_clear hb
  rcases hcmd : decode s.cmd with e | i
  · rw [coreStep_error hb hcmd] at ht
    exact commandEnds_isArrow (i := .nop) (fsm_exec_of_cmd h hb (by simp [hcmd]) (by simp [hcmd])) (by simp) (by simp)
      commandEnds_illegal ht
  rw [coreStep_ok hb hcmd] at ht
  by_cases he : i = .encode
  · subst he
    exact encodeMove_isArrow (inEncode_of_cmd h hb hcmd) hclear (execEncode_move ht)
  by_cases hd : i = .decode
  · subst hd
    exact decode_isArrow (inDecode_of_cmd h hb hcmd) hclear ht
  exact commandEnds_isArrow (fsm_exec_of_cmd h hb (by simp [hcmd, he]) (by simp [hcmd, hd])) he hd
    (exec_commandEnds i s he hd) ht

end Sys2Proof.Laws
end

section
/-! Turns without effect, the codes of each command, and what a failing step leaves (R300 to R311, R326). -/
namespace Sys2Proof.Laws
open Sys2Proof Sys2Proof.Machine Sys2Proof.Claims

/-! ### A core that waits (R310, R311, R326) -/

section
variable {s : State}

theorem not_busy_of_fsm (hf : s.fsm = .idle ∨ s.fsm = .fatal) : s.busy = false := by
  rcases hf with hf | hf <;> rw [State.busy, hf]

theorem busy_of_draw (hf : s.fsm = .eDrawU ∨ s.fsm = .eDrawJ) : s.busy = true := by
  rcases hf with hf | hf <;> rw [State.busy, hf]

end

/-- Settles O6: a core at rest is not busy, and an unanswered read is waiting. -/
theorem coreWaitsUnchanged : Obligations.CoreWaitsUnchanged := fun _ =>
  ⟨fun hf => coreStep_idle (not_busy_of_fsm hf),
    fun hf hin hcmd => (coreStep_ok (busy_of_draw hf) hcmd).trans (exec_draw_waiting hf hin)⟩

/-! ### A failing step (R305, R310) -/

/-- Settles O57: of the three outcomes of a step only the failure leaves another code than `E_OK`. -/
theorem failureWritesNothing : Obligations.FailureWritesNothing := by
  intro i s t herr h hne
  cases exec_outcome h with
  | walked _ hframe _ =>
    have hkept : t.err = s.err := (congrArg State.err hframe :)
    exact absurd (hkept.trans herr) hne
  | @failed c _ ht =>
    have hcode : t.err = c := (congrArg State.err ht :)
    rw [hcode]
    exact ht
  | finished _ ht => exact absurd (by rw [ht, complete_err]) hne

/-! ### Legal fields (R112): the operand forms never answer `E_ILLEGAL` by themselves -/

/-- The outcome is not a completion with `E_ILLEGAL`. -/
def NotIllegal (o : Out) : Prop := ∀ t, o = .next t → t.err ≠ .illegal

section
variable {s : State}

theorem notIllegal_finish : NotIllegal (finish s) := by
  rintro t ⟨⟩
  simp

theorem notIllegal_raise {c : Code} (hc : c ≠ .illegal) : NotIllegal (raise c s) := by
  rintro t ⟨⟩
  exact hc

theorem notIllegal_orFault {α : Type} {v : Except Fault α} {k : α → Out} (h : ∀ a, NotIllegal (k a)) :
    NotIllegal (orFault v k) := by
  intro t ht
  obtain ⟨a, -, ha⟩ := orFault_eq_next ht
  exact h a t ha

theorem notIllegal_ite {p : Prop} [Decidable p] {a b : Out} (ha : NotIllegal a) (hb : NotIllegal b) :
    NotIllegal (if p then a else b) := by
  split_ifs
  · exact ha
  · exact hb

theorem notIllegal_withR3 {rd ra rb : RegIdx} {k : Fin 8 → Fp → Fp → Out}
    (hwf : (isDst rd && isSrc ra && isSrc rb) = true) (h : ∀ d a b, NotIllegal (k d a b)) :
    NotIllegal (withR3 rd ra rb s k) := by
  simp only [Bool.and_eq_true, isDst_iff, isSrc_iff s] at hwf
  obtain ⟨⟨⟨d, hd⟩, a, ha⟩, b, hb⟩ := hwf
  rw [withR3_ok hd ha hb]
  exact h d a b

theorem notIllegal_withR2 {rd ra : RegIdx} {k : Fin 8 → Fp → Out} (hwf : (isDst rd && isSrc ra) = true)
    (h : ∀ d a, NotIllegal (k d a)) : NotIllegal (withR2 rd ra s k) := by
  simp only [Bool.and_eq_true, isDst_iff, isSrc_iff s] at hwf
  obtain ⟨⟨d, hd⟩, a, ha⟩ := hwf
  rw [withR2_ok hd ha]
  exact h d a

theorem notIllegal_withC {ra rb : RegIdx} {k : Fp → Fp → Out} (hwf : (isSrc ra && isSrc rb) = true)
    (h : ∀ a b, NotIllegal (k a b)) : NotIllegal (withC ra rb s k) := by
  simp only [Bool.and_eq_true, isSrc_iff s] at hwf
  obtain ⟨⟨a, ha⟩, b, hb⟩ := hwf
  rw [withC_ok ha hb]
  exact h a b

theorem notIllegal_withDst {rd : RegIdx} {k : Fin 8 → Out} (hwf : isDst rd = true) (h : ∀ d, NotIllegal (k d)) :
    NotIllegal (withDst rd s k) := by
  obtain ⟨d, hd⟩ := (isDst_iff rd).1 hwf
  rw [withDst_ok hd]
  exact h d

theorem notIllegal_withSrc {ra : RegIdx} {k : Fp → Out} (hwf : isSrc ra = true) (h : ∀ a, NotIllegal (k a)) :
    NotIllegal (withSrc ra s k) := by
  obtain ⟨a, ha⟩ := (isSrc_iff s ra).1 hwf
  rw [withSrc_ok ha]
  exact h a

theorem notIllegal_withP3 {pd pa pb : PointIdx} {k : Fin 4 → Point → Point → Out}
    (hwf : (isPoint pd && isPoint pa && isPoint pb) = true) (h : ∀ d p q, NotIllegal (k d p q)) :
    NotIllegal (withP3 pd pa pb s k) := by
  simp only [Bool.and_eq_true, isPoint_iff] at hwf
  obtain ⟨⟨⟨d, hd⟩, a, ha⟩, b, hb⟩ := hwf
  rw [withP3_ok hd ha hb]
  exact h d _ _

theorem notIllegal_withM {pd : PointIdx} {ra : RegIdx} {k : Fin 4 → Fp → Out}
    (hwf : (isPoint pd && isSrc ra) = true) (h : ∀ d a, NotIllegal (k d a)) : NotIllegal (withM pd ra s k) := by
  simp only [Bool.and_eq_true, isPoint_iff, isSrc_iff s] at hwf
  obtain ⟨⟨d, hd⟩, a, ha⟩ := hwf
  rw [withM_ok hd ha]
  exact h d a

theorem notIllegal_withS {rd : RegIdx} {pa : PointIdx} {k : Fin 8 → Point → Out}
    (hwf : (isDst rd && isPoint pa) = true) (h : ∀ d p, NotIllegal (k d p)) : NotIllegal (withS rd pa s k) := by
  simp only [Bool.and_eq_true, isDst_iff, isPoint_iff] at hwf
  obtain ⟨⟨d, hd⟩, a, ha⟩ := hwf
  rw [withS_ok hd ha]
  exact h d _

end

/-- A one-step command with legal fields does not complete with `E_ILLEGAL` (R304). -/
theorem exec_notIllegal (i : Instr) (s : State) (hwf : i.wellFormed = true) (he : i ≠ .encode) (hd : i ≠ .decode) :
    NotIllegal (exec i s) := by
  cases i with
  | nop => exact notIllegal_finish
  | fadd | fsub | fmul => exact notIllegal_withR3 hwf fun _ _ _ => notIllegal_finish
  | fsqr | fneg | fsqrt | fmov | gx => exact notIllegal_withR2 hwf fun _ _ => notIllegal_finish
  | finv | x0 | x1 =>
    exact notIllegal_withR2 hwf fun _ _ => notIllegal_ite (notIllegal_raise (by simp))
      (notIllegal_orFault fun _ => notIllegal_finish)
  | feq => exact notIllegal_withC hwf fun _ _ => notIllegal_finish
  | fldi => exact notIllegal_withDst hwf fun _ => notIllegal_finish
  | fldb =>
    exact notIllegal_withDst hwf fun _ => notIllegal_ite (notIllegal_raise (by simp)) notIllegal_finish
  | fstb =>
    exact notIllegal_withSrc hwf fun _ => notIllegal_ite (notIllegal_raise (by simp)) notIllegal_finish
  | padd =>
    rw [exec, execPadd]
    exact notIllegal_withP3 hwf fun _ _ _ => notIllegal_ite (notIllegal_raise (by simp))
      (notIllegal_orFault fun _ => notIllegal_finish)
  | fmap =>
    refine notIllegal_withM hwf fun _ _ => notIllegal_orFault fun o => ?_
    cases o with
    | none => exact notIllegal_raise (by simp)
    | some p => exact notIllegal_finish
  | rsamp =>
    rw [exec, execRsamp]
    exact notIllegal_withS hwf fun _ _ => notIllegal_ite (notIllegal_raise (by simp))
      (notIllegal_orFault fun _ => notIllegal_finish)
  | encode => exact absurd rfl he
  | decode => exact absurd rfl hd

/-! ### The codes of a command (R300 to R309) -/

section
variable {s t : State}

/-- The codes of `ENCODE`: `E_POINT`, `E_RNG`, `F_RETRY` and `F_MAPINV`. -/
theorem EncodeMove.code (h : EncodeMove s t) (he : s.err = .ok) : t.err = .ok ∨ t.err ∈ codesOf .encode := by
  cases h with
  | refused | capReached | rngFailed | mapFailed => exact .inr (by simp [codesOf])
  | emitted => exact .inl rfl
  | _ => exact .inl he

/-- The codes of `DECODE`: `E_ENCODING` and `F_MAPINV`. -/
theorem DecodeMove.code (h : DecodeMove s t) (he : s.err = .ok) : t.err = .ok ∨ t.err ∈ codesOf .decode := by
  cases h with
  | refused | mapFailed => exact .inr (by simp [codesOf])
  | emitted => exact .inl rfl
  | _ => exact .inl he

theorem exec_code {i : Instr} (hwf : i.wellFormed = true) (herr : s.err = .ok) (h : exec i s = .next t) :
    t.err = .ok ∨ t.err ∈ codesOf i := by
  by_cases he : i = .encode
  · subst he
    exact (execEncode_move h).code herr
  by_cases hd : i = .decode
  · subst hd
    exact (execDecode_move h).code herr
  rcases exec_commandEnds i s he hd t h with ⟨c, rfl | hc, rfl⟩ | ⟨w, -, rfl⟩
  · exact absurd rfl (exec_notIllegal i s hwf he hd _ h)
  · exact .inr hc
  · exact .inl rfl

end

/-- The fatal codes are the ones with bit 3 set: 8 and 9 (R300). -/
theorem fatal_iff (c : Code) : c.fatal = true ↔ c = .retry ∨ c = .mapInv := by
  cases c <;> decide

/-- Settles O56: each command's own codes from its outcomes, and the numbers from the table. -/
theorem codesByCommand : Obligations.CodesByCommand :=
  ⟨fun _ _ _ hwf herr h => exec_code hwf herr h, rfl, rfl, rfl, rfl, rfl, rfl, rfl, rfl, rfl, fatal_iff⟩

end Sys2Proof.Laws
end
